-- ==== Sys2Proof/Word.lean ====
section
/-!
DEFINITION. The two word types of the core and the concatenation of bytes into them.
Rule R14 of spec/00_scope.md gives the widths; rules R63 to R65 of spec/20_memory.md give the byte order.
-/

namespace Sys2Proof

/-- One byte: every transport exchange and every host-buffer access moves one (R14, R67). -/
abbrev Byte := BitVec 8

/-- A 32-bit value: a command argument, a card address, an OCR, a sector number or count (R14). -/
abbrev Word := BitVec 32

/-- A command index (R14: 6 bits, 0 to 63). -/
abbrev CmdIndex := BitVec 6

end Sys2Proof
end

