-- ==== Sys2Proof/Config.lean ====
section
/-!
DEFINITION. The values fixed by the document (rule R11 of spec/00_scope.md), the open parameters with the
spec's defaults (rule R12), what makes a parameter record legal, and the model's free values.
-/

namespace Sys2Proof

/-! ### Values fixed by the document (R11) -/

/-- `BLOCK_LEN` (R11): bytes of payload in one data block. -/
def blockBytes : Nat := 512

/-- `CMD_ATTEMPTS` (R11): attempts of each retried bring-up step. -/
def cmdAttempts : Nat := 10

/-- `SREAD_ATTEMPTS` (R11, R230): whole-operation attempts of a single-block read. -/
def sreadAttempts : Nat := 5

/-- `FILLER` (R11, R142): the byte sent when the core only receives. -/
def fillerByte : Byte := 0xFF

/-- `TOK_START` (R11): the start token of a single-block write and of every read block. -/
def startToken : Byte := 0xFE

/-- `TOK_MSTART` (R11): the start token of each multi-block write block. -/
def multiStartToken : Byte := 0xFC

/-- `TOK_MSTOP` (R11): the stop token that ends a multi-block write. -/
def stopTokenByte : Byte := 0xFD

/-- The op code of a READ request (R102). -/
def opRead : Byte := 0x01

/-- The op code of a WRITE request (R102). -/
def opWrite : Byte := 0x02

/-! ### Open parameters (R12) -/

/-- The parameters the document leaves open (R12). They are configuration and not state (R33): they are
fixed for a run and no step writes them. The default of each field is the spec's own (R12). -/
structure Config where
  /-- `RESP_POLL_MAX`: reads of a decoder's lead-byte poll (R147). -/
  respPollMax : Nat := 8
  /-- `TOKEN_POLL_MAX`: reads of the start-token poll (R222). -/
  tokenPollMax : Nat := 20
  /-- `DRESP_POLL_MAX`: reads of the data-response poll (R224). -/
  drespPollMax : Nat := 10
  /-- `BUSY_POLL_MAX`: reads of the busy poll; `none` is `UNBOUNDED` (R232). -/
  busyPollMax : Option Nat := none
  /-- `SWRITE_CMD_ATTEMPTS`: CMD24 frames of a single-block write (R227). -/
  swriteCmdAttempts : Nat := 10
  /-- `R1_LEAD_MASK` (R94), used for R1 and R7. -/
  r1LeadMask : Byte := 0xC0
  /-- `R1_LEAD_TARGET` (R94). -/
  r1LeadTarget : Byte := 0x00
  /-- `R3_LEAD_MASK` (R95). -/
  r3LeadMask : Byte := 0xC1
  /-- `R3_LEAD_TARGET` (R95). -/
  r3LeadTarget : Byte := 0x01
  /-- `OCR_PROBE`: whether CMD58 is attempted (R205). -/
  ocrProbe : Bool := true
  /-- `SCALE_STANDARD`: whether a standard-capacity sector number is multiplied by 512 (R262). -/
  scaleStandard : Bool := true
  /-- `N_HOSTS`: the number of hosts (R313). -/
  nHosts : Nat := 1
  deriving DecidableEq, Repr

/-- The spec's defaults (R12), the ones of every vector of spec/95_test_vectors.md. -/
def Config.defaults : Config := {}

/-- The types R12 gives its parameters: each count is at least 1, a bounded busy poll too. -/
def Config.wf (c : Config) : Bool :=
  decide (1 ≤ c.respPollMax) && decide (1 ≤ c.tokenPollMax) && decide (1 ≤ c.drespPollMax) &&
  decide (1 ≤ c.swriteCmdAttempts) && decide (1 ≤ c.nHosts) &&
  (match c.busyPollMax with
   | none => true
   | some n => decide (1 ≤ n))

/-! ### The free values -/

/-- FREE VALUE (log entry 3). Which of several waiting hosts the arbiter grants is "a nondeterministic
choice" (R265) with no fairness (R268, I21). The n-th such choice is this constant at n, taken modulo the
number of waiting hosts. It has no body, so nothing can be proved about one particular choice. -/
opaque Config.arbiterChoice : Nat → Nat

/-- FREE VALUE (log entry 13). What the `attempt` field of a fault record, which holds 1 to 255 (R28), holds where
the attempt's number is outside that range; `SWRITE_CMD_ATTEMPTS` may be any number from 1 on (R12). -/
opaque Config.attemptBeyond : Nat → Nat

end Sys2Proof
end

