-- ==== Sys2Proof/Machine/Crc.lean ====
section
/-!
DEFINITION. The two checksum functions of spec/40_checksum.md, as pure functions of their bytes (rule R129),
and the table of protocol-fixed CRC7 constants (rule R171 of spec/42_command_catalog.md).
-/

namespace Sys2Proof

/-- The bits of a byte in the order the CRCs consume them: bit 7 first (R66, "MSB-first"). -/
def bitsMsbFirst (b : Byte) : List Bool :=
  [b[7], b[6], b[5], b[4], b[3], b[2], b[1], b[0]]

/-- One bit of R120's loop: the feedback is c[6] xor the message bit, the register shifts left, and x³ + 1 is
added where the feedback is 1. -/
def crc7Bit (c : BitVec 7) (bit : Bool) : BitVec 7 :=
  let shifted := c <<< 1
  if c.msb ^^ bit then shifted ^^^ 0b0001001#7 else shifted

/-- One byte of R120's loop. -/
def crc7Byte (c : BitVec 7) (b : Byte) : BitVec 7 := (bitsMsbFirst b).foldl crc7Bit c

/-- `CRC7` (R120): initial value 0, no final XOR. -/
def crc7 (m : List Byte) : BitVec 7 := m.foldl crc7Byte 0#7

/-- One bit of R125's loop: the feedback is c[15] xor the message bit, and x¹² + x⁵ + 1 is added where the
feedback is 1. -/
def crc16Bit (c : BitVec 16) (bit : Bool) : BitVec 16 :=
  let shifted := c <<< 1
  if c.msb ^^ bit then shifted ^^^ 0x1021#16 else shifted

/-- One byte of R125's loop. -/
def crc16Byte (c : BitVec 16) (b : Byte) : BitVec 16 := (bitsMsbFirst b).foldl crc16Bit c

/-- `CRC16` (R125): initial value 0x0000, no reflection, no final XOR (R126, R125: the spec's cited
general-knowledge choice). -/
def crc16 (m : List Byte) : BitVec 16 := m.foldl crc16Byte 0#16

/-- A command frame's first five bytes: start bits 01 and index, then the argument, big-endian (R91, R92,
R63). -/
def frameHead (idx : CmdIndex) (arg : Word) : List Byte :=
  [0x40#8 ||| idx.zeroExtend 8, arg.extractLsb' 24 8, arg.extractLsb' 16 8, arg.extractLsb' 8 8,
   arg.extractLsb' 0 8]

/-- A frame's last byte, `(c << 1) | 1` (R93). -/
def frameTail (c : BitVec 7) : Byte := (c.zeroExtend 8 <<< 1) ||| 1#8

/-- `KNOWN_CRC7` (R171): the constants of the protocol-fixed frames. -/
def knownCrc7 : List ((CmdIndex × Word) × BitVec 7) :=
  [((0, 0x00000000), 0x4A), ((8, 0x000001AA), 0x43), ((12, 0x00000000), 0x30), ((55, 0x00000000), 0x32),
   ((58, 0x00000000), 0x7E), ((59, 0x00000001), 0x41), ((59, 0x00000000), 0x48)]

/-- The contract check of R170 fails: the frame is in the table and its constant is not `c`. -/
def contractBroken (idx : CmdIndex) (arg : Word) (c : BitVec 7) : Bool :=
  match knownCrc7.lookup (idx, arg) with
  | none => false
  | some k => c != k

end Sys2Proof
end

