-- ==== Sys2Proof/Syntax.lean ====
section
/-!
DEFINITION. The syntax: one constructor per row of spec/opcode_table.json (rule R3 of spec/00_scope.md says
what an instruction is here), the contexts in which the core reads or writes a format (rule R106 of
spec/30_encoding.md: a format is told by what the core is doing, never by its content), and the names of the
reasons for which a word is no instruction in a context (rule R104).
-/

namespace Sys2Proof

/-- An instruction: one operation the core performs as a unit (R3). The order is the table's. -/
inductive Instr where
  /-- `CMD0 GO_IDLE_STATE` (R172). -/
  | cmd0
  /-- `CMD8 SEND_IF_COND` (R173). -/
  | cmd8
  /-- `CMD12 STOP_TRANSMISSION` (R174). -/
  | cmd12
  /-- `CMD16 SET_BLOCKLEN` (R175). -/
  | cmd16
  /-- `CMD17 READ_SINGLE_BLOCK` (R176), with the card address. -/
  | cmd17 (a : Word)
  /-- `CMD18 READ_MULTIPLE_BLOCK` (R177), with the card address. -/
  | cmd18 (a : Word)
  /-- `CMD24 WRITE_BLOCK` (R178), with the card address. -/
  | cmd24 (a : Word)
  /-- `CMD25 WRITE_MULTIPLE_BLOCK` (R179), with the card address. -/
  | cmd25 (a : Word)
  /-- `CMD55 APP_CMD` (R180). -/
  | cmd55
  /-- `ACMD41 SD_SEND_OP_COND` (R181). -/
  | acmd41
  /-- `CMD58 READ_OCR` (R182). -/
  | cmd58
  /-- `CMD59 CRC_ON_OFF`, on (R183). -/
  | cmd59
  /-- The start token 0xFE, received (R222). -/
  | startTokenRead
  /-- The start token 0xFE of a single-block write, sent with its block (R221). -/
  | startTokenSingleWrite
  /-- The start token 0xFC of a multi-block write, sent with its block (R221, R228). -/
  | startTokenMultiWrite
  /-- The stop token 0xFD, sent alone (R99, R228). -/
  | stopTokenMultiWrite
  /-- A data response "accepted", received (R224); the ignored high nibble is kept (R100). -/
  | dataRespAccepted (ignored : BitVec 4)
  /-- The not-busy byte 0xFF, received (R232). -/
  | notBusy
  /-- The filler byte 0xFF, sent (R142). -/
  | filler
  /-- An R1 lead byte, received (R149): the six bits below the two zero bits. -/
  | r1Lead (v : BitVec 6)
  /-- An R7 lead byte, received (R151): the six bits below the two zero bits. -/
  | r7Lead (v : BitVec 6)
  /-- An R3 lead byte, received (R150): bits 5 to 1, between the two zero bits and the idle bit. -/
  | r3Lead (v : BitVec 5)
  /-- The host request `READ(s, n)` (R263). -/
  | readReq (sector count : Word)
  /-- The host request `WRITE(s, n)` (R263). -/
  | writeReq (sector count : Word)
  /-- The bring-up sequence (R200). -/
  | bringup
  /-- The CRC7 unit on a byte sequence (R120). -/
  | crc7 (m : List Byte)
  /-- The CRC16 unit on a byte sequence (R125). -/
  | crc16 (m : List Byte)
  deriving DecidableEq, Repr

/-- What the core is doing where a format is read or written (R106). One byte value can stand for several
rows of the table (0xFE is a start token received or sent, 0xFF not-busy or filler); the context tells. -/
inductive Ctx where
  /-- A command frame is sent (R91). -/
  | frame
  /-- A decoder polls for an R1 lead byte (R94). -/
  | leadR1
  /-- A decoder polls for an R7 lead byte (R96). -/
  | leadR7
  /-- A decoder polls for an R3 lead byte (R95). -/
  | leadR3
  /-- A read polls for the start token (R222). -/
  | tokenPoll
  /-- A write polls for the data response (R224). -/
  | dataResp
  /-- The busy poll (R232). -/
  | busyPoll
  /-- A single-block write sends its block (R227). -/
  | singleBlock
  /-- A multi-block write sends a block (R228). -/
  | multiBlock
  /-- A multi-block write sends its end (R228). -/
  | streamEnd
  /-- The core only clocks the bus (R142). -/
  | clocking
  /-- The host request port (R102). -/
  | requestPort
  /-- Reset has been released (R340); bring-up has no encoding. -/
  | resetRelease
  /-- The input of the CRC7 unit (R121); the unit has no encoding. -/
  | crc7Unit
  /-- The input of the CRC16 unit (R125); the unit has no encoding. -/
  | crc16Unit
  deriving DecidableEq, Repr

/-- Why bytes are no instruction in a context (R104). -/
inductive Reject where
  /-- The number of bytes is not that of the format (R90). -/
  | length
  /-- Bits 47:46 of a frame are not 01 (R91). -/
  | startBits
  /-- Bit 0 of a frame is not 1 (R91). -/
  | endBit
  /-- Bits 7:1 of a frame are not the CRC7 of its first five bytes (R93). -/
  | crc7Mismatch
  /-- A command index the core never frames (R104). -/
  | reservedIndex
  /-- A fixed-argument command with another argument, CMD59 off among them (R103, R171). -/
  | argument
  /-- A host op that is neither READ nor WRITE (R102, R104). -/
  | hostOp
  /-- A byte that is no row of the table in its context: one the poll in progress skips or judges, or one the procedure
  never sends. DESIGN CHOICE (log entry 25); as a received byte it is legal (R104). -/
  | otherByte
  deriving DecidableEq, Repr

end Sys2Proof
end

