-- ==== Sys2Proof/WellFormed.lean ====
section
/-!
DEFINITION. Which instructions and which host requests are well formed. The operands of most rows are
bit vectors of the format's own width, so that every value is one (R14, R102: "any"). The two checksum units
are used by the core on inputs of one length only.
-/

namespace Sys2Proof

/-- The length of the CRC7 unit's input: "the five bytes f0..f4" (R121). -/
def crc7InputLen : Nat := 5

/-- The length of the CRC16 unit's input: "one block payload" (R125). -/
def crc16InputLen : Nat := blockBytes

/-- Well-formed instructions. -/
def Instr.wf : Instr → Bool
  | .crc7 m => decide (m.length = crc7InputLen)
  | .crc16 m => decide (m.length = crc16InputLen)
  | .cmd0 | .cmd8 | .cmd12 | .cmd16 | .cmd17 _ | .cmd18 _ | .cmd24 _ | .cmd25 _ | .cmd55 | .acmd41
  | .cmd58 | .cmd59 | .startTokenRead | .startTokenSingleWrite | .startTokenMultiWrite
  | .stopTokenMultiWrite | .dataRespAccepted _ | .notBusy | .filler | .r1Lead _ | .r7Lead _ | .r3Lead _
  | .readReq _ _ | .writeReq _ _ | .bringup => true

/-- A host buffer: a range of host memory (R60). Where it stands is the host's business (R71). -/
structure Buffer where
  base : Nat
  len : Nat
  deriving DecidableEq, Repr

/-- A host request (R102). -/
structure Request where
  op : Byte
  sector : Word
  count : Word
  buf : Buffer
  deriving DecidableEq, Repr

/-- Condition 1 of R261: the op is READ or WRITE. -/
def Request.opOk (r : Request) : Bool := r.op == opRead || r.op == opWrite

/-- Condition 2 of R261: the buffer's length is exactly 512 bytes a sector. -/
def Request.lengthOk (r : Request) : Bool := r.buf.len == blockBytes * r.count.toNat

/-- The two conditions of R261 that need no state. -/
def Request.wf (r : Request) : Bool := r.opOk && r.lengthOk

end Sys2Proof
end

