-- ==== Sys2Proof/Machine/State.lean ====
section
/-!
DEFINITION. The state of the core (spec/10_state.md), as plain data: the session state, the fault record, the
datapath registers, the request registers, the Transfer Guard, the pending requests, the sequencer position,
the hosts' memory, the event trace, and what is still to come from outside (received bytes, host steps, reset).
INVENTORY.md lists every field with its rule and its reset value.
-/

namespace Sys2Proof.Machine

/-- `st.phase` (R22). -/
inductive Phase where
  | reset
  | bringup
  | ready
  | busy
  | halted
  deriving DecidableEq, Repr

/-- `st.cap` (R23). -/
inductive Capacity where
  | standard
  | high
  deriving DecidableEq, Repr

/-- `st.cs_mode` (R26). The core never writes `disabled`. -/
inductive CsMode where
  | auto
  | hold
  | disabled
  deriving DecidableEq, Repr

/-- The 18 fault codes (R301): "A model's fault type has exactly these 18 constructors." -/
inductive FaultCode where
  | contractCrc7
  | respTimeout
  | initCmd0
  | initCmd8
  | initAcmd41
  | initCmd58
  | initCmd16
  | sreadCmd
  | sreadToken
  | sreadCrc
  | mreadCmd
  | mreadToken
  | mreadCrc
  | swriteCmd
  | writeRejected
  | writeRespTimeout
  | mwriteCmd
  | busyTimeout
  deriving DecidableEq, Repr

/-- An attempt number as a fault record holds it: 1 to 255 (R28). -/
abbrev AttemptNo := { n : Nat // 1 ≤ n ∧ n ≤ 255 }

/-- The fault record (R28, R302). -/
structure FaultRecord where
  code : FaultCode
  /-- The command index in effect, or none. -/
  cmd : Option CmdIndex := none
  /-- The sector index within a multi-block request, or none. -/
  unit : Option Word := none
  /-- The attempt number, or none. -/
  attempt : Option AttemptNo := none
  /-- The offending received byte, or none. -/
  byte : Option Byte := none
  deriving DecidableEq, Repr

/-- The diagnostic codes; the spec defines one (R314). -/
inductive DiagCode where
  | cmd59Unsupported
  deriving DecidableEq, Repr

/-- An event of the observation (R9). -/
inductive Event where
  /-- `XCHG(out, in)`. -/
  | xchg (out inp : Byte)
  /-- `SETCS(mode)`. -/
  | setcs (m : CsMode)
  /-- `GRANT(h)`. -/
  | grant (h : Nat)
  /-- `RELEASE(h)`. -/
  | release (h : Nat)
  /-- `DONE(h, op)`. -/
  | done (h : Nat) (op : Byte)
  /-- `DIAG(code)`, non-normative (R314). -/
  | diag (c : DiagCode)
  /-- `HALT(fault)`. -/
  | halt (r : FaultRecord)
  deriving DecidableEq, Repr

/-! ### The sequencer position (R21): procedure and line -/

/-- The response shapes (R94 to R96); an R1 with its count of extra status bytes (R149: 0 or 4). -/
inductive Shape where
  | r1 (extra : Nat)
  | r3
  | r7
  deriving DecidableEq, Repr

/-- The entries of the command catalog (R172 to R183). -/
inductive Entry where
  | cmd0
  | cmd8
  | cmd12
  | cmd16
  | cmd17 (a : Word)
  | cmd18 (a : Word)
  | cmd24 (a : Word)
  | cmd25 (a : Word)
  | cmd55
  | acmd41
  | cmd58
  | cmd59
  deriving DecidableEq, Repr

/-- The lines of `ISSUE` and `SEND_COMMAND` (R170, R145). -/
inductive FramerLine where
  /-- Compute the CRC7 and make the contract check. -/
  | issue (idx : CmdIndex) (arg : Word)
  /-- `SETCS(HOLD)`. -/
  | hold (idx : CmdIndex) (arg : Word) (c : BitVec 7)
  /-- Send frame byte n. -/
  | send (n : Fin 6)
  deriving DecidableEq, Repr

/-- The lines of `LEAD_POLL` and the three decoders (R147, R149 to R151). -/
inductive DecoderLine where
  /-- Enter the decoder of a response to command `idx`. -/
  | start (sh : Shape) (idx : CmdIndex)
  /-- One turn of the lead-byte poll. -/
  | poll (sh : Shape) (idx : CmdIndex)
  /-- Receive byte `e` of the payload. -/
  | payload (sh : Shape) (e : Nat)
  /-- Receive the trailer. -/
  | trailer
  /-- `SETCS(AUTO)`. -/
  | auto
  /-- Judge the end bit; an R3 that is OK writes `st.ocr`. -/
  | judge (sh : Shape)
  deriving DecidableEq, Repr

/-- The lines of a catalog entry (R172 to R183). -/
inductive CatalogLine where
  /-- The entry's first line. -/
  | call (e : Entry)
  /-- `ACMD41` after its `CMD55` (R181). -/
  | afterPrefix
  /-- The entry's acceptance test (R184). -/
  | accept (e : Entry)
  deriving DecidableEq, Repr

/-- The lines of `BRINGUP` and `STEP` (R200, R208). -/
inductive BringupLine where
  | start
  /-- `STEP(entry, code)` with its first attempt. -/
  | step (e : Entry) (code : FaultCode)
  /-- `STEP` after an attempt. -/
  | stepTest (e : Entry) (code : FaultCode)
  /-- Step 3: the diagnostic where CMD59 failed. -/
  | diagTest
  /-- `st.cap <- STANDARD`. -/
  | capDefault
  /-- Step 5: `if OCR_PROBE`. -/
  | probe
  /-- `st.cap` from the OCR's capacity bit. -/
  | capFromOcr
  /-- Step 6: `if st.cap = STANDARD`. -/
  | blockLen
  /-- `st.ready <- true`, `st.phase <- READY`. -/
  | finish
  deriving DecidableEq, Repr

/-- The lines of the data token framer, the CRC validator and the polls (R221 to R224, R232, R233), and the
single transport primitives of the transfers. -/
inductive BlockLine where
  /-- `SETCS(HOLD)`. -/
  | hold
  /-- `SETCS(AUTO)`. -/
  | auto
  /-- `SEND(0xFF)`, the received byte discarded. -/
  | filler
  /-- `RECV()` into the data latch. -/
  | receive
  /-- `SEND(0xFD)`. -/
  | stopToken
  /-- `DELAY()` (R233). -/
  | delay
  | tokenStart
  /-- One turn of `TOKEN_POLL` (R222). -/
  | tokenPoll
  | readStart
  /-- Receive payload byte j (R223). -/
  | readByte
  /-- Write payload byte j to the host buffer. -/
  | storeByte
  | crcHi
  | crcLo
  | crcTest
  /-- Send a block's token (R221). -/
  | writeToken (tok : Byte)
  /-- Read payload byte j from the host buffer. -/
  | fetchByte
  /-- Send payload byte j. -/
  | sendByte
  | drespStart (idx : CmdIndex)
  /-- One turn of `DRESP_POLL` (R224). -/
  | dresp (idx : CmdIndex)
  | busyStart (idx : CmdIndex)
  /-- One turn of `WAIT_NOT_BUSY` (R232). -/
  | busy (idx : CmdIndex)
  deriving DecidableEq, Repr

/-- The lines of the four transfer procedures (R225 to R228). -/
inductive TransferLine where
  | singleRead (a : Word)
  | sreadTry (a : Word)
  | sreadCmd (a : Word)
  | sreadToken (a : Word)
  | sreadCrc (a : Word)
  | sreadNext (a : Word) (code : FaultCode)
  | multiRead (a n : Word)
  | mreadCmd (n : Word)
  | mreadLoop (n : Word)
  | mreadToken (n : Word)
  | mreadCrc (n : Word)
  | mreadNext (n : Word)
  | singleWrite (a : Word)
  | swriteTry (a : Word)
  | swriteCmd (a : Word)
  | multiWrite (a n : Word)
  | mwriteCmd (n : Word)
  | mwriteLoop (n : Word)
  | mwriteNext (n : Word)
  deriving DecidableEq, Repr

/-- The façade's lines while the guard is held (R263, R266). -/
inductive HostLine where
  | serve
  | release
  deriving DecidableEq, Repr

/-- The two lines of a fatal exit (R300, R152). -/
inductive HaltLine where
  /-- `SETCS(AUTO)`, then raise. -/
  | abort (r : FaultRecord)
  /-- `raise Fatal`. -/
  | raise (r : FaultRecord)
  deriving DecidableEq, Repr

/-- A line of a procedure. -/
inductive Line where
  | framer (l : FramerLine)
  | decoder (l : DecoderLine)
  | catalog (l : CatalogLine)
  | bringup (l : BringupLine)
  | block (l : BlockLine)
  | transfer (l : TransferLine)
  | host (l : HostLine)
  | halt (l : HaltLine)
  deriving DecidableEq, Repr

/-! ### Memory, registers, inputs -/

/-- The hosts' memory, where the host buffers stand (R60, R62): address and byte, addresses rising, and no
entry equal to what an unlisted address reads as (`Memory.blank`). -/
abbrev Memory := List Host.Cell

/-- The datapath registers (R30), with four latches of the model's own for the procedures' local values. -/
structure Datapath where
  /-- `crc7acc`. -/
  crc7acc : BitVec 7
  /-- `crc16acc`. -/
  crc16acc : BitVec 16
  /-- `frame[0..5]`. -/
  frame : Vector Byte 6
  /-- `resp.lead`. -/
  lead : Byte
  /-- `resp.ext[0..n-1]`. -/
  ext : List Byte
  /-- `resp.trailer`. -/
  trailer : Byte
  /-- `resp.va`. -/
  va : BitVec 4
  /-- `resp.echo`. -/
  echo : Byte
  /-- `crc_rx`. -/
  crcRx : BitVec 16
  /-- `attempt`. -/
  attempt : Nat
  /-- `poll`. -/
  poll : Nat
  /-- `j`, the byte index, 0 to 512. -/
  j : Nat
  /-- `k`, the sector index. -/
  k : Word
  /-- MODEL: the `ocr` of R150 while it is received. -/
  ocrIn : Word
  /-- MODEL: the payload byte between the exchange and the buffer access. -/
  data : Byte
  /-- MODEL: the OK/FAIL or true/false a procedure returns to its caller (R16). -/
  ok : Bool
  deriving DecidableEq, Repr

/-- The request registers (R260). -/
structure ReqRegs where
  host : Nat
  op : Byte
  sector : Word
  count : Word
  buf : Buffer
  addr : Word
  deriving DecidableEq, Repr

/-- A turn of the schedule: a host step, the reset input, or one turn of the core (R305: "Whether a submit
comes before or after a core step is a free choice of the schedule"). -/
inductive Input where
  /-- A turn of the core. -/
  | core
  /-- `SUBMIT(h, r)` (R264). -/
  | submit (h : Nat) (r : Request)
  /-- A host writes a byte of its own memory (R80: never in a pending request's buffer). -/
  | hostWrite (a : Nat) (b : Byte)
  /-- Reset is asserted (R340). -/
  | assertReset
  deriving DecidableEq, Repr

/-- MODEL: an operation handed to the core by its encoding, to be performed as a unit by the next step. -/
structure OpWord where
  ctx : Ctx
  bytes : List Byte
  deriving DecidableEq, Repr

/-- MODEL: what stands at the host request port beside a request word (R102): the host that submits the word, and where
its buffer begins, "passed by reference (not part of the word)" (log entry 22). It is the outside's: no step writes it. -/
structure RequestPort where
  host : Nat
  base : Nat
  deriving DecidableEq, Repr

/-- The state. -/
structure State where
  /-- The parameters (R33): no step writes them. -/
  cfg : Config
  /-- `st.phase` (R22). -/
  phase : Phase
  /-- `st.seq` (R21): the current line, then the lines to return to. -/
  seq : List Line
  /-- `st.cap` (R23). -/
  cap : Capacity
  /-- `st.block_len` (R24). -/
  blockLen : Nat
  /-- `st.ready` (R25). -/
  ready : Bool
  /-- `st.cs_mode` (R26). -/
  csMode : CsMode
  /-- `st.fault` (R28). -/
  fault : Option FaultRecord
  /-- `st.ocr` (R29): no value before the first R3 decode. -/
  ocr : Option Word
  /-- The datapath registers (R30). -/
  dp : Datapath
  /-- `req.*` (R260). -/
  req : ReqRegs
  /-- `st.guard` (R31). -/
  guard : Option Nat
  /-- `st.pending[h]` (R32), entry h for host h. -/
  pending : List (Option Request)
  /-- The hosts' memory (R60). -/
  mem : Memory
  /-- The event trace (R9), newest first. -/
  trace : List Event
  /-- MODEL: the bytes the transport will deliver, the next one first (R10, P-card of R353). -/
  rx : List Byte
  /-- MODEL: the schedule of host steps and resets still to come; the core alone moves where it is empty. -/
  inputs : List Input
  /-- MODEL: how many choices the arbiter has made (log entry 3). -/
  arbTurn : Nat
  /-- MODEL: an operation to perform as a unit (log entry 5). -/
  opWord : Option OpWord
  /-- MODEL: the host and the buffer of a request word (log entry 22). -/
  port : RequestPort
  deriving DecidableEq, Repr

/-- Why no step of the core is enabled, or why a step has no effect the rules give. -/
inductive Fault where
  /-- The phase is HALTED and nothing comes from outside: "the core takes no step for ever" (R303, R307).
  Raised by `tick` and by every meaning in that phase, but for a request word that is not the granted request, which
  is a host's step (R264, log entries 17 and 22). Safe: the core stops there too. -/
  | halted
  /-- Reset is asserted: "the core takes no step" (R340). Raised by every meaning in phase RESET, but for bring-up and
  a request word. Safe. -/
  | inReset
  /-- "A model must treat a read of `st.ocr` before any R3 decode as a fault of the model, and must not read it as
  zero" (R29; I12 of 93_implementation_defined.md: "model fault"). Raised by the sequencer's line of bring-up's capacity
  test, and by no instruction in any state (`exec_ne_ocrNoValue`) and in no run from reset (`step_ne_ocrNoValue`), as R29
  says: "No rule of this spec reads it before writing it." Safe: the spec asks for it. -/
  | ocrNoValue
  /-- A buffer access beyond the request's 512 × count bytes: no such byte exists (R60). Raised by the block
  reader and writer. Safe: no admitted request reaches it. -/
  | bufferRange
  deriving DecidableEq, Repr

/-- Why the core gives a word or a request no meaning. -/
inductive Refusal where
  /-- The instruction has no meaning in the model yet. Raised by `exec`. Safe. -/
  | notModelled (mnemonic : String)
  /-- The placed bytes are no instruction in their context: a reserved frame or request word (R104), or a lone byte that
  is no row there (DESIGN CHOICE, log entry 25). Raised by `step` for a placed word only, never for a received byte.
  Safe. -/
  | illegalWord (r : Reject)
  /-- The request is not admitted: "The core gives it no meaning" (R261). Raised by READ and WRITE. Safe. -/
  | notAdmitted
  /-- Bring-up runs out of reset only: "The core has no operation that re-runs bring-up" (R343). Raised by
  BRINGUP. Safe. -/
  | bringupOnlyFromReset
  deriving DecidableEq, Repr

/-! ### Reset (R35, R340) -/

/-- The datapath registers after reset: R30 leaves them unspecified and dead (log entry 2: DESIGN CHOICE
zero). -/
def Datapath.reset : Datapath where
  crc7acc := 0
  crc16acc := 0
  frame := #v[0, 0, 0, 0, 0, 0]
  lead := 0
  ext := []
  trailer := 0
  va := 0
  echo := 0
  crcRx := 0
  attempt := 0
  poll := 0
  j := 0
  k := 0
  ocrIn := 0
  data := 0
  ok := false

/-- The request registers after reset: R260 leaves them unspecified (log entry 2: DESIGN CHOICE zero). -/
def ReqRegs.reset : ReqRegs where
  host := 0
  op := 0
  sector := 0
  count := 0
  buf := ⟨0, 0⟩
  addr := 0

/-- The state while reset is asserted (R35), for given parameters. -/
def State.resetWith (c : Config) : State where
  cfg := c
  phase := .reset
  seq := [.bringup .start]
  cap := .standard
  blockLen := blockBytes
  ready := false
  csMode := .auto
  fault := none
  ocr := none
  dp := Datapath.reset
  req := ReqRegs.reset
  guard := none
  pending := List.replicate c.nHosts none
  mem := []
  trace := []
  rx := []
  inputs := []
  arbTurn := 0
  opWord := none
  port := ⟨0, 0⟩

/-- The machine right after reset, with the spec's default parameters (R12, log entry 1). -/
def State.reset : State := State.resetWith Config.defaults

end Sys2Proof.Machine
end

