-- ==== Sys2Proof/Machine/Ops.lean ====
section
/-!
DEFINITION. The named operations over the state: the hosts' memory one byte at a time (rule R62), the transport
primitives (R16, R140 to R143), the sequencer (R21), the halt (R300) and, as the only way out of it, reset
(R307, R340).
-/

namespace Sys2Proof.Machine

/-! ### Memory -/

/-- What a byte of host memory that nothing has written reads as (log entry 4: DESIGN CHOICE, unsafe; the
spec says nothing of a buffer's contents before the host fills it). -/
def Memory.blank : Byte := 0

/-- Read one byte. -/
def Memory.read : Memory → Nat → Byte
  | [], _ => Memory.blank
  | (x, b) :: rest, a => if x = a then b else Memory.read rest a

/-- Write one byte, keeping the canonical form: writing what an unlisted address reads as takes the entry
out. -/
def Memory.write : Memory → Nat → Byte → Memory
  | [], a, v => if v = Memory.blank then [] else [(a, v)]
  | (x, b) :: rest, a, v =>
    if x < a then (x, b) :: Memory.write rest a v
    else if x = a then (if v = Memory.blank then rest else (a, v) :: rest)
    else if v = Memory.blank then (x, b) :: rest
    else (a, v) :: (x, b) :: rest

/-- The canonical form: addresses strictly rise, and no entry equals what an unlisted address reads as. -/
abbrev Memory.wf (m : Memory) : Prop :=
  m.Pairwise (fun x y => x.1 < y.1) ∧ ∀ c ∈ m, c.2 ≠ Memory.blank

/-- `MemRead(off, 1)` of R16: byte `off` of the current request's buffer; nothing where the buffer has no
such byte (R60). -/
def State.bufRead (s : State) (off : Nat) : Option Byte :=
  if off < s.req.buf.len then some (s.mem.read (s.req.buf.base + off)) else none

/-- `MemWrite(off, 1, v)` of R16. -/
def State.bufWrite (s : State) (off : Nat) (v : Byte) : Option State :=
  if off < s.req.buf.len then some { s with mem := s.mem.write (s.req.buf.base + off) v } else none

/-- The buffer offset of byte j of sector k: "Sector k's byte j goes to offset 512·k + j" (R62). -/
def State.blockOffset (s : State) : Nat := blockBytes * s.dp.k.toNat + s.dp.j

/-! ### Sequencer and events -/

/-- Put lines before the lines still to run (R21): a call, or the next lines of the procedure. -/
def State.push (ls : List Line) (s : State) : State := { s with seq := ls ++ s.seq }

/-- Append an event to the trace (R9). -/
def State.emit (e : Event) (s : State) : State := { s with trace := e :: s.trace }

/-- Change the datapath registers. -/
def State.setDp (f : Datapath → Datapath) (s : State) : State := { s with dp := f s.dp }

/-- Set what a procedure returns to its caller (R16). -/
def State.result (b : Bool) (s : State) : State := s.setDp fun d => { d with ok := b }

/-- `SETCS(m)` (R143): the mode is written, and the event is emitted even where the mode is already `m`. -/
def State.setCs (m : CsMode) (s : State) : State := { s with csMode := m, trace := .setcs m :: s.trace }

/-- The two records of an exchange (R140): the received byte is taken from what the transport delivers, and
`XCHG(out, in)` is emitted. -/
def State.exchanged (out inp : Byte) (rest : List Byte) (s : State) : State :=
  { s with rx := rest, trace := .xchg out inp :: s.trace }

/-! ### What a line does -/

/-- What a line of a procedure does (R9): an internal action, a chip-select change or a buffer access; one
byte exchange and what the received byte leads to; or nothing the rules give. -/
inductive Act where
  | go (s : State)
  | exchange (out : Byte) (next : Byte → State)
  | stop (f : Fault)

/-- A receive, `RECV() = XCHG(0xFF)` (R142). -/
def Act.recv (next : Byte → State) : Act := .exchange fillerByte next

/-- Perform a line at state `s`, where the line still stands first. An exchange completes where the
transport delivers a byte; where it delivers none the core waits at the line (R140, R144). -/
def Act.perform (s : State) : Act → Host.Outcome State Fault Refusal
  | .go s' => .next s'
  | .stop f => .fault f
  | .exchange out next =>
    match s.rx with
    | [] => .next s
    | inp :: rest => .next ((next inp).exchanged out inp rest)

/-! ### Taking the fault, and reset -/

/-- `raise Fatal(code, info)` (R300): the record is written, the phase is HALTED and `HALT` is emitted. The
guard, the pending requests, the session state and the chip-select mode are not changed. -/
def State.raiseFatal (r : FaultRecord) (s : State) : State :=
  { s with fault := some r, phase := .halted, trace := .halt r :: s.trace }

/-- Reset is asserted (R340): every field goes to its reset value and no event is emitted. The parameters,
the hosts' memory, the trace so far and what is outside or still to come from there are not the core's to reset. -/
def State.assertReset (s : State) : State :=
  { State.resetWith s.cfg with
    mem := s.mem, trace := s.trace, rx := s.rx, inputs := s.inputs, arbTurn := s.arbTurn,
    port := s.port }

/-- Reset is released (R340): `st.phase <- BRINGUP`, and the core stands at the first line of `BRINGUP()`. -/
def State.releaseReset (s : State) : State := { s with phase := .bringup }

end Sys2Proof.Machine
end

