-- ==== Sys2Proof/Machine/Operands.lean ====
section
/-!
DEFINITION. Operand forms: the command index, argument and response shape of each catalog entry (rule R103), the
bytes of a frame (R91 to R93), the assembly of received bytes (R63 to R65, R95, R96), the card address (R262)
and the admission of a request (R261).
-/

namespace Sys2Proof.Machine

/-! ### Command catalog (R103) -/

/-- The index of the frame an entry is named after (R103). -/
def Entry.idx : Entry → CmdIndex
  | .cmd0 => 0
  | .cmd8 => 8
  | .cmd12 => 12
  | .cmd16 => 16
  | .cmd17 _ => 17
  | .cmd18 _ => 18
  | .cmd24 _ => 24
  | .cmd25 _ => 25
  | .cmd55 => 55
  | .acmd41 => 41
  | .cmd58 => 58
  | .cmd59 => 59

/-- The argument of that frame (R103, R171, R181). -/
def Entry.arg : Entry → Word
  | .cmd0 => 0x00000000
  | .cmd8 => 0x000001AA
  | .cmd12 => 0x00000000
  | .cmd16 => 0x00000200
  | .cmd17 a => a
  | .cmd18 a => a
  | .cmd24 a => a
  | .cmd25 a => a
  | .cmd55 => 0x00000000
  | .acmd41 => 0x40000000
  | .cmd58 => 0x00000000
  | .cmd59 => 0x00000001

/-- The response decoded after that frame (R106): R7 after CMD8, R3 after CMD41 and CMD58, else R1 with no
extra byte. -/
def Entry.shape : Entry → Shape
  | .cmd8 => .r7
  | .acmd41 => .r3
  | .cmd58 => .r3
  | .cmd0 | .cmd12 | .cmd16 | .cmd17 _ | .cmd18 _ | .cmd24 _ | .cmd25 _ | .cmd55 | .cmd59 => .r1 0

/-- The six bytes of `SEND_COMMAND(idx, arg, c)` (R145). -/
def frameBytes (idx : CmdIndex) (arg : Word) (c : BitVec 7) : Vector Byte 6 :=
  #v[0x40#8 ||| idx.zeroExtend 8, arg.extractLsb' 24 8, arg.extractLsb' 16 8, arg.extractLsb' 8 8,
     arg.extractLsb' 0 8, frameTail c]

/-- The command index in effect: the index field of the last frame's first byte (R91). -/
def State.cmdInEffect (s : State) : CmdIndex := (s.dp.frame[0]).truncate 6

/-! ### Responses -/

/-- Payload bytes between the lead byte and the trailer (R94 to R96). -/
def Shape.payload : Shape → Nat
  | .r1 extra => extra
  | .r3 => 4
  | .r7 => 4

/-- Take in payload byte `e`. R1: an extra status byte (R149). R3: the OCR, big-endian (R64, R150). R7: byte 2
holds the voltage-accepted nibble, byte 3 the echo, and bytes 0 and 1 are discarded (R151). -/
def Shape.take (sh : Shape) (e : Nat) (b : Byte) (d : Datapath) : Datapath :=
  match sh with
  | .r1 _ => { d with ext := d.ext ++ [b] }
  | .r3 => { d with ocrIn := (d.ocrIn <<< 8) ||| b.zeroExtend 32 }
  | .r7 => if e = 2 then { d with va := b.truncate 4 } else if e = 3 then { d with echo := b } else d

/-- Mask and target of a shape's lead-byte poll (R94 to R96): R7 uses R1's. -/
def Shape.maskTarget (sh : Shape) (c : Config) : Byte × Byte :=
  match sh with
  | .r1 _ => (c.r1LeadMask, c.r1LeadTarget)
  | .r7 => (c.r1LeadMask, c.r1LeadTarget)
  | .r3 => (c.r3LeadMask, c.r3LeadTarget)

/-! ### Attempts -/

/-- The attempt field for attempt `n` (R28): the number itself where the field holds it, and otherwise a free value
of the field's range (log entry 13). -/
def attemptNo (n : Nat) : AttemptNo :=
  if h : 1 ≤ n ∧ n ≤ 255 then ⟨n, h⟩ else ⟨Config.attemptBeyond n % 255 + 1, by omega⟩

/-! ### Requests -/

/-- The card address as an exact integer (R262; R15: `*` on u32 values is exact). -/
def addrExact (c : Config) (cap : Capacity) (sector : Word) : Nat :=
  if cap = .standard ∧ c.scaleStandard = true then sector.toNat * blockBytes else sector.toNat

/-- `ADDR(sector)` (R262) as the u32 an admitted request has. -/
def cardAddr (c : Config) (cap : Capacity) (sector : Word) : Word :=
  BitVec.ofNat 32 (addrExact c cap sector)

/-- A request is admitted (R261). -/
def State.admits (s : State) (r : Request) : Bool :=
  r.wf && decide (addrExact s.cfg s.cap r.sector < 2 ^ 32)

/-- Host `h`'s pending request (R32); none for a host that does not exist. -/
def State.pendingOf (s : State) (h : Nat) : Option Request := (s.pending[h]?).join

/-- Address `a` lies in the buffer. -/
def Buffer.contains (b : Buffer) (a : Nat) : Bool := decide (b.base ≤ a) && decide (a < b.base + b.len)

/-- Address `a` lies in a pending request's buffer (R80). -/
def State.inPendingBuffer (s : State) (a : Nat) : Bool :=
  s.pending.any fun p => match p with
    | none => false
    | some r => Buffer.contains r.buf a

end Sys2Proof.Machine
end

