-- ==== Sys2Proof/Machine/Flags.lean ====
section
/-!
DEFINITION. The flag-like values the core holds or reads (rule R27) and every test made on a received byte: the
lead-byte match (R147), the end bit (R148), the OCR bits (R95), the data response (R100), the busy byte (R101)
and the acceptance tests of the catalog (R184).
-/

namespace Sys2Proof.Machine

/-- The lead-byte test, `(b & mask) = target` (R147). -/
def leadMatches (c : Config) (sh : Shape) (b : Byte) : Bool :=
  (b &&& (sh.maskTarget c).1) == (sh.maskTarget c).2

/-- `END_BIT_OK(t)`: bit 0 of the trailer; bits 7:1 are not checked (R148, R97). -/
def endBitOk (t : Byte) : Bool := t[0]

/-- The OCR's busy bit, bit 31 (R95, R181). -/
def ocrBusy (ocr : Word) : Bool := ocr[31]

/-- The OCR's capacity-support bit, bit 30 (R95, R205). -/
def ocrCapacity (ocr : Word) : Bool := ocr[30]

/-- The capacity class an OCR gives (R205). -/
def capacityOf (ocr : Word) : Capacity := if ocrCapacity ocr then .high else .standard

/-- The R1 idle value (R27, R94). -/
def r1Idle : Byte := 0x01

/-- The supported voltage-accepted value (R173). -/
def voltageSupported : BitVec 4 := 0x1

/-- CMD8's check pattern (R173). -/
def checkPattern : Byte := 0xAA

/-- A data response is "accepted": low nibble 0b0101; the high nibble is ignored (R100). -/
def dataAccepted (b : Byte) : Bool := b.truncate 4 == 0b0101#4

/-- Not-busy is a received 0xFF (R101). -/
def isNotBusy (b : Byte) : Bool := b == 0xFF

/-- The busy poll has made its last read: only where its bound is set (R232). -/
def busyExhausted (c : Config) (n : Nat) : Bool :=
  match c.busyPollMax with
  | none => false
  | some m => decide (m ≤ n)

/-- The acceptance test of an entry (R184), on the decoder's status `d.ok` and what it decoded. -/
def Entry.accepts (e : Entry) (d : Datapath) : Bool :=
  match e with
  | .cmd0 => d.ok && d.lead == r1Idle
  | .cmd8 => d.ok && d.va == voltageSupported && d.echo == checkPattern
  | .cmd12 => true
  | .cmd16 | .cmd55 | .cmd59 => d.ok && d.lead.ule r1Idle
  | .cmd17 _ | .cmd18 _ | .cmd24 _ | .cmd25 _ => d.ok && d.lead == 0x00
  | .acmd41 => d.ok && !ocrBusy d.ocrIn
  | .cmd58 => d.ok

/-- The numeric code of a fault (R301). -/
def FaultCode.number : FaultCode → Byte
  | .contractCrc7 => 0x01
  | .respTimeout => 0x02
  | .initCmd0 => 0x10
  | .initCmd8 => 0x11
  | .initAcmd41 => 0x12
  | .initCmd58 => 0x13
  | .initCmd16 => 0x14
  | .sreadCmd => 0x20
  | .sreadToken => 0x21
  | .sreadCrc => 0x22
  | .mreadCmd => 0x28
  | .mreadToken => 0x29
  | .mreadCrc => 0x2A
  | .swriteCmd => 0x30
  | .writeRejected => 0x31
  | .writeRespTimeout => 0x32
  | .mwriteCmd => 0x38
  | .busyTimeout => 0x3F

end Sys2Proof.Machine
end

