-- ==== Sys2Proof/Machine/Framer.lean ====
section
/-!
DEFINITION. The lines of the Command Framer and the Response Decoders (spec/41_framer_decoders.md) and of a
catalog entry (spec/42_command_catalog.md). A line is given the state with the line itself taken off
`st.seq`, so that ending a procedure leaves the caller's line first.
-/

namespace Sys2Proof.Machine

/-- The lines of `ISSUE` (R170) and `SEND_COMMAND` (R145). The contract check stands before the first
event. -/
def FramerLine.act (l : FramerLine) (s : State) : Act :=
  match l with
  | .issue idx arg =>
    let c := crc7 (frameHead idx arg)
    let s1 := s.setDp fun d => { d with crc7acc := c }
    if contractBroken idx arg c then
      .go (s1.push [.halt (.raise { code := .contractCrc7, cmd := some idx })])
    else .go (s1.push [.framer (.hold idx arg c)])
  | .hold idx arg c =>
    .go (((s.setCs .hold).setDp fun d => { d with frame := frameBytes idx arg c }).push [.framer (.send 0)])
  | .send n =>
    .exchange (s.dp.frame[n]) fun _ =>
      if h : n.val + 1 < 6 then s.push [.framer (.send ⟨n.val + 1, h⟩)] else s

/-- The lines of `LEAD_POLL` (R147) and of the decoders (R149 to R151). On entry every decoder empties `resp.ext`, which R149
then fills with its n bytes. That an R3 or R7 decode leaves it empty is a DESIGN CHOICE (log entry 24): only R149 writes the
register (R30), and it is dead there (I11). -/
def DecoderLine.act (l : DecoderLine) (s : State) : Act :=
  match l with
  | .start sh idx =>
    .go ((s.setDp fun d => { d with poll := 0, ext := [], ocrIn := 0 }).push
      ([.decoder (.poll sh idx)] ++ (List.range sh.payload).map (fun e => .decoder (.payload sh e)) ++
       [.decoder .trailer, .decoder .auto, .decoder (.judge sh)]))
  | .poll sh idx =>
    if s.dp.poll < s.cfg.respPollMax then
      .recv fun b =>
        let s1 := s.setDp fun d => { d with poll := d.poll + 1 }
        if leadMatches s.cfg sh b then s1.setDp fun d => { d with lead := b }
        else s1.push [.decoder (.poll sh idx)]
    else .go (s.push [.halt (.abort { code := .respTimeout, cmd := some idx })])
  | .payload sh e => .recv fun b => s.setDp (sh.take e b)
  | .trailer => .recv fun b => s.setDp fun d => { d with trailer := b }
  | .auto => .go (s.setCs .auto)
  | .judge sh =>
    let good := endBitOk s.dp.trailer
    .go { s.result good with ocr := if good = true ∧ sh = .r3 then some s.dp.ocrIn else s.ocr }

/-- The frame, the decoder and the acceptance test of an entry, in order (R170, R154: nothing between the
frame and its decoder). -/
def Entry.frameLines (e : Entry) : List Line :=
  [.framer (.issue e.idx e.arg), .decoder (.start e.shape e.idx), .catalog (.accept e)]

/-- The lines of a catalog entry (R172 to R183). `ACMD41` is CMD55 and then, only if that returned OK, CMD41
(R105, R181). -/
def CatalogLine.act (l : CatalogLine) (s : State) : Act :=
  match l with
  | .call .acmd41 => .go (s.push [.catalog (.call .cmd55), .catalog .afterPrefix])
  | .call e => .go (s.push e.frameLines)
  | .afterPrefix => if s.dp.ok then .go (s.push Entry.acmd41.frameLines) else .go s
  | .accept e => .go (s.result (e.accepts s.dp))

end Sys2Proof.Machine
end

