-- ==== Sys2Proof/Machine/Bringup.lean ====
section
/-!
DEFINITION. The lines of the card initialization state machine (spec/43_bringup.md) and the two lines of a
fatal exit (rules R152 and R300).
-/

namespace Sys2Proof.Machine

/-- The steps of `BRINGUP()` in their order (R200). -/
def bringupSteps : List Line :=
  [.bringup (.step .cmd0 .initCmd0), .bringup (.step .cmd8 .initCmd8), .catalog (.call .cmd59),
   .bringup .diagTest, .bringup (.step .acmd41 .initAcmd41), .bringup .capDefault, .bringup .probe,
   .bringup .blockLen, .bringup .finish]

/-- The lines of `BRINGUP` (R200, R203, R205 to R207) and of `STEP` (R208). The capacity test with no `st.ocr` decoded
is the stop R29 asks for: "A model must treat a read of `st.ocr` before any R3 decode as a fault of the model, and must
not read it as zero." -/
def BringupLine.act (l : BringupLine) (s : State) : Act :=
  match l with
  | .start => .go (s.push bringupSteps)
  | .step e code =>
    .go ((s.setDp fun d => { d with attempt := 1 }).push [.catalog (.call e), .bringup (.stepTest e code)])
  | .stepTest e code =>
    if s.dp.ok then .go s
    else if s.dp.attempt < cmdAttempts then
      .go ((s.setDp fun d => { d with attempt := d.attempt + 1 }).push
        [.catalog (.call e), .bringup (.stepTest e code)])
    else .go (s.push [.halt (.raise { code := code, attempt := some (attemptNo cmdAttempts) })])
  | .diagTest => if s.dp.ok then .go s else .go (s.emit (.diag .cmd59Unsupported))
  | .capDefault => .go { s with cap := .standard }
  | .probe =>
    if s.cfg.ocrProbe then .go (s.push [.bringup (.step .cmd58 .initCmd58), .bringup .capFromOcr])
    else .go s
  | .capFromOcr =>
    match s.ocr with
    | none => .stop .ocrNoValue
    | some v => .go { s with cap := capacityOf v }
  | .blockLen =>
    if s.cap = .standard then .go (s.push [.bringup (.step .cmd16 .initCmd16)]) else .go s
  | .finish => .go { s with ready := true, phase := .ready }

/-- The lines of a fatal exit: every raise site of a poll or a block sets chip-select to AUTO first (R152,
R229, R300). -/
def HaltLine.act (l : HaltLine) (s : State) : Act :=
  match l with
  | .abort r => .go ((s.setCs .auto).push [.halt (.raise r)])
  | .raise r => .go (s.raiseFatal r)

end Sys2Proof.Machine
end

