-- ==== Sys2Proof/Machine/Block.lean ====
section
/-!
DEFINITION. The lines of the data token framer, the CRC validator and the polls of a data phase
(spec/44_block_transfer.md, rules R220 to R224, R232, R233).
-/

namespace Sys2Proof.Machine

/-- The lines of `WRITE_DATA_BLOCK` (R221), `TOKEN_POLL` (R222), `READ_DATA_BLOCK` (R223), `DRESP_POLL`
(R224), `WAIT_NOT_BUSY` (R232), `DELAY` (R233) and the single primitives of the transfers. -/
def BlockLine.act (l : BlockLine) (s : State) : Act :=
  match l with
  | .hold => .go (s.setCs .hold)
  | .auto => .go (s.setCs .auto)
  | .filler => .exchange fillerByte fun _ => s
  | .receive => .recv fun b => s.setDp fun d => { d with data := b }
  | .stopToken => .exchange stopTokenByte fun _ => s
  | .delay => .go s
  | .tokenStart => .go ((s.setDp fun d => { d with poll := 0 }).push [.block .tokenPoll])
  | .tokenPoll =>
    if s.dp.poll < s.cfg.tokenPollMax then
      .recv fun b =>
        let s1 := s.setDp fun d => { d with poll := d.poll + 1 }
        if b = startToken then s1.result true else s1.push [.block .tokenPoll]
    else .go (s.result false)
  | .readStart => .go ((s.setDp fun d => { d with j := 0, crc16acc := 0 }).push [.block .readByte])
  | .readByte =>
    .recv fun b =>
      (s.setDp fun d => { d with data := b, crc16acc := crc16Byte d.crc16acc b }).push [.block .storeByte]
  | .storeByte =>
    match s.bufWrite s.blockOffset s.dp.data with
    | none => .stop .bufferRange
    | some s1 =>
      .go ((s1.setDp fun d => { d with j := d.j + 1 }).push
        (if s.dp.j + 1 < blockBytes then [.block .readByte]
         else [.block .crcHi, .block .crcLo, .block .crcTest]))
  | .crcHi => .recv fun b => s.setDp fun d => { d with crcRx := b ++ 0#8 }
  | .crcLo => .recv fun b => s.setDp fun d => { d with crcRx := d.crcRx ||| b.zeroExtend 16 }
  | .crcTest => .go (s.result (s.dp.crc16acc == s.dp.crcRx))
  | .writeToken tok =>
    .exchange tok fun _ => (s.setDp fun d => { d with j := 0 }).push [.block .fetchByte]
  | .fetchByte =>
    match s.bufRead s.blockOffset with
    | none => .stop .bufferRange
    | some b => .go ((s.setDp fun d => { d with data := b }).push [.block .sendByte])
  | .sendByte =>
    .exchange s.dp.data fun _ =>
      (s.setDp fun d => { d with j := d.j + 1 }).push
        (if s.dp.j + 1 < blockBytes then [.block .fetchByte] else [.block .filler, .block .filler])
  | .drespStart idx => .go ((s.setDp fun d => { d with poll := 0 }).push [.block (.dresp idx)])
  | .dresp idx =>
    if s.dp.poll < s.cfg.drespPollMax then
      .recv fun b =>
        let s1 := s.setDp fun d => { d with poll := d.poll + 1 }
        if b = 0xFF then s1.push [.block (.dresp idx)]
        else if dataAccepted b then s1
        else s1.push
          [.halt (.abort { code := .writeRejected, cmd := some idx, unit := some s.dp.k, byte := some b })]
    else
      .go (s.push [.halt (.abort { code := .writeRespTimeout, cmd := some idx, unit := some s.dp.k })])
  | .busyStart idx => .go ((s.setDp fun d => { d with poll := 0 }).push [.block (.busy idx)])
  | .busy idx =>
    if busyExhausted s.cfg s.dp.poll then
      .go (s.push [.halt (.abort { code := .busyTimeout, cmd := some idx })])
    else
      .recv fun b =>
        let s1 := s.setDp fun d => { d with poll := d.poll + 1 }
        if isNotBusy b then s1 else s1.push [.block (.busy idx)]

end Sys2Proof.Machine
end

