-- ==== Sys2Proof/Machine/Transfer.lean ====
section
/-!
DEFINITION. The lines of the four transfer procedures (spec/44_block_transfer.md, rules R225 to R231) and of
the façade while the guard is held (spec/45_disk_facade.md, rules R263 and R266).
-/

namespace Sys2Proof.Machine

/-- The record of a fault in command `cmd` with the attempt number. -/
def faultAtAttempt (code : FaultCode) (cmd : CmdIndex) (s : State) : FaultRecord :=
  { code := code, cmd := some cmd, attempt := some (attemptNo s.dp.attempt) }

/-- The record of a fault in command `cmd` at sector `k`. -/
def faultAtUnit (code : FaultCode) (cmd : CmdIndex) (s : State) : FaultRecord :=
  { code := code, cmd := some cmd, unit := some s.dp.k }

/-- The lines of `SINGLE_READ` (R225), `MULTI_READ` (R226), `SINGLE_WRITE` (R227) and `MULTI_WRITE`
(R228). -/
def TransferLine.act (l : TransferLine) (s : State) : Act :=
  match l with
  | .singleRead a =>
    .go ((s.setDp fun d => { d with attempt := 1, k := 0 }).push [.transfer (.sreadTry a)])
  | .sreadTry a => .go (s.push [.catalog (.call (.cmd17 a)), .transfer (.sreadCmd a)])
  | .sreadCmd a =>
    if s.dp.ok then .go (s.push [.block .hold, .block .tokenStart, .transfer (.sreadToken a)])
    else .go (s.push [.halt (.raise (faultAtAttempt .sreadCmd 17 s))])
  | .sreadToken a =>
    if s.dp.ok then .go (s.push [.block .readStart, .transfer (.sreadCrc a)])
    else .go (s.push [.block .auto, .transfer (.sreadNext a .sreadToken)])
  | .sreadCrc a =>
    if s.dp.ok then .go (s.push [.block .auto])
    else .go (s.push [.block .auto, .transfer (.sreadNext a .sreadCrc)])
  | .sreadNext a code =>
    if s.dp.attempt < sreadAttempts then
      .go ((s.setDp fun d => { d with attempt := d.attempt + 1 }).push [.transfer (.sreadTry a)])
    else .go (s.push [.halt (.raise (faultAtAttempt code 17 s))])
  | .multiRead a n => .go (s.push [.catalog (.call (.cmd18 a)), .transfer (.mreadCmd n)])
  | .mreadCmd n =>
    if s.dp.ok then
      .go ((s.setDp fun d => { d with k := 0 }).push
        [.block .hold, .block .filler, .transfer (.mreadLoop n)])
    else .go (s.push [.halt (.raise { code := .mreadCmd, cmd := some 18 })])
  | .mreadLoop n =>
    if s.dp.k.toNat < n.toNat then .go (s.push [.block .tokenStart, .transfer (.mreadToken n)])
    else .go (s.push [.catalog (.call .cmd12), .block (.busyStart 12), .block .auto])
  | .mreadToken n =>
    if s.dp.ok then .go (s.push [.block .readStart, .transfer (.mreadCrc n)])
    else .go (s.push [.halt (.abort (faultAtUnit .mreadToken 18 s))])
  | .mreadCrc n =>
    if s.dp.ok then .go (s.push [.block .filler, .transfer (.mreadNext n)])
    else .go (s.push [.halt (.abort (faultAtUnit .mreadCrc 18 s))])
  | .mreadNext n => .go ((s.setDp fun d => { d with k := d.k + 1 }).push [.transfer (.mreadLoop n)])
  | .singleWrite a =>
    .go ((s.setDp fun d => { d with attempt := 1, k := 0 }).push [.transfer (.swriteTry a)])
  | .swriteTry a => .go (s.push [.catalog (.call (.cmd24 a)), .transfer (.swriteCmd a)])
  | .swriteCmd a =>
    if s.dp.ok then
      .go (s.push [.block .hold, .block (.writeToken startToken), .block (.drespStart 24),
        .block (.busyStart 24), .block .auto])
    else if s.dp.attempt < s.cfg.swriteCmdAttempts then
      .go ((s.setDp fun d => { d with attempt := d.attempt + 1 }).push [.transfer (.swriteTry a)])
    else .go (s.push [.halt (.raise (faultAtAttempt .swriteCmd 24 s))])
  | .multiWrite a n => .go (s.push [.catalog (.call (.cmd25 a)), .transfer (.mwriteCmd n)])
  | .mwriteCmd n =>
    if s.dp.ok then
      .go ((s.setDp fun d => { d with k := 0 }).push
        [.block .hold, .block .filler, .transfer (.mwriteLoop n)])
    else .go (s.push [.halt (.raise { code := .mwriteCmd, cmd := some 25 })])
  | .mwriteLoop n =>
    if s.dp.k.toNat < n.toNat then
      .go (s.push [.block .delay, .block (.writeToken multiStartToken), .block (.drespStart 25),
        .block (.busyStart 25), .transfer (.mwriteNext n)])
    else .go (s.push [.block .stopToken, .block (.busyStart 25), .block .auto])
  | .mwriteNext n => .go ((s.setDp fun d => { d with k := d.k + 1 }).push [.transfer (.mwriteLoop n)])

/-- The procedure a request is dispatched to (R263): the test is exactly `sector_count == 1`. -/
def dispatchLine (op : Byte) (count a : Word) : Line :=
  if op = opRead then
    if count = 1 then .transfer (.singleRead a) else .transfer (.multiRead a count)
  else if count = 1 then .transfer (.singleWrite a)
  else .transfer (.multiWrite a count)

/-- `SERVE` (R263) and `RELEASE` (R266). `SERVE` writes the address that the grant has latched once more (DEDUCED, log entry
12). -/
def HostLine.act (l : HostLine) (s : State) : Act :=
  match l with
  | .serve =>
    let a := cardAddr s.cfg s.cap s.req.sector
    .go ({ s with req := { s.req with addr := a } }.push [dispatchLine s.req.op s.req.count a])
  | .release =>
    .go (({ s with guard := none, pending := s.pending.set s.req.host none, phase := .ready }.emit
      (.release s.req.host)).emit (.done s.req.host s.req.op))

end Sys2Proof.Machine
end

