-- ==== Sys2Proof/Machine/Sequencer.lean ====
section
/-!
DEFINITION. The sequencer (rules R9, R21): one step of the core (`tick`), the arbiter's grant (R265), and the
performance of one operation as a unit (R3), which is a run of such steps.
-/

namespace Sys2Proof.Machine

/-- What the line does, given the state with the line taken off `st.seq`. -/
def Line.act (l : Line) (s : State) : Act :=
  match l with
  | .framer l => l.act s
  | .decoder l => l.act s
  | .catalog l => l.act s
  | .bringup l => l.act s
  | .block l => l.act s
  | .transfer l => l.act s
  | .host l => l.act s
  | .halt l => l.act s

/-! ### The arbiter -/

/-- The hosts from `h` on that have a request pending (R32). -/
def waitingFrom : Nat → List (Option Request) → List Nat
  | _, [] => []
  | h, none :: rest => waitingFrom (h + 1) rest
  | h, some _ :: rest => h :: waitingFrom (h + 1) rest

/-- The hosts that wait for the guard. -/
def State.waiting (s : State) : List Nat := waitingFrom 0 s.pending

/-- `GRANT(h)` (R265): the guard, the request registers (R260) and the phase are written, the event is
emitted, and `SERVE` comes next, then the release. -/
def State.grant (h : Nat) (r : Request) (s : State) : State :=
  ({ s with
      guard := some h
      req := { host := h, op := r.op, sector := r.sector, count := r.count, buf := r.buf,
               addr := cardAddr s.cfg s.cap r.sector }
      phase := .busy }.emit (.grant h)).push [.host .serve, .host .release]

/-- Grant the guard to host `h` if a request of its is pending. -/
def State.grantTo (h : Nat) (s : State) : State :=
  match s.pendingOf h with
  | none => s
  | some r => s.grant h r

/-- The arbiter (R265): where the phase is READY and the guard free, one waiting host is granted. Which one,
where several wait, is free (R268, log entry 3). With none waiting the core idles (R352). -/
def State.arbitrate (s : State) : State :=
  if s.phase = .ready ∧ s.guard = none then
    match s.waiting with
    | [] => s
    | [h] => s.grantTo h
    | h :: h' :: rest =>
      let hs := h :: h' :: rest
      { s with arbTurn := s.arbTurn + 1 }.grantTo
        (hs.getD (Config.arbiterChoice s.arbTurn % hs.length) h)
  else s

/-! ### One step of the core -/

/-- One step of the core (R9). HALTED: no step is enabled (R303). RESET: the step is the release (R340).
Otherwise the current line is performed; with no line to perform the arbiter acts. -/
def tick (s : State) : Host.Outcome State Fault Refusal :=
  match s.phase with
  | .halted => .fault .halted
  | .reset => .next s.releaseReset
  | .bringup | .ready | .busy =>
    match s.seq with
    | [] => .next s.arbitrate
    | l :: rest => (l.act { s with seq := rest }).perform s

/-! ### One operation as a unit -/

/-- The operation whose lines stand above the last `depth` lines of `st.seq` is over: it has returned to its
caller, or the core has halted. -/
def State.unitOver (depth : Nat) (s : State) : Bool :=
  decide (s.seq.length ≤ depth) || decide (s.phase = .halted)

/-- At most `fuel` steps of the core, ending where the operation is over. -/
def runUnit : Nat → Nat → State → Host.Outcome State Fault Refusal
  | 0, _, s => .next s
  | fuel + 1, depth, s =>
    if s.unitOver depth then .next s
    else
      match tick s with
      | .next s' => runUnit fuel depth s'
      | .fault f => .fault f
      | .refused r => .refused r

/-- Steps enough for an operation to end, halt, or stand at an exchange for which the transport delivers no
byte (log entry 5): between two exchanges a procedure makes fewer than 64 steps. -/
def unitFuel (s : State) : Nat := 64 * (s.rx.length + 1)

/-- Perform the procedure that `ls` enters, as a unit (R3). It ends where the procedure returns or halts; where
the transport delivers too few bytes the state is the one in which the core waits (R144), and later steps go
on from there. In HALTED and in RESET no step is enabled (R303, R340). -/
def State.perform (ls : List Line) (s : State) : Host.Outcome State Fault Refusal :=
  match s.phase with
  | .halted => .fault .halted
  | .reset => .fault .inReset
  | .bringup | .ready | .busy => runUnit (unitFuel s) s.seq.length (s.push ls)

/-- The transport delivers byte `b` next (R10): how an operation that is a received byte reaches the core. -/
def State.arrive (b : Byte) (s : State) : State := { s with rx := b :: s.rx }

end Sys2Proof.Machine
end

