-- ==== Sys2Proof/Machine/Catalog.lean ====
section
/-!
DEFINITION. The meanings of the twelve command rows (spec/42_command_catalog.md): each performs its catalog
entry as a unit, frame, response and acceptance test.
-/

namespace Sys2Proof.Machine

/-- `CMD0()` (R172). -/
def execCmd0 (s : State) : Host.Outcome State Fault Refusal := s.perform [.catalog (.call .cmd0)]

/-- `CMD8()` (R173). -/
def execCmd8 (s : State) : Host.Outcome State Fault Refusal := s.perform [.catalog (.call .cmd8)]

/-- `CMD12()` (R174). -/
def execCmd12 (s : State) : Host.Outcome State Fault Refusal := s.perform [.catalog (.call .cmd12)]

/-- `CMD16()` (R175). -/
def execCmd16 (s : State) : Host.Outcome State Fault Refusal := s.perform [.catalog (.call .cmd16)]

/-- `CMD17(a)` (R176). -/
def execCmd17 (a : Word) (s : State) : Host.Outcome State Fault Refusal :=
  s.perform [.catalog (.call (.cmd17 a))]

/-- `CMD18(a)` (R177). -/
def execCmd18 (a : Word) (s : State) : Host.Outcome State Fault Refusal :=
  s.perform [.catalog (.call (.cmd18 a))]

/-- `CMD24(a)` (R178). -/
def execCmd24 (a : Word) (s : State) : Host.Outcome State Fault Refusal :=
  s.perform [.catalog (.call (.cmd24 a))]

/-- `CMD25(a)` (R179). -/
def execCmd25 (a : Word) (s : State) : Host.Outcome State Fault Refusal :=
  s.perform [.catalog (.call (.cmd25 a))]

/-- `CMD55()` (R180). -/
def execCmd55 (s : State) : Host.Outcome State Fault Refusal := s.perform [.catalog (.call .cmd55)]

/-- `ACMD41()` (R181): CMD55 and then, only if that returned OK, CMD41. -/
def execAcmd41 (s : State) : Host.Outcome State Fault Refusal := s.perform [.catalog (.call .acmd41)]

/-- `CMD58()` (R182). -/
def execCmd58 (s : State) : Host.Outcome State Fault Refusal := s.perform [.catalog (.call .cmd58)]

/-- `CMD59()` (R183). -/
def execCmd59 (s : State) : Host.Outcome State Fault Refusal := s.perform [.catalog (.call .cmd59)]

end Sys2Proof.Machine
end

