-- ==== Sys2Proof/Machine/Facade.lean ====
section
/-!
DEFINITION. The host request port (spec/45_disk_facade.md): submitting (R264), a host's own memory writes (R80),
and the meanings of the two request rows, which submit the request (R264) and serve it (R263).
-/

namespace Sys2Proof.Machine

/-- `SUBMIT(h, r)` (R264). It is enabled only where host `h` exists and has no request pending and `r` is
admitted; where it is not, nothing changes (R261: "refused"). -/
def State.submit (h : Nat) (r : Request) (s : State) : State :=
  if h < s.pending.length ∧ s.pendingOf h = none ∧ s.admits r = true then
    { s with pending := s.pending.set h (some r) }
  else s

/-- A host writes a byte of its memory. "A model admits no host step that touches a pending request's buffer"
(R80): there nothing changes. -/
def State.hostWrite (a : Nat) (b : Byte) (s : State) : State :=
  if s.inPendingBuffer a then s else { s with mem := s.mem.write a b }

/-- The request of a word. The buffer is "passed by reference (not part of the word)" (R102): it begins where the
request port says, and its length is the one the request must have (R261). Log entry 22. -/
def State.wordRequest (op : Byte) (sector count : Word) (s : State) : Request where
  op := op
  sector := sector
  count := count
  buf := ⟨s.port.base, blockBytes * count.toNat⟩

/-- The word is the granted request: the host at the port holds the guard, and the registers latched at its grant
(R260) hold the word's operation, sector and count. Log entry 22. -/
abbrev State.isGranted (op : Byte) (sector count : Word) (s : State) : Prop :=
  s.guard = some s.port.host ∧ s.req.op = op ∧ s.req.sector = sector ∧ s.req.count = count

/-- The arbiter, where it is enabled, grants a waiting host (R265), and the core steps until that request is released
(R266) or halts. -/
def State.runGrant (s : State) : Host.Outcome State Fault Refusal :=
  runUnit (unitFuel s + 1) s.seq.length s.arbitrate

/-- A request word that is not the granted request: the host at the port submits it (R264), in every phase. In READY
the arbiter acts at once, and where it grants a request that one's service is run; in every other phase, and while
another host holds the guard, the word's request waits (R265, R271). A host that has a request pending is blocked in its
call, so that nothing happens (R32); nor does anything for a host that does not exist. Log entry 22. -/
def State.requestWord (op : Byte) (sector count : Word) (s : State) : Host.Outcome State Fault Refusal :=
  if s.port.host < s.pending.length ∧ s.pendingOf s.port.host = none then
    let submitted := s.submit s.port.host (s.wordRequest op sector count)
    if s.phase = .ready then submitted.runGrant else .next submitted
  else .next s

/-- A request word. The granted request is served, `SERVE(req)` of the latched registers (R263); any other is submitted
by its host first (R264). A request that is not admitted has no meaning (R261). Log entry 22. -/
def State.request (op : Byte) (sector count : Word) (s : State) : Host.Outcome State Fault Refusal :=
  if s.isGranted op sector count then
    if s.admits { op := op, sector := sector, count := count, buf := s.req.buf } then s.perform [.host .serve]
    else .refused .notAdmitted
  else if s.admits (s.wordRequest op sector count) then s.requestWord op sector count
  else .refused .notAdmitted

/-- `READ(sector, count)` (R263, R264, R225, R226). -/
def execReadReq (sector count : Word) (s : State) : Host.Outcome State Fault Refusal :=
  s.request opRead sector count

/-- `WRITE(sector, count)` (R263, R264, R227, R228). -/
def execWriteReq (sector count : Word) (s : State) : Host.Outcome State Fault Refusal :=
  s.request opWrite sector count

end Sys2Proof.Machine
end

