-- ==== Sys2Proof/Machine/Startup.lean ====
section
/-!
DEFINITION. The meanings of the bring-up row (spec/43_bringup.md) and of the two checksum rows
(spec/40_checksum.md).
-/

namespace Sys2Proof.Machine

/-- Bring-up may start here: reset is being released, or has just been (R340). -/
def State.atBringupStart (s : State) : Bool :=
  decide (s.phase = .reset) ||
  (decide (s.phase = .bringup) && (decide (s.seq = []) || decide (s.seq = [.bringup .start])))

/-- `BRINGUP()` (R200), started by the release of reset (R340). "The core has no operation that re-runs
bring-up" (R343). -/
def execBringup (s : State) : Host.Outcome State Fault Refusal :=
  if s.phase = .halted then .fault .halted
  else if s.atBringupStart then { s with phase := .bringup, seq := [] }.perform [.bringup .start]
  else .refused .bringupOnlyFromReset

/-- A checksum unit computes: no event, and nothing written but its accumulator (R129). -/
def State.compute (f : Datapath → Datapath) (s : State) : Host.Outcome State Fault Refusal :=
  match s.phase with
  | .halted => .fault .halted
  | .reset => .fault .inReset
  | .bringup | .ready | .busy => .next (s.setDp f)

/-- `CRC7(m)` (R120) into `crc7acc`. -/
def execCrc7 (m : List Byte) (s : State) : Host.Outcome State Fault Refusal :=
  s.compute fun d => { d with crc7acc := crc7 m }

/-- `CRC16(m)` (R125) into `crc16acc`. -/
def execCrc16 (m : List Byte) (s : State) : Host.Outcome State Fault Refusal :=
  s.compute fun d => { d with crc16acc := crc16 m }

end Sys2Proof.Machine
end

