-- ==== Sys2Proof/Decode.lean ====
section
/-!
DEFINITION. Decoding: total on any bytes in any context, rejecting by name (rules R90 to R106 of
spec/30_encoding.md), then the encoder written from the same tables, then the numbering of
spec/opcode_table.json.
-/

namespace Sys2Proof

/-! ### Byte-order helpers -/

/-- The four bytes of a 32-bit field, big-endian (R63, R92). -/
def wordBytesBE (w : Word) : List Byte :=
  [w.extractLsb' 24 8, w.extractLsb' 16 8, w.extractLsb' 8 8, w.extractLsb' 0 8]

/-- A 32-bit field from its four bytes, the first in bits 31:24. -/
def wordOfBytesBE (b3 b2 b1 b0 : Byte) : Word := b3 ++ b2 ++ b1 ++ b0

/-- An R1 or R7 lead byte: top two bits zero (R94, R96). -/
def r1LeadByte (v : BitVec 6) : Byte := 0b00#2 ++ v

/-- An R3 lead byte: top two bits zero, idle bit set (R95). -/
def r3LeadByte (v : BitVec 5) : Byte := 0b00#2 ++ v ++ 1#1

/-- A data response "accepted": low nibble 0b0101 (R100). -/
def dataRespByte (ignored : BitVec 4) : Byte := ignored ++ 0b0101#4

/-! ### Decoder -/

/-- A command that is fixed to one argument (R103). -/
def fixedArg (arg want : Word) (i : Instr) : Except Reject Instr :=
  if arg = want then .ok i else .error .argument

/-- The command with an index and an argument (R103); every other index is reserved (R104). -/
def decodeCommand (idx : CmdIndex) (arg : Word) : Except Reject Instr :=
  if idx = 0 then fixedArg arg 0x00000000 .cmd0
  else if idx = 8 then fixedArg arg 0x000001AA .cmd8
  else if idx = 12 then fixedArg arg 0x00000000 .cmd12
  else if idx = 16 then fixedArg arg 0x00000200 .cmd16
  else if idx = 17 then .ok (.cmd17 arg)
  else if idx = 18 then .ok (.cmd18 arg)
  else if idx = 24 then .ok (.cmd24 arg)
  else if idx = 25 then .ok (.cmd25 arg)
  else if idx = 41 then fixedArg arg 0x40000000 .acmd41
  else if idx = 55 then fixedArg arg 0x00000000 .cmd55
  else if idx = 58 then fixedArg arg 0x00000000 .cmd58
  else if idx = 59 then fixedArg arg 0x00000001 .cmd59
  else .error .reservedIndex

/-- A command frame (R91 to R93). -/
def decodeFrame : List Byte → Except Reject Instr
  | [f0, f1, f2, f3, f4, f5] =>
    if f0.extractLsb' 6 2 ≠ 0b01#2 then .error .startBits
    else if f5.extractLsb' 0 1 ≠ 1#1 then .error .endBit
    else if f5.extractLsb' 1 7 ≠ crc7 [f0, f1, f2, f3, f4] then .error .crc7Mismatch
    else decodeCommand (f0.extractLsb' 0 6) (wordOfBytesBE f1 f2 f3 f4)
  | _ => .error .length

/-- A host request word: op, starting sector, sector count (R102). -/
def decodeRequest : List Byte → Except Reject Instr
  | [op, s3, s2, s1, s0, n3, n2, n1, n0] =>
    if op = opRead then .ok (.readReq (wordOfBytesBE s3 s2 s1 s0) (wordOfBytesBE n3 n2 n1 n0))
    else if op = opWrite then .ok (.writeReq (wordOfBytesBE s3 s2 s1 s0) (wordOfBytesBE n3 n2 n1 n0))
    else .error .hostOp
  | _ => .error .length

/-- One byte, in a context of one byte. The three lead rows keep the table's masks and targets, the defaults of R94
to R96, whatever the parameters of R12 are: the model's choice (log entry 6). The core's own poll uses the
parameters. A byte that is no row of the table in its context, one that the poll in progress skips or judges or that the
procedure never sends, is no instruction: a DESIGN CHOICE (log entry 25), since R104 says "A received byte has no illegal
value". Where the transport delivers such a byte, the poll itself skips or judges it. -/
def decodeByte (ctx : Ctx) (b : Byte) : Except Reject Instr :=
  match ctx with
  | .leadR1 => if b.extractLsb' 6 2 = 0b00#2 then .ok (.r1Lead (b.extractLsb' 0 6)) else .error .otherByte
  | .leadR7 => if b.extractLsb' 6 2 = 0b00#2 then .ok (.r7Lead (b.extractLsb' 0 6)) else .error .otherByte
  | .leadR3 =>
    if b.extractLsb' 6 2 = 0b00#2 ∧ b.extractLsb' 0 1 = 1#1 then .ok (.r3Lead (b.extractLsb' 1 5))
    else .error .otherByte
  | .tokenPoll => if b = startToken then .ok .startTokenRead else .error .otherByte
  | .dataResp =>
    if b.extractLsb' 0 4 = 0b0101#4 then .ok (.dataRespAccepted (b.extractLsb' 4 4)) else .error .otherByte
  | .busyPoll => if b = 0xFF then .ok .notBusy else .error .otherByte
  | .singleBlock => if b = startToken then .ok .startTokenSingleWrite else .error .otherByte
  | .multiBlock => if b = multiStartToken then .ok .startTokenMultiWrite else .error .otherByte
  | .streamEnd => if b = stopTokenByte then .ok .stopTokenMultiWrite else .error .otherByte
  | .clocking => if b = fillerByte then .ok .filler else .error .otherByte
  | .frame | .requestPort | .resetRelease | .crc7Unit | .crc16Unit => .error .length

/-- The decoder: the instruction the bytes stand for in a context, or why they stand for none. -/
def decodeIn (ctx : Ctx) (bytes : List Byte) : Except Reject Instr :=
  match ctx with
  | .frame => decodeFrame bytes
  | .requestPort => decodeRequest bytes
  | .resetRelease => if bytes = [] then .ok .bringup else .error .length
  | .crc7Unit => if bytes.length = crc7InputLen then .ok (.crc7 bytes) else .error .length
  | .crc16Unit => if bytes.length = crc16InputLen then .ok (.crc16 bytes) else .error .length
  | .leadR1 | .leadR7 | .leadR3 | .tokenPoll | .dataResp | .busyPoll | .singleBlock | .multiBlock
  | .streamEnd | .clocking =>
    match bytes with
    | [b] => decodeByte ctx b
    | _ => .error .length

/-! ### Encoder -/

/-- The frame of a command (R91 to R93), with the CRC7 of its own first five bytes. -/
def encodeFrame (idx : CmdIndex) (arg : Word) : List Byte :=
  let head := frameHead idx arg
  head ++ [frameTail (crc7 head)]

/-- The context an instruction's bytes stand in (R106). -/
def Instr.ctx : Instr → Ctx
  | .cmd0 | .cmd8 | .cmd12 | .cmd16 | .cmd17 _ | .cmd18 _ | .cmd24 _ | .cmd25 _ | .cmd55 | .acmd41
  | .cmd58 | .cmd59 => .frame
  | .startTokenRead => .tokenPoll
  | .startTokenSingleWrite => .singleBlock
  | .startTokenMultiWrite => .multiBlock
  | .stopTokenMultiWrite => .streamEnd
  | .dataRespAccepted _ => .dataResp
  | .notBusy => .busyPoll
  | .filler => .clocking
  | .r1Lead _ => .leadR1
  | .r7Lead _ => .leadR7
  | .r3Lead _ => .leadR3
  | .readReq _ _ | .writeReq _ _ => .requestPort
  | .bringup => .resetRelease
  | .crc7 _ => .crc7Unit
  | .crc16 _ => .crc16Unit

/-- The bytes of an instruction, in wire order. Bring-up has none, and the two checksum units have their
input in the place of an encoding (spec/opcode_table.json: "no encoding"; log entry 6). -/
def encode : Instr → List Byte
  | .cmd0 => encodeFrame 0 0x00000000
  | .cmd8 => encodeFrame 8 0x000001AA
  | .cmd12 => encodeFrame 12 0x00000000
  | .cmd16 => encodeFrame 16 0x00000200
  | .cmd17 a => encodeFrame 17 a
  | .cmd18 a => encodeFrame 18 a
  | .cmd24 a => encodeFrame 24 a
  | .cmd25 a => encodeFrame 25 a
  | .cmd55 => encodeFrame 55 0x00000000
  | .acmd41 => encodeFrame 41 0x40000000
  | .cmd58 => encodeFrame 58 0x00000000
  | .cmd59 => encodeFrame 59 0x00000001
  | .startTokenRead => [startToken]
  | .startTokenSingleWrite => [startToken]
  | .startTokenMultiWrite => [multiStartToken]
  | .stopTokenMultiWrite => [stopTokenByte]
  | .dataRespAccepted ignored => [dataRespByte ignored]
  | .notBusy => [0xFF]
  | .filler => [fillerByte]
  | .r1Lead v => [r1LeadByte v]
  | .r7Lead v => [r1LeadByte v]
  | .r3Lead v => [r3LeadByte v]
  | .readReq s n => [opRead] ++ wordBytesBE s ++ wordBytesBE n
  | .writeReq s n => [opWrite] ++ wordBytesBE s ++ wordBytesBE n
  | .bringup => []
  | .crc7 m => m
  | .crc16 m => m

/-! ### The numbering of spec/opcode_table.json -/

/-- The `n` bytes of a number, the most significant first: the table writes bit 47 (or 71) as the first bit
on the wire (R91, spec/30_encoding.md's opening). -/
def bytesOfNat : Nat → Nat → List Byte
  | 0, _ => []
  | n + 1, w => BitVec.ofNat 8 (w >>> (8 * n)) :: bytesOfNat n w

/-- The context a lone byte is read in where none is given (log entry 6): the row that fixes most of its
bits. A byte that is both of two rows' (0xFE, 0xFF, a lead byte of R1 and R7) is read as the received one, or
as R1's. -/
def loneByteCtx (b : Byte) : Ctx :=
  if b = startToken then .tokenPoll
  else if b = multiStartToken then .multiBlock
  else if b = stopTokenByte then .streamEnd
  else if b.extractLsb' 0 4 = 0b0101#4 then .dataResp
  else if b.extractLsb' 6 2 = 0b00#2 ∧ b.extractLsb' 0 1 = 1#1 then .leadR3
  else if b.extractLsb' 6 2 = 0b00#2 then .leadR1
  else .busyPoll

/-- The context of a table word, told by its length alone (R106 tells it by what the core is doing). -/
def tableCtx (nbits w : Nat) : Ctx :=
  if nbits = 8 then loneByteCtx (BitVec.ofNat 8 w)
  else if nbits = 72 then .requestPort
  else if nbits = 0 then .resetRelease
  else if nbits = 8 * crc7InputLen then .crc7Unit
  else if nbits = 8 * crc16InputLen then .crc16Unit
  else .frame

/-- The frame with the CRC7 bits of its own first five bytes, in the four rows whose CRC7 bits the table leaves
open (`c`): they are no operand, but computed (R93; log entry 6). Its end bit stays. -/
def completeFrame : List Byte → List Byte
  | [f0, f1, f2, f3, f4, f5] =>
    if f0 ∈ ([0x51, 0x52, 0x58, 0x59] : List Byte) then
      [f0, f1, f2, f3, f4, crc7 [f0, f1, f2, f3, f4] ++ f5.extractLsb' 0 1]
    else [f0, f1, f2, f3, f4, f5]
  | bytes => bytes

/-- The bytes of a table word. -/
def tableBytes (nbits w : Nat) : List Byte := completeFrame (bytesOfNat (nbits / 8) w)

/-- The instruction the decoder reads from a word of the table. -/
def decodeTableWord (nbits w : Nat) : Option Instr :=
  match decodeIn (tableCtx nbits w) (tableBytes nbits w) with
  | .ok i => some i
  | .error _ => none

end Sys2Proof
end

