-- ==== Sys2Proof/Machine/Tokens.lean ====
section
/-!
DEFINITION. The meanings of the token, response and filler rows. A row that is RECEIVED means that its byte
arrives next on the transport while the procedure that recognises it runs from its start (log entry 7); a row
that is SENT means that its procedure sends it.
-/

namespace Sys2Proof.Machine

/-- The start token 0xFE arrives in `TOKEN_POLL` (R222). -/
def execStartTokenRead (s : State) : Host.Outcome State Fault Refusal :=
  (s.arrive startToken).perform [.block .tokenStart]

/-- `WRITE_DATA_BLOCK(0xFE, 0)` (R221, R227): token, payload of sector 0, two fillers. -/
def execStartTokenSingleWrite (s : State) : Host.Outcome State Fault Refusal :=
  (s.setDp fun d => { d with k := 0 }).perform [.block (.writeToken startToken)]

/-- `WRITE_DATA_BLOCK(0xFC, k)` (R221, R228): token, payload of sector k, two fillers. -/
def execStartTokenMultiWrite (s : State) : Host.Outcome State Fault Refusal :=
  s.perform [.block (.writeToken multiStartToken)]

/-- `SEND(0xFD)` (R99, R228): the stop token alone. -/
def execStopTokenMultiWrite (s : State) : Host.Outcome State Fault Refusal :=
  s.perform [.block .stopToken]

/-- A data response "accepted" arrives in `DRESP_POLL` (R224) of the command in effect. -/
def execDataRespAccepted (ignored : BitVec 4) (s : State) : Host.Outcome State Fault Refusal :=
  (s.arrive (dataRespByte ignored)).perform [.block (.drespStart s.cmdInEffect)]

/-- The not-busy byte arrives in `WAIT_NOT_BUSY` (R232) of the command in effect. -/
def execNotBusy (s : State) : Host.Outcome State Fault Refusal :=
  (s.arrive 0xFF).perform [.block (.busyStart s.cmdInEffect)]

/-- `RECV()` (R142): the filler is sent and the received byte is latched. -/
def execFiller (s : State) : Host.Outcome State Fault Refusal := s.perform [.block .receive]

/-- An R1 lead byte arrives in `DECODE_R1(idx, 0)` (R149) of the command in effect. -/
def execR1Lead (v : BitVec 6) (s : State) : Host.Outcome State Fault Refusal :=
  (s.arrive (r1LeadByte v)).perform [.decoder (.start (.r1 0) s.cmdInEffect)]

/-- An R7 lead byte arrives in `DECODE_R7(idx)` (R151) of the command in effect. -/
def execR7Lead (v : BitVec 6) (s : State) : Host.Outcome State Fault Refusal :=
  (s.arrive (r1LeadByte v)).perform [.decoder (.start .r7 s.cmdInEffect)]

/-- An R3 lead byte arrives in `DECODE_R3(idx)` (R150) of the command in effect. -/
def execR3Lead (v : BitVec 5) (s : State) : Host.Outcome State Fault Refusal :=
  (s.arrive (r3LeadByte v)).perform [.decoder (.start .r3 s.cmdInEffect)]

end Sys2Proof.Machine
end

