-- ==== Sys2Proof/Machine/Dispatch.lean ====
section
/-!
DEFINITION. One arm per constructor of Instr: the meaning of each instruction.
-/

namespace Sys2Proof.Machine

def exec (i : Instr) (s : State) : Host.Outcome State Fault Refusal :=
  match i with
  | .cmd0 => Sys2Proof.Machine.execCmd0 s
  | .cmd8 => Sys2Proof.Machine.execCmd8 s
  | .cmd12 => Sys2Proof.Machine.execCmd12 s
  | .cmd16 => Sys2Proof.Machine.execCmd16 s
  | .cmd17 a => Sys2Proof.Machine.execCmd17 a s
  | .cmd18 a => Sys2Proof.Machine.execCmd18 a s
  | .cmd24 a => Sys2Proof.Machine.execCmd24 a s
  | .cmd25 a => Sys2Proof.Machine.execCmd25 a s
  | .cmd55 => Sys2Proof.Machine.execCmd55 s
  | .acmd41 => Sys2Proof.Machine.execAcmd41 s
  | .cmd58 => Sys2Proof.Machine.execCmd58 s
  | .cmd59 => Sys2Proof.Machine.execCmd59 s
  | .startTokenRead => Sys2Proof.Machine.execStartTokenRead s
  | .startTokenSingleWrite => Sys2Proof.Machine.execStartTokenSingleWrite s
  | .startTokenMultiWrite => Sys2Proof.Machine.execStartTokenMultiWrite s
  | .stopTokenMultiWrite => Sys2Proof.Machine.execStopTokenMultiWrite s
  | .dataRespAccepted ignored => Sys2Proof.Machine.execDataRespAccepted ignored s
  | .notBusy => Sys2Proof.Machine.execNotBusy s
  | .filler => Sys2Proof.Machine.execFiller s
  | .r1Lead v => Sys2Proof.Machine.execR1Lead v s
  | .r7Lead v => Sys2Proof.Machine.execR7Lead v s
  | .r3Lead v => Sys2Proof.Machine.execR3Lead v s
  | .readReq sector count => Sys2Proof.Machine.execReadReq sector count s
  | .writeReq sector count => Sys2Proof.Machine.execWriteReq sector count s
  | .bringup => Sys2Proof.Machine.execBringup s
  | .crc7 m => Sys2Proof.Machine.execCrc7 m s
  | .crc16 m => Sys2Proof.Machine.execCrc16 m s

end Sys2Proof.Machine
end

