-- ==== Sys2Proof/Machine/Turn.lean ====
section
/-!
DEFINITION. One turn of the machine (rule R305): a host step, the reset input, or a step of the core; and how an
operation word is placed for the next turn.
-/

namespace Sys2Proof.Machine

/-- A step of the core. An operation word that has been placed is decoded and performed as a unit (log entry
5); otherwise the sequencer makes one step (R9). -/
def State.coreTurn (s : State) : Host.Outcome State Fault Refusal :=
  match s.phase, s.opWord with
  | .halted, _ => tick s
  | .reset, _ => tick s
  | _, none => tick s
  | _, some w =>
    match decodeIn w.ctx w.bytes with
    | .error r => .refused (.illegalWord r)
    | .ok i => exec i { s with opWord := none }

/-- One turn: the head of the schedule, or the core where the schedule is empty. In HALTED a turn of the core
passes without a step (R303), and host steps and reset still happen (R264, R340). -/
def State.turn (s : State) : Host.Outcome State Fault Refusal :=
  match s.inputs with
  | [] => s.coreTurn
  | .core :: rest =>
    if s.phase = .halted then .next { s with inputs := rest } else { s with inputs := rest }.coreTurn
  | .submit h r :: rest => .next ({ s with inputs := rest }.submit h r)
  | .hostWrite a b :: rest => .next ({ s with inputs := rest }.hostWrite a b)
  | .assertReset :: rest => .next { s with inputs := rest }.assertReset

/-- Place an operation word: reset is released, and no host step comes before the operation. -/
def State.placeWord (ctx : Ctx) (bytes : List Byte) (s : State) : State :=
  { s with
    phase := if s.phase = .reset then .bringup else s.phase
    inputs := []
    opWord := some ⟨ctx, bytes⟩ }

/-- What a request word needs besides (R265, R260): host 0's request is pending and granted, it is the one at the
request port, and its buffer has the length the request must have (R261). -/
def State.placeRequest (op : Byte) (sector count : Word) (s : State) : State :=
  let buf : Buffer := ⟨0, blockBytes * count.toNat⟩
  { s with
    phase := .busy
    ready := true
    guard := some 0
    pending := s.pending.set 0 (some { op := op, sector := sector, count := count, buf := buf })
    req := { host := 0, op := op, sector := sector, count := count, buf := buf,
             addr := cardAddr s.cfg s.cap sector }
    port := ⟨0, 0⟩
    seq := [.host .release] }

/-- What performing a decoded word needs besides the word itself. -/
def State.placeOperands (d : Except Reject Instr) (s : State) : State :=
  match d with
  | .ok (.readReq sector count) => s.placeRequest opRead sector count
  | .ok (.writeReq sector count) => s.placeRequest opWrite sector count
  | .ok .bringup => { s with seq := [] }
  | _ => s

/-- Place a word of the table with all that performing it takes. -/
def State.placeTableWord (nbits w : Nat) (s : State) : State :=
  (s.placeWord (tableCtx nbits w) (tableBytes nbits w)).placeOperands
    (decodeIn (tableCtx nbits w) (tableBytes nbits w))

end Sys2Proof.Machine
end

