-- ==== Sys2Proof/Machine/Step.lean ====
section
/-!
DEFINITION. One step of the machine, and how a word of the table is placed where the next step performs it.
-/

namespace Sys2Proof.Machine

/-- One step of the machine (R9, R305). -/
def step (s : State) : Host.Outcome State Fault Refusal := s.turn

/-- `s` with the operation of a table word placed for the very next step (log entry 5). -/
def State.withFetchWord (s : State) (nbits w : Nat) : State := s.placeTableWord nbits w

end Sys2Proof.Machine
end

