-- ==== Sys2Proof/Safety.lean ====
section
/-!
DEFINITION. What counts as a safe run, in the terms the claims use: the ends of a run (rule R352 of
spec/70_reset_and_hazards.md), the invariants of the state, the words for what an operation leaves unchanged,
and the words for the events of an operation.
-/

namespace Sys2Proof.Machine

/-! ### Ends of a run -/

/-- A phase in which the core can take a step (R303, R340). -/
abbrev State.running (s : State) : Prop := s.phase ≠ .reset ∧ s.phase ≠ .halted

/-- Quiescent (R352). -/
abbrev State.quiescent (s : State) : Prop :=
  s.phase = .ready ∧ s.guard = none ∧ ∀ p ∈ s.pending, p = none

/-- Faulted (R352): never a successful end. -/
abbrev State.faulted (s : State) : Prop := s.phase = .halted

/-- The premise "no fault recorded" of every claim about the core's results (R303, P-nofault of R353). -/
abbrev State.noFault (s : State) : Prop := s.fault = none

/-! ### Invariants -/

/-- The data invariant: memory is in canonical form; `st.block_len` is 512 (R24); `st.phase = HALTED` exactly
when `st.fault ≠ none` (R28); there is one pending entry a host (R32); the core never writes DISABLED (R26). -/
abbrev State.Inv (s : State) : Prop :=
  s.mem.wf ∧ s.blockLen = blockBytes ∧ (s.phase = .halted ↔ s.fault ≠ none) ∧
  s.pending.length = s.cfg.nHosts ∧ s.csMode ≠ .disabled

/-- Lines that may run in bring-up and in a transfer alike: frames, decoders, catalog, fatal exits. -/
def Line.shared : Line → Bool
  | .framer _ | .decoder _ | .catalog _ | .halt _ => true
  | .block _ | .bringup _ | .transfer _ | .host _ => false

/-- Lines that may stand above `BRINGUP`'s last line. -/
def Line.ofBringup (l : Line) : Bool :=
  l.shared ||
  match l with
  | .bringup .start | .bringup .finish => false
  | .bringup _ => true
  | _ => false

/-- Lines that may stand above the release of a granted request. -/
def Line.ofServe (l : Line) : Bool :=
  l.shared ||
  match l with
  | .block _ | .transfer _ | .host .serve => true
  | _ => false

/-- `ls` is lines that all pass `p`, then the line `last`. -/
def endsIn (p : Line → Bool) (last : Line) : List Line → Bool
  | [] => false
  | [l] => l == last
  | l :: rest => p l && endsIn p last rest

/-- The control invariant (R22, R25, R31, R265 to R267). Before READY nothing holds the guard and the core is
not ready; in READY it is ready, the guard is free and no procedure runs; in BUSY the guard is held by the
host whose request the registers hold, that request is pending, and the release is the last line to run. No
operation word is placed. -/
def State.Disciplined (s : State) : Prop :=
  s.opWord = none ∧
  match s.phase with
  | .reset => s.seq = [.bringup .start] ∧ s.guard = none ∧ s.ready = false
  | .bringup =>
    (s.seq = [.bringup .start] ∨ endsIn Line.ofBringup (.bringup .finish) s.seq = true) ∧
      s.guard = none ∧ s.ready = false
  | .ready => s.seq = [] ∧ s.guard = none ∧ s.ready = true
  | .busy =>
    endsIn Line.ofServe (.host .release) s.seq = true ∧ s.guard = some s.req.host ∧
      (s.pendingOf s.req.host).isSome = true ∧ s.ready = true
  | .halted => True

/-- The host that holds the guard according to the trace (newest event first): the last grant that no release
follows. -/
def holder : List Event → Option Nat
  | [] => none
  | .grant h :: _ => some h
  | .release _ :: _ => none
  | _ :: rest => holder rest

/-! ### Frames -/

/-- What no command, token or response changes: the parameters, the session (the OCR aside), the fault, the
requests and the guard, every byte of the hosts' memory, and what is still to come from outside except the
bytes received. -/
def State.SameOutside (s t : State) : Prop :=
  t.cfg = s.cfg ∧ t.phase = s.phase ∧ t.cap = s.cap ∧ t.blockLen = s.blockLen ∧ t.ready = s.ready ∧
  t.fault = s.fault ∧ t.req = s.req ∧ t.guard = s.guard ∧ t.pending = s.pending ∧
  (∀ a, t.mem.read a = s.mem.read a) ∧ t.inputs = s.inputs ∧ t.arbTurn = s.arbTurn ∧ t.opWord = s.opWord ∧
  t.port = s.port

/-- The registers that are no command's: the loop counters of the callers, and the block registers. -/
def Datapath.SameLoop (d e : Datapath) : Prop :=
  e.attempt = d.attempt ∧ e.j = d.j ∧ e.k = d.k ∧ e.crc16acc = d.crc16acc ∧ e.crcRx = d.crcRx ∧
  e.data = d.data

/-- The registers that a data phase leaves alone: the frame, the response registers and the loop counters of
its callers. -/
def Datapath.SameResponse (d e : Datapath) : Prop :=
  e.crc7acc = d.crc7acc ∧ e.frame = d.frame ∧ e.lead = d.lead ∧ e.ext = d.ext ∧ e.trailer = d.trailer ∧
  e.va = d.va ∧ e.echo = d.echo ∧ e.ocrIn = d.ocrIn ∧ e.attempt = d.attempt

/-- What a halt changes nothing of (R300). -/
def State.SameAtHalt (s t : State) : Prop :=
  t.guard = s.guard ∧ t.pending = s.pending ∧ t.cap = s.cap ∧ t.ready = s.ready ∧ t.cfg = s.cfg ∧
  t.blockLen = s.blockLen ∧ t.req = s.req

/-! ### Events, oldest first -/

/-- The exchanges that send `outs` and receive `ins` (R140). -/
def exchanges (outs ins : List Byte) : List Event := List.zipWith Event.xchg outs ins

/-- The exchanges that receive `ins`, the filler sent (R142). -/
def receives (ins : List Byte) : List Event := ins.map (Event.xchg fillerByte)

/-- The trace of `t` is that of `s` and then `es`, oldest first. -/
def State.Emits (s t : State) (es : List Event) : Prop := t.trace = es.reverse ++ s.trace

/-- The event is an `XCHG` or a `SETCS`. -/
def Event.isTransport : Event → Bool
  | .xchg _ _ | .setcs _ => true
  | .grant _ | .release _ | .done _ _ | .diag _ | .halt _ => false

/-! ### The transport's answers -/

/-- `pre` then `lead` is what a lead-byte poll of shape `sh` receives where it succeeds (R147): no byte of
`pre` matches, `lead` does, and the poll's bound is not passed. -/
def LeadArrives (c : Config) (sh : Shape) (pre : List Byte) (lead : Byte) : Prop :=
  (∀ b ∈ pre, leadMatches c sh b = false) ∧ leadMatches c sh lead = true ∧ pre.length < c.respPollMax

/-- `pre` is what a lead-byte poll receives where it fails (R147): exactly `RESP_POLL_MAX` bytes, none of
which matches. -/
def NoLead (c : Config) (sh : Shape) (pre : List Byte) : Prop :=
  (∀ b ∈ pre, leadMatches c sh b = false) ∧ pre.length = c.respPollMax

/-! ### Scripts: what a run receives (P-card of R353) -/

/-- The response a command has (R103, R106). -/
def responseOf : Instr → Shape
  | .cmd8 => .r7
  | .acmd41 | .cmd58 => .r3
  | .cmd0 | .cmd12 | .cmd16 | .cmd17 _ | .cmd18 _ | .cmd24 _ | .cmd25 _ | .cmd55 | .cmd59
  | .startTokenRead | .startTokenSingleWrite | .startTokenMultiWrite | .stopTokenMultiWrite
  | .dataRespAccepted _ | .notBusy | .filler | .r1Lead _ | .r7Lead _ | .r3Lead _
  | .readReq _ _ | .writeReq _ _ | .bringup | .crc7 _ | .crc16 _ => .r1 0

/-- What is received from a command's first frame byte to the trailer of its response: while the frame is
sent, while the lead byte is awaited, and as the response. -/
structure Answer where
  ins : List Byte
  pre : List Byte
  lead : Byte
  payload : List Byte
  trailer : Byte
  deriving DecidableEq, Repr

/-- The bytes received after the frame. -/
def Answer.received (a : Answer) : List Byte := a.pre ++ [a.lead] ++ a.payload ++ [a.trailer]

/-- All the bytes of the answer. -/
def Answer.bytes (a : Answer) : List Byte := a.ins ++ a.received

/-- The answer has the lengths of the command's frame and response, and its lead byte comes in time. -/
def Answer.fits (c : Config) (i : Instr) (a : Answer) : Prop :=
  a.ins.length = 6 ∧ LeadArrives c (responseOf i) a.pre a.lead ∧ a.payload.length = (responseOf i).payload

/-- The events of an answered command (R145, R149 to R154). -/
def Answer.events (i : Instr) (a : Answer) : List Event :=
  [.setcs .hold] ++ exchanges (encode i) a.ins ++ receives a.received ++ [.setcs .auto]

/-- The OCR in an R3's payload (R95). -/
def Answer.ocr (a : Answer) : Word :=
  match a.payload with
  | [o0, o1, o2, o3] => wordOfBytesBE o0 o1 o2 o3
  | _ => 0

/-- The acceptance tests of R184, of an answer of the command's own frame. -/
def Answer.accepted (i : Instr) (a : Answer) : Bool :=
  match i with
  | .cmd0 => a.trailer[0] && a.lead == 0x01
  | .cmd8 =>
    a.trailer[0] &&
    match a.payload with
    | [_, _, r2, r3] => r2.extractLsb' 0 4 == 0x1#4 && r3 == 0xAA
    | _ => false
  | .cmd12 => true
  | .cmd16 | .cmd55 | .cmd59 => a.trailer[0] && decide (a.lead.toNat ≤ 1)
  | .cmd17 _ | .cmd18 _ | .cmd24 _ | .cmd25 _ => a.trailer[0] && a.lead == 0x00
  | .acmd41 => a.trailer[0] && !a.ocr[31]
  | .cmd58 => a.trailer[0]
  | .startTokenRead | .startTokenSingleWrite | .startTokenMultiWrite | .stopTokenMultiWrite
  | .dataRespAccepted _ | .notBusy | .filler | .r1Lead _ | .r7Lead _ | .r3Lead _
  | .readReq _ _ | .writeReq _ _ | .bringup | .crc7 _ | .crc16 _ => false

/-- What an answered command leaves, from `s` to `t` (R145, R149 to R154): its events, the bytes taken, the
mode, the place in the caller, the frame and response registers; and everything else unchanged. -/
def State.AfterCommand (s t : State) (i : Instr) (a : Answer) (rest : List Byte) : Prop :=
  s.Emits t (a.events i) ∧ t.rx = rest ∧ t.csMode = .auto ∧ t.seq = s.seq ∧
  t.dp.frame.toList = encode i ∧ t.dp.crc7acc = crc7 ((encode i).take 5) ∧
  t.dp.lead = a.lead ∧ t.dp.trailer = a.trailer ∧ t.dp.poll = a.pre.length + 1 ∧
  s.SameOutside t ∧ s.dp.SameLoop t.dp

/-- What a command leaves whose lead-byte poll is exhausted by `pre` (R147, R152, R300). -/
def State.AfterSilence (s t : State) (i : Instr) (idx : CmdIndex) (ins pre rest : List Byte) : Prop :=
  t.phase = .halted ∧ t.fault = some { code := .respTimeout, cmd := some idx } ∧
  s.Emits t ([.setcs .hold] ++ exchanges (encode i) ins ++ receives pre ++
    [.setcs .auto, .halt { code := .respTimeout, cmd := some idx }]) ∧
  t.rx = rest ∧ t.csMode = .auto ∧ t.ocr = s.ocr ∧ s.SameAtHalt t ∧ ∀ a, t.mem.read a = s.mem.read a

/-- A command whose response does not come halts the core (R147, R185): whatever bytes come while its frame is
sent, and whatever unfit bytes while its lead byte is awaited. -/
def SilenceHalts (i : Instr) (idx : CmdIndex) : Prop :=
  ∀ (s : State) (ins pre rest : List Byte), s.running → ins.length = 6 → NoLead s.cfg (responseOf i) pre →
    s.rx = ins ++ pre ++ rest → ∃ t, exec i s = .next t ∧ s.AfterSilence t i idx ins pre rest

/-- `cmds` is one attempt of the catalog entry `e`, and its result: the entry's own frame, or for ACMD41 the
frame of CMD55 and, only if that is accepted, the frame of CMD41 (R105, R181). -/
def attemptResult (e : Instr) (cmds : List (Instr × Answer)) : Option Bool :=
  match cmds with
  | [(i, a)] =>
    if e = .acmd41 then (if i = .cmd55 ∧ a.accepted .cmd55 = false then some false else none)
    else if i = e then some (a.accepted e) else none
  | [(i, a), (j, b)] =>
    if e = .acmd41 ∧ i = .cmd55 ∧ j = .acmd41 ∧ a.accepted .cmd55 = true then some (b.accepted .acmd41)
    else none
  | _ => none

/-- Every command of a script is answered with the lengths of its own response. -/
def scriptFits (c : Config) (cmds : List (Instr × Answer)) : Prop := ∀ p ∈ cmds, p.2.fits c p.1

/-- The bytes a script receives. -/
def scriptBytes (cmds : List (Instr × Answer)) : List Byte := cmds.flatMap fun p => p.2.bytes

/-- The events of a script. -/
def scriptEvents (cmds : List (Instr × Answer)) : List Event := cmds.flatMap fun p => p.2.events p.1

/-- `STEP(e, _)` succeeds with the script `cmds` (R208): fewer than ten failed attempts, then an accepted
one. -/
def StepScript (e : Instr) (cmds : List (Instr × Answer)) : Prop :=
  ∃ (fails : List (List (Instr × Answer))) (last : List (Instr × Answer)),
    cmds = fails.flatten ++ last ∧ fails.length < cmdAttempts ∧
    (∀ f ∈ fails, attemptResult e f = some false) ∧ attemptResult e last = some true

/-- `STEP(e, _)` is exhausted with the script `cmds` (R208): ten failed attempts. -/
def StepExhausted (e : Instr) (cmds : List (Instr × Answer)) : Prop :=
  ∃ fails : List (List (Instr × Answer)),
    cmds = fails.flatten ∧ fails.length = cmdAttempts ∧ ∀ f ∈ fails, attemptResult e f = some false

/-- What a read polls and receives for one block: skipped bytes, the start token, payload, trailer. -/
structure DataBlock where
  pre : List Byte
  payload : List Byte
  hi : Byte
  lo : Byte
  deriving DecidableEq, Repr

/-- The bytes of the block, token poll included (R98, R222, R223). -/
def DataBlock.bytes (b : DataBlock) : List Byte := b.pre ++ [startToken] ++ b.payload ++ [b.hi, b.lo]

/-- The start token comes in time and the payload is one block long. -/
def DataBlock.fits (c : Config) (b : DataBlock) : Prop :=
  (∀ x ∈ b.pre, x ≠ startToken) ∧ b.pre.length < c.tokenPollMax ∧ b.payload.length = blockBytes

/-- The block passes its CRC16 check (R223). -/
def DataBlock.good (b : DataBlock) : Prop := crc16 b.payload = b.hi ++ b.lo

/-- `pre` is what a token poll receives where it fails (R222). -/
def NoToken (c : Config) (pre : List Byte) : Prop :=
  (∀ x ∈ pre, x ≠ startToken) ∧ pre.length = c.tokenPollMax

/-- How the data phase of one single-read attempt fails (R225): no start token, or a block that fails its
check. -/
inductive ReadFailure where
  | noToken (pre : List Byte)
  | badBlock (b : DataBlock)
  deriving DecidableEq, Repr

/-- The bytes received in a failed data phase. -/
def ReadFailure.bytes : ReadFailure → List Byte
  | .noToken pre => pre
  | .badBlock b => b.bytes

/-- The failed data phase is one. -/
def ReadFailure.fits (c : Config) : ReadFailure → Prop
  | .noToken pre => NoToken c pre
  | .badBlock b => b.fits c ∧ ¬ b.good

/-- The fault code where this is the failure of the last attempt (R225). -/
def ReadFailure.code : ReadFailure → FaultCode
  | .noToken _ => .sreadToken
  | .badBlock _ => .sreadCrc

/-- The bytes of single-read attempts: CMD17's answer and the data phase of each. -/
def tryBytes (tries : List (Answer × ReadFailure)) : List Byte :=
  tries.flatMap fun p => p.1.bytes ++ p.2.bytes

/-- The events of failed single-read attempts (R225, R229). -/
def tryEvents (a : Word) (tries : List (Answer × ReadFailure)) : List Event :=
  tries.flatMap fun p => p.1.events (.cmd17 a) ++ [.setcs .hold] ++ receives p.2.bytes ++ [.setcs .auto]

/-- Each attempt's CMD17 is accepted and its data phase fails. -/
def TriesFail (c : Config) (a : Word) (tries : List (Answer × ReadFailure)) : Prop :=
  ∀ p ∈ tries, p.1.fits c (.cmd17 a) ∧ p.1.accepted (.cmd17 a) = true ∧ p.2.fits c

/-- The bytes that end a busy wait: busy bytes, then 0xFF (R232). -/
def busyBytes (busy : List Byte) : List Byte := busy ++ [0xFF]

/-- The busy wait ends within its bound, if it has one (R232). -/
def BusyEnds (c : Config) (busy : List Byte) : Prop :=
  (∀ b ∈ busy, b ≠ 0xFF) ∧ ∀ m, c.busyPollMax = some m → busy.length < m

/-- What is received while one block is written: with token, payload and fillers, then idle bytes, the data
response, and the busy wait. -/
structure WrittenBlock where
  ins : List Byte
  idle : Nat
  resp : Byte
  busy : List Byte
  deriving DecidableEq, Repr

/-- The bytes received after the block is sent. -/
def WrittenBlock.received (w : WrittenBlock) : List Byte :=
  List.replicate w.idle 0xFF ++ [w.resp] ++ busyBytes w.busy

/-- All the bytes received for the block. -/
def WrittenBlock.bytes (w : WrittenBlock) : List Byte := w.ins ++ w.received

/-- The block is accepted in time and the card releases the bus (R224, R232). -/
def WrittenBlock.fits (c : Config) (w : WrittenBlock) : Prop :=
  w.ins.length = blockBytes + 3 ∧ w.idle < c.drespPollMax ∧ w.resp ≠ 0xFF ∧
  w.resp.extractLsb' 0 4 = 0b0101#4 ∧ BusyEnds c w.busy

/-- The 515 bytes sent for a block (R98, R221). -/
def blockOut (tok : Byte) (data : List Byte) : List Byte := [tok] ++ data ++ [fillerByte, fillerByte]

/-- The `n` bytes of memory from `a` on. -/
def Memory.slice (m : Memory) (a : Nat) : Nat → List Byte
  | 0 => []
  | n + 1 => m.read a :: Memory.slice m (a + 1) n

/-- The payload of sector `k` of the request's buffer (R62). -/
def State.sectorData (s : State) (k : Nat) : List Byte :=
  s.mem.slice (s.req.buf.base + blockBytes * k) blockBytes

/-- The events of blocks written with token `tok`, from sector `k` on (R221, R224, R232). -/
def writeEvents (s : State) (tok : Byte) : Nat → List WrittenBlock → List Event
  | _, [] => []
  | k, w :: rest =>
    exchanges (blockOut tok (s.sectorData k)) w.ins ++ receives w.received ++ writeEvents s tok (k + 1) rest

/-- The sectors of a multi-block read: each block and the byte received with the filler after it (R226). -/
def sectorBytes (blocks : List (DataBlock × Byte)) : List Byte :=
  blocks.flatMap fun p => p.1.bytes ++ [p.2]

/-- What a transfer leaves, from `s` to `t`, where it returns (R229, R236): the guard, the requests, the
session, the fault and the place in the caller are unchanged, the mode is AUTO, and the request registers
hold the request with its card address. -/
def State.AfterTransfer (s t : State) (op : Byte) (sector count : Word) : Prop :=
  t.cfg = s.cfg ∧ t.phase = s.phase ∧ t.cap = s.cap ∧ t.blockLen = s.blockLen ∧ t.ready = s.ready ∧
  t.fault = s.fault ∧ t.ocr = s.ocr ∧ t.guard = s.guard ∧ t.pending = s.pending ∧ t.seq = s.seq ∧
  t.csMode = .auto ∧ t.inputs = s.inputs ∧ t.arbTurn = s.arbTurn ∧ t.opWord = s.opWord ∧ t.port = s.port ∧
  t.dp.va = s.dp.va ∧ t.dp.echo = s.dp.echo ∧
  t.req = { s.req with op := op, sector := sector, count := count, addr := cardAddr s.cfg s.cap sector }

/-- The word is the granted request, about to be served (R263, R260): the core runs, the host at the port holds the
guard for just this request, and it is admitted. That such a word is the granted request is log entry 22. -/
def State.Serving (s : State) (op : Byte) (sector count : Word) : Prop :=
  s.running ∧ s.isGranted op sector count ∧
  s.admits { op := op, sector := sector, count := count, buf := s.req.buf } = true

/-- A transfer has halted with record `r` after the events `es` (R300, R316): the record, the phase, the
events, the mode AUTO, and what the halt leaves. -/
def State.AfterHalt (s t : State) (r : FaultRecord) (es : List Event) : Prop :=
  t.phase = .halted ∧ t.fault = some r ∧ s.Emits t (es ++ [.halt r]) ∧ t.csMode = .auto ∧
  t.guard = s.guard ∧ t.pending = s.pending ∧ t.cap = s.cap ∧ t.ready = s.ready

/-- `n` steps of the core (R9), stopping at the first fault or refusal. -/
def ticks : Nat → State → Host.Outcome State Fault Refusal
  | 0, s => .next s
  | n + 1, s =>
    match tick s with
    | .next s' => ticks n s'
    | .fault f => .fault f
    | .refused r => .refused r

end Sys2Proof.Machine
end

