-- ==== Sys2Proof/Certificates/Slice0/Obligations.lean ====
section
/-!
DEFINITION. The statements about the model, one `def Obligations.<Name> : Prop` each. OBLIGATIONS.json gives each
its tier, kind and the rules of spec/ it rests on. `s.perform ls` runs the procedure that the line `ls` enters as a
unit; `exec i s` performs the operation of a row of spec/opcode_table.json.
-/

open Sys2Proof Sys2Proof.Machine

/-! ### Encoding -/

/-- R90 to R103: decoding the encoding of a well-formed instruction in its own context gives it back. Bring-up and
the two checksum rows have no encoding; what stands for one is the model's choice (log entry 6). -/
def Obligations.DecodeOfEncode : Prop :=
  ∀ i : Instr, i.wf = true → decodeIn i.ctx (encode i) = .ok i

/-- R90 to R104: bytes that decode to an instruction are its encoding, in its own context, and the instruction is
well formed. -/
def Obligations.EncodeOfDecode : Prop :=
  ∀ (c : Ctx) (bytes : List Byte) (i : Instr), decodeIn c bytes = .ok i →
    i.wf = true ∧ i.ctx = c ∧ encode i = bytes

/-- R109: every fixed frame, byte for byte, with its CRC7; and that each but CMD59 off is its command's encoding. -/
def Obligations.FixedFrames : Prop :=
  (encodeFrame 0 0x00000000 = [0x40, 0x00, 0x00, 0x00, 0x00, 0x95] ∧ crc7 [0x40, 0x00, 0x00, 0x00, 0x00] = 0x4A) ∧
  (encodeFrame 8 0x000001AA = [0x48, 0x00, 0x00, 0x01, 0xAA, 0x87] ∧ crc7 [0x48, 0x00, 0x00, 0x01, 0xAA] = 0x43) ∧
  (encodeFrame 12 0x00000000 = [0x4C, 0x00, 0x00, 0x00, 0x00, 0x61] ∧ crc7 [0x4C, 0x00, 0x00, 0x00, 0x00] = 0x30) ∧
  (encodeFrame 16 0x00000200 = [0x50, 0x00, 0x00, 0x02, 0x00, 0x15] ∧ crc7 [0x50, 0x00, 0x00, 0x02, 0x00] = 0x0A) ∧
  (encodeFrame 41 0x40000000 = [0x69, 0x40, 0x00, 0x00, 0x00, 0x77] ∧ crc7 [0x69, 0x40, 0x00, 0x00, 0x00] = 0x3B) ∧
  (encodeFrame 55 0x00000000 = [0x77, 0x00, 0x00, 0x00, 0x00, 0x65] ∧ crc7 [0x77, 0x00, 0x00, 0x00, 0x00] = 0x32) ∧
  (encodeFrame 58 0x00000000 = [0x7A, 0x00, 0x00, 0x00, 0x00, 0xFD] ∧ crc7 [0x7A, 0x00, 0x00, 0x00, 0x00] = 0x7E) ∧
  (encodeFrame 59 0x00000001 = [0x7B, 0x00, 0x00, 0x00, 0x01, 0x83] ∧ crc7 [0x7B, 0x00, 0x00, 0x00, 0x01] = 0x41) ∧
  (encodeFrame 59 0x00000000 = [0x7B, 0x00, 0x00, 0x00, 0x00, 0x91] ∧ crc7 [0x7B, 0x00, 0x00, 0x00, 0x00] = 0x48) ∧
  encode .cmd0 = encodeFrame 0 0x00000000 ∧ encode .cmd8 = encodeFrame 8 0x000001AA ∧
  encode .cmd12 = encodeFrame 12 0x00000000 ∧ encode .cmd16 = encodeFrame 16 0x00000200 ∧
  encode .acmd41 = encodeFrame 41 0x40000000 ∧ encode .cmd55 = encodeFrame 55 0x00000000 ∧
  encode .cmd58 = encodeFrame 58 0x00000000 ∧ encode .cmd59 = encodeFrame 59 0x00000001

/-- R91, R92, R93: the six bytes of a frame, field by field. -/
def Obligations.FrameLayout : Prop :=
  ∀ (idx : CmdIndex) (arg : Word), ∃ f0 f1 f2 f3 f4 f5 : Byte,
    encodeFrame idx arg = [f0, f1, f2, f3, f4, f5] ∧
    f0.extractLsb' 6 2 = 0b01#2 ∧ f0.extractLsb' 0 6 = idx ∧ f0.toNat = 0x40 + idx.toNat ∧
    f1 = arg.extractLsb' 24 8 ∧ f2 = arg.extractLsb' 16 8 ∧ f3 = arg.extractLsb' 8 8 ∧
    f4 = arg.extractLsb' 0 8 ∧ f5.extractLsb' 1 7 = crc7 [f0, f1, f2, f3, f4] ∧ f5.extractLsb' 0 1 = 1#1 ∧
    f5.toNat = 2 * (crc7 [f0, f1, f2, f3, f4]).toNat + 1

/-- R103, R104: a frame of any other index decodes to nothing, and so does a host request of any other op. -/
def Obligations.ReservedEncodingsRefused : Prop :=
  (∀ (idx : CmdIndex) (arg : Word), idx ∉ [0, 8, 12, 16, 17, 18, 24, 25, 41, 55, 58, 59] →
    decodeIn .frame (encodeFrame idx arg) = .error .reservedIndex) ∧
  (∀ (op : Byte) (sector count : Word), op ≠ 0x01 → op ≠ 0x02 →
    decodeIn .requestPort ([op] ++ wordBytesBE sector ++ wordBytesBE count) = .error .hostOp)

/-- Words of each family written out from the spec's encodings (R92, R99 to R103, R176) decode to what they stand
for, numbered as spec/opcode_table.json numbers them. -/
def Obligations.SampleWordsDecode : Prop :=
  decodeTableWord 48 0x400000000095 = some .cmd0 ∧
  decodeTableWord 48 0x48000001AA87 = some .cmd8 ∧
  decodeTableWord 48 0x51000000050F = some (.cmd17 5) ∧
  decodeTableWord 48 0x694000000077 = some .acmd41 ∧
  decodeTableWord 8 0xFE = some .startTokenRead ∧
  decodeTableWord 8 0xE5 = some (.dataRespAccepted 0xE) ∧
  decodeTableWord 72 0x010000000300000001 = some (.readReq 3 1) ∧
  decodeTableWord 48 0x400000000094 = none

/-! ### Checksums -/

/-- R120: CRC7 is the remainder of M(x)·x⁷ by x⁷ + x³ + 1, with m[0] bit 7 the highest coefficient; its corner cases
and its example. That no
final complement or XOR follows is general knowledge by the spec's own mark (log entry 18). -/
def Obligations.Crc7IsRemainder : Prop :=
  (∀ m : List Byte,
    (∑ i ∈ Finset.range 7, if (crc7 m).getLsbD i then (Polynomial.X ^ i : Polynomial (ZMod 2)) else 0) =
      Polynomial.modByMonic
        ((m.flatMap bitsMsbFirst).foldl
          (fun p b => p * Polynomial.X + if b then 1 else 0) (0 : Polynomial (ZMod 2)) * Polynomial.X ^ 7)
        (Polynomial.X ^ 7 + Polynomial.X ^ 3 + 1)) ∧
  crc7 [] = 0 ∧ (∀ m, (crc7 m).toNat < 0x80) ∧
  (∀ a b : List Byte, a.length = b.length → crc7 (List.zipWith (· ^^^ ·) a b) = crc7 a ^^^ crc7 b) ∧
  crc7 [0x40, 0x00, 0x00, 0x00, 0x00] = 0x4A

/-- R125: CRC16 is the remainder of M(x)·x¹⁶ by x¹⁶ + x¹² + x⁵ + 1; its corner cases and its example. -/
def Obligations.Crc16IsRemainder : Prop :=
  (∀ m : List Byte,
    (∑ i ∈ Finset.range 16, if (crc16 m).getLsbD i then (Polynomial.X ^ i : Polynomial (ZMod 2)) else 0) =
      Polynomial.modByMonic
        ((m.flatMap bitsMsbFirst).foldl
          (fun p b => p * Polynomial.X + if b then 1 else 0) (0 : Polynomial (ZMod 2)) * Polynomial.X ^ 16)
        (Polynomial.X ^ 16 + Polynomial.X ^ 12 + Polynomial.X ^ 5 + 1)) ∧
  crc16 (List.replicate 512 0x00) = 0x0000 ∧ crc16 (List.replicate 512 0xFF) = 0x7FA1 ∧
  (∀ a b : List Byte, a.length = b.length → crc16 (List.zipWith (· ^^^ ·) a b) = crc16 a ^^^ crc16 b)

/-- R127 (its single-bit and its odd-weight claims): one flipped bit of a block changes its CRC16, and so does every
error that changes the parity of the block's bits. -/
def Obligations.BlockErrorsDetected : Prop :=
  (∀ (m : List Byte) (i j : Nat) (h : i < m.length), m.length = blockBytes → j < 8 →
    crc16 (m.set i (m[i] ^^^ (1#8 <<< j))) ≠ crc16 m) ∧
  (∀ m m' : List Byte, m.length = m'.length →
    (m.flatMap bitsMsbFirst).foldl xor false ≠ (m'.flatMap bitsMsbFirst).foldl xor false →
    crc16 m ≠ crc16 m')

/-- R129, R30: each checksum row is a function of its bytes alone, and nothing but its accumulator is written: no
event, no other state. -/
def Obligations.ChecksumUnitsRun : Prop :=
  (∀ (s : State) (m : List Byte), s.running →
    exec (.crc7 m) s = .next { s with dp := { s.dp with crc7acc := crc7 m } }) ∧
  (∀ (s : State) (m : List Byte), s.running →
    exec (.crc16 m) s = .next { s with dp := { s.dp with crc16acc := crc16 m } })

/-! ### Framer and decoders -/

/-- R145: `SEND_COMMAND` sets HOLD, sends the six bytes, discards what it receives and leaves HOLD. -/
def Obligations.SendCommand : Prop :=
  ∀ (s : State) (idx : CmdIndex) (arg : Word) (c : BitVec 7) (ins rest : List Byte),
    s.running → ins.length = 6 → s.rx = ins ++ rest →
    ∃ frame : Vector Byte 6,
      frame.toList = [0x40#8 ||| idx.zeroExtend 8, arg.extractLsb' 24 8, arg.extractLsb' 16 8,
        arg.extractLsb' 8 8, arg.extractLsb' 0 8, (c.zeroExtend 8 <<< 1) ||| 1#8] ∧
      s.perform [.framer (.hold idx arg c)] = .next { s with
        csMode := .hold, rx := rest, dp := { s.dp with frame := frame }
        trace := ([Event.setcs .hold] ++ exchanges frame.toList ins).reverse ++ s.trace }

/-- R147, R152: the lead-byte poll takes the first byte that matches, or halts after exactly `RESP_POLL_MAX`; and
which bytes match by default. -/
def Obligations.LeadPoll : Prop :=
  (∀ (s : State) (sh : Shape) (idx : CmdIndex) (pre : List Byte) (lead : Byte) (rest : List Byte),
    s.running → s.dp.poll = 0 → LeadArrives s.cfg sh pre lead → s.rx = pre ++ [lead] ++ rest →
    s.perform [.decoder (.poll sh idx)] = .next { s with
      rx := rest, trace := (receives (pre ++ [lead])).reverse ++ s.trace
      dp := { s.dp with poll := pre.length + 1, lead := lead } }) ∧
  (∀ (s : State) (sh : Shape) (idx : CmdIndex) (pre rest : List Byte),
    s.running → s.dp.poll = 0 → NoLead s.cfg sh pre → s.rx = pre ++ rest →
    ∃ t, s.perform [.decoder (.poll sh idx)] = .next t ∧ t.rx = rest ∧
      s.AfterHalt t { code := .respTimeout, cmd := some idx } (receives pre ++ [.setcs .auto])) ∧
  (∀ b : Byte, leadMatches Config.defaults (.r1 0) b = true ↔ b.toNat < 0x40) ∧
  (∀ b : Byte, leadMatches Config.defaults .r7 b = true ↔ b.toNat < 0x40) ∧
  (∀ b : Byte, leadMatches Config.defaults .r3 b = true ↔ b.toNat < 0x40 ∧ b.toNat % 2 = 1)

/-- R149, R147, R152: `DECODE_R1(idx, n)` for n = 0 and n = 4, where it returns and where it halts. That the model's own
latch `ocrIn` is zeroed is its choice (log entry 24). -/
def Obligations.DecodeR1 : Prop :=
  ∀ (n : Nat) (s : State) (idx : CmdIndex), n = 0 ∨ n = 4 → s.running →
    (∀ (pre : List Byte) (lead : Byte) (ext : List Byte) (t : Byte) (rest : List Byte),
      LeadArrives s.cfg (.r1 n) pre lead → ext.length = n → s.rx = pre ++ [lead] ++ ext ++ [t] ++ rest →
      s.perform [.decoder (.start (.r1 n) idx)] = .next { s with
        rx := rest, csMode := .auto
        trace := (receives (pre ++ [lead] ++ ext ++ [t]) ++ [Event.setcs .auto]).reverse ++ s.trace
        dp := { s.dp with
          poll := pre.length + 1, lead := lead, ext := ext, ocrIn := 0, trailer := t, ok := t[0] } }) ∧
    (∀ pre rest : List Byte, NoLead s.cfg (.r1 n) pre → s.rx = pre ++ rest →
      ∃ t, s.perform [.decoder (.start (.r1 n) idx)] = .next t ∧ t.rx = rest ∧ t.ocr = s.ocr ∧
        s.AfterHalt t { code := .respTimeout, cmd := some idx } (receives pre ++ [.setcs .auto]))

/-- R150: `DECODE_R3(idx)`: the OCR is big-endian, and `st.ocr` is written only where the end bit is 1. That `resp.ext`
is empty afterwards, and that the model's own latch `ocrIn` holds the received OCR, are its choice (log entry 24). -/
def Obligations.DecodeR3 : Prop :=
  ∀ (s : State) (idx : CmdIndex), s.running →
    (∀ (pre : List Byte) (lead o0 o1 o2 o3 t : Byte) (rest : List Byte),
      LeadArrives s.cfg .r3 pre lead → s.rx = pre ++ [lead, o0, o1, o2, o3, t] ++ rest →
      s.perform [.decoder (.start .r3 idx)] = .next { s with
        rx := rest, csMode := .auto
        ocr := if t[0] then some (o0 ++ o1 ++ o2 ++ o3) else s.ocr
        trace := (receives (pre ++ [lead, o0, o1, o2, o3, t]) ++ [Event.setcs .auto]).reverse ++ s.trace
        dp := { s.dp with
          poll := pre.length + 1, lead := lead, ext := [], ocrIn := o0 ++ o1 ++ o2 ++ o3, trailer := t
          ok := t[0] } }) ∧
    (∀ pre rest : List Byte, NoLead s.cfg .r3 pre → s.rx = pre ++ rest →
      ∃ t, s.perform [.decoder (.start .r3 idx)] = .next t ∧ t.rx = rest ∧ t.ocr = s.ocr ∧
        s.AfterHalt t { code := .respTimeout, cmd := some idx } (receives pre ++ [.setcs .auto]))

/-- R151: `DECODE_R7(idx)`: two bytes are discarded, the voltage field is the low nibble of the third, the echo is
the fourth. That `resp.ext` is empty afterwards, and that the model's own latch `ocrIn` is zeroed, are its choice (log entry
24). -/
def Obligations.DecodeR7 : Prop :=
  ∀ (s : State) (idx : CmdIndex), s.running →
    (∀ (pre : List Byte) (lead r0 r1 r2 r3 t : Byte) (rest : List Byte),
      LeadArrives s.cfg .r7 pre lead → s.rx = pre ++ [lead, r0, r1, r2, r3, t] ++ rest →
      s.perform [.decoder (.start .r7 idx)] = .next { s with
        rx := rest, csMode := .auto
        trace := (receives (pre ++ [lead, r0, r1, r2, r3, t]) ++ [Event.setcs .auto]).reverse ++ s.trace
        dp := { s.dp with
          poll := pre.length + 1, lead := lead, ext := [], ocrIn := 0, va := r2.extractLsb' 0 4, echo := r3
          trailer := t, ok := t[0] } }) ∧
    (∀ pre rest : List Byte, NoLead s.cfg .r7 pre → s.rx = pre ++ rest →
      ∃ t, s.perform [.decoder (.start .r7 idx)] = .next t ∧ t.rx = rest ∧ t.ocr = s.ocr ∧
        s.AfterHalt t { code := .respTimeout, cmd := some idx } (receives pre ++ [.setcs .auto]))

/-- R94 to R96, R149 to R151: a row that is a received lead byte completes: the byte ends the poll at its first
read, and the rest of its response follows. That the byte arrives next is the model's reading of a received row
(log entry 7), and that `resp.ext` is empty after an R3 or R7, and what its own latch `ocrIn` holds,
are its choice (log entry 24). -/
def Obligations.LeadRowsRun : Prop :=
  (∀ (s : State) (v : BitVec 6) (t : Byte) (rest : List Byte), s.running →
    LeadArrives s.cfg (.r1 0) [] (r1LeadByte v) → s.rx = t :: rest →
    exec (.r1Lead v) s = .next { s with
      rx := rest, csMode := .auto
      trace := [.setcs .auto, .xchg 0xFF t, .xchg 0xFF (r1LeadByte v)] ++ s.trace
      dp := { s.dp with
        poll := 1, lead := r1LeadByte v, ext := [], ocrIn := 0, trailer := t, ok := t[0] } }) ∧
  (∀ (s : State) (v : BitVec 6) (r0 r1 r2 r3 t : Byte) (rest : List Byte), s.running →
    LeadArrives s.cfg .r7 [] (r1LeadByte v) → s.rx = [r0, r1, r2, r3, t] ++ rest →
    exec (.r7Lead v) s = .next { s with
      rx := rest, csMode := .auto
      trace := (receives [r1LeadByte v, r0, r1, r2, r3, t] ++ [Event.setcs .auto]).reverse ++ s.trace
      dp := { s.dp with
        poll := 1, lead := r1LeadByte v, ext := [], ocrIn := 0, va := r2.extractLsb' 0 4, echo := r3
        trailer := t, ok := t[0] } }) ∧
  (∀ (s : State) (v : BitVec 5) (o0 o1 o2 o3 t : Byte) (rest : List Byte), s.running →
    LeadArrives s.cfg .r3 [] (r3LeadByte v) → s.rx = [o0, o1, o2, o3, t] ++ rest →
    exec (.r3Lead v) s = .next { s with
      rx := rest, csMode := .auto
      ocr := if t[0] then some (o0 ++ o1 ++ o2 ++ o3) else s.ocr
      trace := (receives [r3LeadByte v, o0, o1, o2, o3, t] ++ [Event.setcs .auto]).reverse ++ s.trace
      dp := { s.dp with
        poll := 1, lead := r3LeadByte v, ext := [], ocrIn := o0 ++ o1 ++ o2 ++ o3, trailer := t
        ok := t[0] } })

/-! ### Commands -/

/-- R172: CMD0 is OK exactly where the end bit is 1 and the R1 is 0x01; without a response it halts. -/
def Obligations.Cmd0Runs : Prop :=
  (∀ (s : State) (a : Answer) (rest : List Byte), s.running → a.fits s.cfg .cmd0 → s.rx = a.bytes ++ rest →
    ∃ t, exec .cmd0 s = .next t ∧ s.AfterCommand t .cmd0 a rest ∧
      t.dp.ok = (a.trailer[0] && a.lead == 0x01) ∧
      t.ocr = s.ocr ∧ t.dp.ext = [] ∧ t.dp.va = s.dp.va ∧ t.dp.echo = s.dp.echo) ∧
  SilenceHalts .cmd0 0

/-- R173: CMD8 is OK exactly where the end bit is 1, the voltage field is 0x1 and the echo is 0xAA; the lead byte is
not judged. Without a response it halts. That `resp.ext` is empty after the R7 is the model's choice (log entry 24). -/
def Obligations.Cmd8Runs : Prop :=
  (∀ (s : State) (a : Answer) (r0 r1 r2 r3 : Byte) (rest : List Byte), s.running → a.fits s.cfg .cmd8 →
    a.payload = [r0, r1, r2, r3] → s.rx = a.bytes ++ rest →
    ∃ t, exec .cmd8 s = .next t ∧ s.AfterCommand t .cmd8 a rest ∧
      t.dp.ok = (a.trailer[0] && (r2.extractLsb' 0 4 == 0x1#4 && r3 == 0xAA)) ∧
      t.dp.va = r2.extractLsb' 0 4 ∧ t.dp.echo = r3 ∧ t.ocr = s.ocr ∧ t.dp.ext = []) ∧
  SilenceHalts .cmd8 8

/-- R174: CMD12 is OK whatever its R1 and end bit are; without a response it halts. -/
def Obligations.Cmd12Runs : Prop :=
  (∀ (s : State) (a : Answer) (rest : List Byte), s.running → a.fits s.cfg .cmd12 → s.rx = a.bytes ++ rest →
    ∃ t, exec .cmd12 s = .next t ∧ s.AfterCommand t .cmd12 a rest ∧ t.dp.ok = true ∧
      t.ocr = s.ocr ∧ t.dp.ext = [] ∧ t.dp.va = s.dp.va ∧ t.dp.echo = s.dp.echo) ∧
  SilenceHalts .cmd12 12

/-- R175, R180, R183: CMD16, CMD55 and CMD59 are OK exactly where the end bit is 1 and the R1 is 0x00 or 0x01;
without a response they halt. -/
def Obligations.IdleOrReadyCommandsRun : Prop :=
  (∀ (i : Instr) (s : State) (a : Answer) (rest : List Byte), i ∈ [.cmd16, .cmd55, .cmd59] → s.running →
    a.fits s.cfg i → s.rx = a.bytes ++ rest →
    ∃ t, exec i s = .next t ∧ s.AfterCommand t i a rest ∧
      t.dp.ok = (a.trailer[0] && (a.lead == 0x00 || a.lead == 0x01)) ∧
      t.ocr = s.ocr ∧ t.dp.ext = [] ∧ t.dp.va = s.dp.va ∧ t.dp.echo = s.dp.echo) ∧
  SilenceHalts .cmd16 16 ∧ SilenceHalts .cmd55 55 ∧ SilenceHalts .cmd59 59

/-- R176 to R179: CMD17, CMD18, CMD24 and CMD25 are OK exactly where the end bit is 1 and the R1 is 0x00; without a
response they halt. -/
def Obligations.DataCommandsRun : Prop :=
  (∀ (x : Word) (i : Instr) (s : State) (a : Answer) (rest : List Byte),
    i ∈ [.cmd17 x, .cmd18 x, .cmd24 x, .cmd25 x] → s.running → a.fits s.cfg i → s.rx = a.bytes ++ rest →
    ∃ t, exec i s = .next t ∧ s.AfterCommand t i a rest ∧ t.dp.ok = (a.trailer[0] && a.lead == 0x00) ∧
      t.ocr = s.ocr ∧ t.dp.ext = [] ∧ t.dp.va = s.dp.va ∧ t.dp.echo = s.dp.echo) ∧
  (∀ x : Word, SilenceHalts (.cmd17 x) 17 ∧ SilenceHalts (.cmd18 x) 18 ∧ SilenceHalts (.cmd24 x) 24 ∧
    SilenceHalts (.cmd25 x) 25)

/-- R105, R181: ACMD41 is CMD55 and then, only if that is OK, CMD41, whose OCR must have bit 31 clear; a CMD55 that
fails sends no CMD41; either frame without a response halts. -/
def Obligations.Acmd41Runs : Prop :=
  (∀ (s : State) (a b : Answer) (rest : List Byte), s.running → a.fits s.cfg .cmd55 →
    (a.trailer[0] && (a.lead == 0x00 || a.lead == 0x01)) = true → b.fits s.cfg .acmd41 →
    s.rx = a.bytes ++ b.bytes ++ rest →
    ∃ t, exec .acmd41 s = .next t ∧ s.Emits t (a.events .cmd55 ++ b.events .acmd41) ∧ t.rx = rest ∧
      t.csMode = .auto ∧ t.seq = s.seq ∧ s.SameOutside t ∧ s.dp.SameLoop t.dp ∧
      t.dp.ok = (b.trailer[0] && !b.ocr[31]) ∧ t.ocr = if b.trailer[0] then some b.ocr else s.ocr) ∧
  (∀ (s : State) (a : Answer) (rest : List Byte), s.running → a.fits s.cfg .cmd55 →
    (a.trailer[0] && (a.lead == 0x00 || a.lead == 0x01)) = false → s.rx = a.bytes ++ rest →
    ∃ t, exec .acmd41 s = .next t ∧ s.AfterCommand t .cmd55 a rest ∧ t.dp.ok = false ∧ t.ocr = s.ocr) ∧
  (∀ (s : State) (ins pre rest : List Byte), s.running → ins.length = 6 → NoLead s.cfg (.r1 0) pre →
    s.rx = ins ++ pre ++ rest →
    ∃ t, exec .acmd41 s = .next t ∧ s.AfterSilence t .cmd55 55 ins pre rest) ∧
  (∀ (s : State) (a : Answer) (ins pre rest : List Byte), s.running → a.fits s.cfg .cmd55 →
    (a.trailer[0] && (a.lead == 0x00 || a.lead == 0x01)) = true → ins.length = 6 → NoLead s.cfg .r3 pre →
    s.rx = a.bytes ++ ins ++ pre ++ rest →
    ∃ t, exec .acmd41 s = .next t ∧ t.rx = rest ∧ t.ocr = s.ocr ∧
      s.AfterHalt t { code := .respTimeout, cmd := some 41 }
        (a.events .cmd55 ++ [.setcs .hold] ++ exchanges (encode .acmd41) ins ++ receives pre ++ [.setcs .auto]))

/-- R182: CMD58 is OK exactly where the end bit is 1, and then `st.ocr` holds the OCR; without a response it
halts. That `resp.ext` is empty after the R3 is the model's choice (log entry 24). -/
def Obligations.Cmd58Runs : Prop :=
  (∀ (s : State) (a : Answer) (o0 o1 o2 o3 : Byte) (rest : List Byte), s.running → a.fits s.cfg .cmd58 →
    a.payload = [o0, o1, o2, o3] → s.rx = a.bytes ++ rest →
    ∃ t, exec .cmd58 s = .next t ∧ s.AfterCommand t .cmd58 a rest ∧ t.dp.ok = a.trailer[0] ∧
      (t.ocr = if a.trailer[0] then some (o0 ++ o1 ++ o2 ++ o3) else s.ocr) ∧
      t.dp.ext = [] ∧ t.dp.va = s.dp.va ∧ t.dp.echo = s.dp.echo) ∧
  SilenceHalts .cmd58 58

/-! ### Bring-up -/

/-- R208, R209: a step returns at its first accepted attempt among ten, each a whole entry with nothing between; ten
failed attempts halt with the step's own code and attempt 10. -/
def Obligations.StepRetries : Prop :=
  ∀ (i : Instr) (e : Entry) (code : FaultCode) (s : State) (cmds : List (Instr × Answer)) (rest : List Byte),
    (i, e, code) ∈ [(Instr.cmd0, Entry.cmd0, FaultCode.initCmd0), (.cmd8, .cmd8, .initCmd8),
      (.acmd41, .acmd41, .initAcmd41), (.cmd58, .cmd58, .initCmd58), (.cmd16, .cmd16, .initCmd16)] →
    s.running → scriptFits s.cfg cmds → s.rx = scriptBytes cmds ++ rest →
    (StepScript i cmds →
      ∃ t, s.perform [.bringup (.step e code)] = .next t ∧ s.Emits t (scriptEvents cmds) ∧ t.rx = rest ∧
        t.csMode = .auto ∧ t.seq = s.seq ∧ s.SameOutside t ∧ t.dp.ok = true ∧
        ((i = .acmd41 ∨ i = .cmd58) → t.ocr = cmds.getLast?.map fun p => p.2.ocr) ∧
        (i ≠ .acmd41 → i ≠ .cmd58 → t.ocr = s.ocr)) ∧
    (StepExhausted i cmds →
      ∃ t, s.perform [.bringup (.step e code)] = .next t ∧ t.rx = rest ∧
        s.AfterHalt t { code := code, attempt := some (attemptNo 10) } (scriptEvents cmds))

/-- R200 to R207: bring-up against a card that answers each step within its ten attempts: the events are those of
the steps in their order, the diagnostic where CMD59 fails, and the end is READY with the capacity class of CMD58's
OCR bit 30, STANDARD where the probe is off; CMD16 is sent only for STANDARD. -/
def Obligations.BringupReachesReady : Prop :=
  ∀ (s : State) (s0 s8 s41 s58 s16 : List (Instr × Answer)) (a59 : Answer) (cap : Capacity) (rest : List Byte),
    s.atBringupStart = true → StepScript .cmd0 s0 → StepScript .cmd8 s8 → StepScript .acmd41 s41 →
    (s.cfg.ocrProbe = true → StepScript .cmd58 s58 ∧
      ∃ p, s58.getLast? = some p ∧ cap = if p.2.ocr[30] then .high else .standard) →
    (s.cfg.ocrProbe = false → s58 = [] ∧ cap = .standard) →
    (cap = .standard → StepScript .cmd16 s16) → (cap = .high → s16 = []) →
    scriptFits s.cfg (s0 ++ s8 ++ [(.cmd59, a59)] ++ s41 ++ s58 ++ s16) →
    s.rx = scriptBytes (s0 ++ s8 ++ [(.cmd59, a59)] ++ s41 ++ s58 ++ s16) ++ rest →
    ∃ t, exec .bringup s = .next t ∧ t.phase = .ready ∧ t.ready = true ∧ t.cap = cap ∧
      t.blockLen = s.blockLen ∧ t.csMode = .auto ∧ t.seq = [] ∧ t.rx = rest ∧
      s.Emits t (scriptEvents (s0 ++ s8 ++ [(.cmd59, a59)]) ++
        (if a59.accepted .cmd59 then [] else [.diag .cmd59Unsupported]) ++ scriptEvents (s41 ++ s58 ++ s16)) ∧
      t.cfg = s.cfg ∧ t.fault = s.fault ∧ t.guard = s.guard ∧ t.pending = s.pending ∧ t.req = s.req ∧
      (∀ x, t.mem.read x = s.mem.read x) ∧ t.inputs = s.inputs ∧ t.opWord = s.opWord ∧ t.port = s.port

/-- R147, R203: a silent card at CMD59 halts bring-up although CMD59 is best effort: E_RESP_TIMEOUT with command
59, after the events of steps 1 and 2 and CMD59's frame. -/
def Obligations.SilentCmd59Halts : Prop :=
  ∀ (s : State) (s0 s8 : List (Instr × Answer)) (ins pre rest : List Byte),
    s.atBringupStart = true → StepScript .cmd0 s0 → StepScript .cmd8 s8 → scriptFits s.cfg (s0 ++ s8) →
    ins.length = 6 → NoLead s.cfg (.r1 0) pre → s.rx = scriptBytes (s0 ++ s8) ++ ins ++ pre ++ rest →
    ∃ t, exec .bringup s = .next t ∧ t.rx = rest ∧
      s.AfterHalt t { code := .respTimeout, cmd := some 59 }
        (scriptEvents (s0 ++ s8) ++ [.setcs .hold] ++ exchanges (encode .cmd59) ins ++ receives pre ++
          [.setcs .auto])

/-- R210: bring-up reads nothing but the configuration and the received bytes: two bring-ups out of reset with the
same of both end in the same phase, capacity, block length, OCR and fault, having emitted the same events. -/
def Obligations.BringupDependsOnAnswersOnly : Prop :=
  ∀ (u v t : State) (bytes : List Byte), u.cfg = v.cfg →
    exec .bringup { u.assertReset with rx := bytes } = .next t →
    ∃ (t' : State) (es : List Event), exec .bringup { v.assertReset with rx := bytes } = .next t' ∧
      t'.cap = t.cap ∧ t'.blockLen = t.blockLen ∧ t'.phase = t.phase ∧ t'.ready = t.ready ∧ t'.ocr = t.ocr ∧
      t'.fault = t.fault ∧ t.trace = es ++ u.trace ∧ t'.trace = es ++ v.trace

/-- R23, R25, R207: outside RESET and BRINGUP no step but reset changes the session state. -/
def Obligations.SessionImmutable : Prop :=
  ∀ s t : State, s.Disciplined → s.phase ≠ .reset → s.phase ≠ .bringup → step s = .next t → t.phase ≠ .reset →
    t.cap = s.cap ∧ t.ready = s.ready ∧ t.blockLen = s.blockLen

/-! ### Data phase -/

/-- R222: the token poll is true at the first 0xFE within its bound, whatever was skipped, and false after exactly
`TOKEN_POLL_MAX` other bytes. -/
def Obligations.TokenPoll : Prop :=
  (∀ (s : State) (pre rest : List Byte), s.running → (∀ b ∈ pre, b ≠ 0xFE) → pre.length < s.cfg.tokenPollMax →
    s.rx = pre ++ [0xFE] ++ rest →
    s.perform [.block .tokenStart] = .next { s with
      rx := rest, trace := (receives (pre ++ [0xFE])).reverse ++ s.trace
      dp := { s.dp with poll := pre.length + 1, ok := true } }) ∧
  (∀ (s : State) (pre rest : List Byte), s.running → (∀ b ∈ pre, b ≠ 0xFE) → pre.length = s.cfg.tokenPollMax →
    s.rx = pre ++ rest →
    s.perform [.block .tokenStart] = .next { s with
      rx := rest, trace := (receives pre).reverse ++ s.trace
      dp := { s.dp with poll := pre.length, ok := false } })

/-- R223, R234, R62, R65: a received block stands in sector k of the buffer, whether or not its CRC16 agrees with its
big-endian trailer ("A block that fails its check leaves its bytes in the buffer"), and the result is whether it does. -/
def Obligations.ReadDataBlock : Prop :=
  ∀ (s : State) (payload : List Byte) (hi lo : Byte) (rest : List Byte), s.running → s.mem.wf →
    payload.length = blockBytes → blockBytes * s.dp.k.toNat + blockBytes ≤ s.req.buf.len →
    s.rx = payload ++ [hi, lo] ++ rest →
    ∃ t, s.perform [.block .readStart] = .next t ∧ t.dp.ok = (crc16 payload == hi ++ lo) ∧
      t.sectorData s.dp.k.toNat = payload ∧
      (∀ x, ¬ (s.req.buf.base + blockBytes * s.dp.k.toNat ≤ x ∧
        x < s.req.buf.base + blockBytes * s.dp.k.toNat + blockBytes) → t.mem.read x = s.mem.read x) ∧
      t.mem.wf ∧ s.Emits t (receives (payload ++ [hi, lo])) ∧ t.rx = rest ∧ t.seq = s.seq ∧
      t.csMode = s.csMode ∧ t.ocr = s.ocr ∧ s.dp.SameResponse t.dp ∧ t.dp.k = s.dp.k ∧ t.cfg = s.cfg ∧
      t.phase = s.phase ∧ t.fault = s.fault ∧ t.req = s.req ∧ t.guard = s.guard ∧ t.pending = s.pending

/-- R221, R227, R228: a sent start token is followed by the 512 bytes of its sector and two fillers, whatever is
received. The buffer is not written. Which sector a row sends when performed on its own is the model's choice (log
entry 7): the single-block row sends sector 0 and sets k to 0, the multi-block row sends the sector in k. -/
def Obligations.WriteTokenRowsRun : Prop :=
  (∀ (s : State) (ins rest : List Byte), s.running → ins.length = blockBytes + 3 →
    blockBytes ≤ s.req.buf.len → s.rx = ins ++ rest →
    ∃ t, exec .startTokenSingleWrite s = .next t ∧ s.Emits t (exchanges (blockOut 0xFE (s.sectorData 0)) ins) ∧
      t.rx = rest ∧ t.seq = s.seq ∧ s.SameOutside t ∧ s.dp.SameResponse t.dp ∧ t.dp.k = 0 ∧
      t.csMode = s.csMode ∧ t.ocr = s.ocr ∧ t.dp.crc16acc = s.dp.crc16acc ∧ t.dp.poll = s.dp.poll) ∧
  (∀ (s : State) (ins rest : List Byte), s.running → ins.length = blockBytes + 3 →
    blockBytes * s.dp.k.toNat + blockBytes ≤ s.req.buf.len → s.rx = ins ++ rest →
    ∃ t, exec .startTokenMultiWrite s = .next t ∧
      s.Emits t (exchanges (blockOut 0xFC (s.sectorData s.dp.k.toNat)) ins) ∧
      t.rx = rest ∧ t.seq = s.seq ∧ s.SameOutside t ∧ s.dp.SameResponse t.dp ∧ t.dp.k = s.dp.k ∧
      t.csMode = s.csMode ∧ t.ocr = s.ocr ∧ t.dp.crc16acc = s.dp.crc16acc ∧ t.dp.poll = s.dp.poll)

/-- R100, R224: the data-response poll skips 0xFF; the first other byte is accepted where its low nibble is 0b0101
and halts the core otherwise; so do `DRESP_POLL_MAX` bytes of 0xFF. -/
def Obligations.DataResponsePoll : Prop :=
  ∀ (s : State) (idx : CmdIndex) (rest : List Byte), s.running →
    (∀ (n : Nat) (b : Byte), n < s.cfg.drespPollMax → b ≠ 0xFF → b.extractLsb' 0 4 = 0b0101#4 →
      s.rx = List.replicate n 0xFF ++ [b] ++ rest →
      s.perform [.block (.drespStart idx)] = .next { s with
        rx := rest, trace := (receives (List.replicate n 0xFF ++ [b])).reverse ++ s.trace
        dp := { s.dp with poll := n + 1 } }) ∧
    (∀ (n : Nat) (b : Byte), n < s.cfg.drespPollMax → b ≠ 0xFF → b.extractLsb' 0 4 ≠ 0b0101#4 →
      s.rx = List.replicate n 0xFF ++ [b] ++ rest →
      ∃ t, s.perform [.block (.drespStart idx)] = .next t ∧ t.rx = rest ∧ t.ocr = s.ocr ∧
        s.AfterHalt t { code := .writeRejected, cmd := some idx, unit := some s.dp.k, byte := some b }
          (receives (List.replicate n 0xFF ++ [b]) ++ [.setcs .auto])) ∧
    (s.rx = List.replicate s.cfg.drespPollMax 0xFF ++ rest →
      ∃ t, s.perform [.block (.drespStart idx)] = .next t ∧ t.rx = rest ∧ t.ocr = s.ocr ∧
        s.AfterHalt t { code := .writeRespTimeout, cmd := some idx, unit := some s.dp.k }
          (receives (List.replicate s.cfg.drespPollMax 0xFF) ++ [.setcs .auto]))

/-- R232, R350: the busy wait ends at the first 0xFF; a bounded wait halts after its bound; an unbounded one goes on
for as long as other bytes come, with no fault. -/
def Obligations.BusyWait : Prop :=
  ∀ (s : State) (idx : CmdIndex), s.running →
    (∀ busy rest : List Byte, BusyEnds s.cfg busy → s.rx = busy ++ [0xFF] ++ rest →
      s.perform [.block (.busyStart idx)] = .next { s with
        rx := rest, trace := (receives (busy ++ [0xFF])).reverse ++ s.trace
        dp := { s.dp with poll := busy.length + 1 } }) ∧
    (∀ busy rest : List Byte, (∀ b ∈ busy, b ≠ 0xFF) → s.cfg.busyPollMax = some busy.length →
      s.rx = busy ++ rest →
      ∃ t, s.perform [.block (.busyStart idx)] = .next t ∧ t.rx = rest ∧ t.ocr = s.ocr ∧
        s.AfterHalt t { code := .busyTimeout, cmd := some idx } (receives busy ++ [.setcs .auto])) ∧
    ((∀ b ∈ s.rx, b ≠ 0xFF) → s.cfg.busyPollMax = none →
      s.perform [.block (.busyStart idx)] = .next { s with
        seq := .block (.busy idx) :: s.seq, rx := [], trace := (receives s.rx).reverse ++ s.trace
        dp := { s.dp with poll := s.rx.length } })

/-- R99, R142, R222, R224, R232: the one-byte rows complete. A received start token, data response or not-busy byte
ends its poll at the first read (that the byte arrives next is the model's reading of a received row, log entry 7). The
stop token is one byte, sent alone, and what it receives is discarded; the filler is 0xFF, and what it receives is
latched. -/
def Obligations.OneByteRowsRun : Prop :=
  (∀ s : State, s.running → 1 ≤ s.cfg.tokenPollMax →
    exec .startTokenRead s = .next { s with
      trace := .xchg 0xFF 0xFE :: s.trace, dp := { s.dp with poll := 1, ok := true } }) ∧
  (∀ (s : State) (v : BitVec 4), s.running → 1 ≤ s.cfg.drespPollMax →
    exec (.dataRespAccepted v) s = .next { s with
      trace := .xchg 0xFF (v ++ 0b0101#4) :: s.trace, dp := { s.dp with poll := 1 } }) ∧
  (∀ s : State, s.running → (∀ m, s.cfg.busyPollMax = some m → 1 ≤ m) →
    exec .notBusy s = .next { s with
      trace := .xchg 0xFF 0xFF :: s.trace, dp := { s.dp with poll := 1 } }) ∧
  (∀ (s : State) (b : Byte) (rest : List Byte), s.running → s.rx = b :: rest →
    exec .stopTokenMultiWrite s = .next { s with rx := rest, trace := .xchg 0xFD b :: s.trace }) ∧
  (∀ (s : State) (b : Byte) (rest : List Byte), s.running → s.rx = b :: rest →
    exec .filler s = .next { s with
      rx := rest, trace := .xchg 0xFF b :: s.trace, dp := { s.dp with data := b } })

/-! ### Transfers -/

/-- R225, R229, R234, R263: a single-block read succeeds after fewer than five failed attempts, each a CMD17, HOLD, a
failed data phase and AUTO; the buffer then holds exactly the good block, and no byte outside the buffer changes. -/
def Obligations.SingleReadSucceeds : Prop :=
  ∀ (s : State) (sector a : Word) (tries : List (Answer × ReadFailure)) (cmd : Answer) (b : DataBlock)
    (rest : List Byte), s.Serving opRead sector 1 → s.mem.wf → a = cardAddr s.cfg s.cap sector →
    tries.length < sreadAttempts → TriesFail s.cfg a tries →
    cmd.fits s.cfg (.cmd17 a) → cmd.accepted (.cmd17 a) = true → b.fits s.cfg → b.good →
    s.rx = tryBytes tries ++ cmd.bytes ++ b.bytes ++ rest →
    ∃ t, exec (.readReq sector 1) s = .next t ∧ s.AfterTransfer t opRead sector 1 ∧ t.rx = rest ∧
      s.Emits t (tryEvents a tries ++ cmd.events (.cmd17 a) ++ [.setcs .hold] ++ receives b.bytes ++
        [.setcs .auto]) ∧
      t.sectorData 0 = b.payload ∧ t.mem.wf ∧
      ∀ x, Buffer.contains s.req.buf x = false → t.mem.read x = s.mem.read x

/-- R225, R230, R305: five failed attempts halt with the code of the last failure, after exactly five CMD17 frames; a
rejected CMD17 halts at once, at whichever attempt. -/
def Obligations.SingleReadHalts : Prop :=
  (∀ (s : State) (sector a : Word) (tries : List (Answer × ReadFailure)) (last : Answer × ReadFailure)
    (rest : List Byte), s.Serving opRead sector 1 → s.mem.wf → a = cardAddr s.cfg s.cap sector →
    tries.length = 4 → TriesFail s.cfg a (tries ++ [last]) → s.rx = tryBytes (tries ++ [last]) ++ rest →
    ∃ t, exec (.readReq sector 1) s = .next t ∧ t.rx = rest ∧ t.ocr = s.ocr ∧
      s.AfterHalt t { code := last.2.code, cmd := some 17, attempt := some (attemptNo 5) } (tryEvents a (tries ++ [last])) ∧
      ∀ x, Buffer.contains s.req.buf x = false → t.mem.read x = s.mem.read x) ∧
  (∀ (s : State) (sector a : Word) (tries : List (Answer × ReadFailure)) (cmd : Answer) (rest : List Byte),
    s.Serving opRead sector 1 → s.mem.wf → a = cardAddr s.cfg s.cap sector → tries.length < 5 →
    TriesFail s.cfg a tries → cmd.fits s.cfg (.cmd17 a) → cmd.accepted (.cmd17 a) = false →
    s.rx = tryBytes tries ++ cmd.bytes ++ rest →
    ∃ t, exec (.readReq sector 1) s = .next t ∧ t.rx = rest ∧ t.ocr = s.ocr ∧
      s.AfterHalt t { code := .sreadCmd, cmd := some 17, attempt := some (attemptNo (tries.length + 1)) }
        (tryEvents a tries ++ cmd.events (.cmd17 a)) ∧
      ∀ x, Buffer.contains s.req.buf x = false → t.mem.read x = s.mem.read x)

/-- R226, R229, R263: a multi-block read of any count but 1, of 0 too: CMD18, HOLD and the pump, each sector with its
filler, CMD12, the busy wait and AUTO; sector k's payload stands at offset 512·k, and no byte outside the buffer
changes. -/
def Obligations.MultiReadSucceeds : Prop :=
  ∀ (s : State) (sector count a : Word) (cmd stop : Answer) (pump : Byte) (blocks : List (DataBlock × Byte))
    (busy rest : List Byte), s.Serving opRead sector count → s.mem.wf → a = cardAddr s.cfg s.cap sector →
    count ≠ 1 → count.toNat = blocks.length →
    cmd.fits s.cfg (.cmd18 a) → cmd.accepted (.cmd18 a) = true → (∀ p ∈ blocks, p.1.fits s.cfg ∧ p.1.good) →
    stop.fits s.cfg .cmd12 → BusyEnds s.cfg busy →
    s.rx = cmd.bytes ++ [pump] ++ sectorBytes blocks ++ stop.bytes ++ busyBytes busy ++ rest →
    ∃ t, exec (.readReq sector count) s = .next t ∧ s.AfterTransfer t opRead sector count ∧ t.rx = rest ∧
      s.Emits t (cmd.events (.cmd18 a) ++ [.setcs .hold] ++ receives ([pump] ++ sectorBytes blocks) ++
        stop.events .cmd12 ++ receives (busyBytes busy) ++ [.setcs .auto]) ∧
      (∀ (k : Nat) (h : k < blocks.length), t.sectorData k = blocks[k].1.payload) ∧ t.mem.wf ∧
      ∀ x, Buffer.contains s.req.buf x = false → t.mem.read x = s.mem.read x

/-- R226, R231, R305: a multi-block read is never retried: a rejected CMD18, or the first sector k without a start
token or with a bad CRC16, halts at once with k, and no CMD12 is sent. -/
def Obligations.MultiReadHalts : Prop :=
  ∀ (s : State) (sector count a : Word) (cmd : Answer) (rest : List Byte), s.Serving opRead sector count →
    s.mem.wf → a = cardAddr s.cfg s.cap sector → count ≠ 1 → cmd.fits s.cfg (.cmd18 a) →
    (cmd.accepted (.cmd18 a) = false → s.rx = cmd.bytes ++ rest →
      ∃ t, exec (.readReq sector count) s = .next t ∧ t.rx = rest ∧
        s.AfterHalt t { code := .mreadCmd, cmd := some 18 } (cmd.events (.cmd18 a))) ∧
    (∀ (pump : Byte) (blocks : List (DataBlock × Byte)), cmd.accepted (.cmd18 a) = true →
      blocks.length < count.toNat → (∀ p ∈ blocks, p.1.fits s.cfg ∧ p.1.good) →
      (∀ pre : List Byte, NoToken s.cfg pre →
        s.rx = cmd.bytes ++ [pump] ++ sectorBytes blocks ++ pre ++ rest →
        ∃ t, exec (.readReq sector count) s = .next t ∧ t.rx = rest ∧
          s.AfterHalt t
            { code := .mreadToken, cmd := some 18, unit := some (BitVec.ofNat 32 blocks.length) }
            (cmd.events (.cmd18 a) ++ [.setcs .hold] ++ receives ([pump] ++ sectorBytes blocks ++ pre) ++
              [.setcs .auto])) ∧
      (∀ b : DataBlock, b.fits s.cfg → ¬ b.good →
        s.rx = cmd.bytes ++ [pump] ++ sectorBytes blocks ++ b.bytes ++ rest →
        ∃ t, exec (.readReq sector count) s = .next t ∧ t.rx = rest ∧
          s.AfterHalt t
            { code := .mreadCrc, cmd := some 18, unit := some (BitVec.ofNat 32 blocks.length) }
            (cmd.events (.cmd18 a) ++ [.setcs .hold] ++ receives ([pump] ++ sectorBytes blocks ++ b.bytes) ++
              [.setcs .auto])))

/-- R227, R263: a single-block write: rejected CMD24s within the attempts, an accepted one, HOLD, the block of sector
0 with token 0xFE, the data response, the busy wait, AUTO. No byte of memory changes. -/
def Obligations.SingleWriteSucceeds : Prop :=
  ∀ (s : State) (sector a : Word) (fails : List Answer) (cmd : Answer) (w : WrittenBlock) (rest : List Byte),
    s.Serving opWrite sector 1 → a = cardAddr s.cfg s.cap sector → fails.length < s.cfg.swriteCmdAttempts →
    (∀ f ∈ fails, f.fits s.cfg (.cmd24 a) ∧ f.accepted (.cmd24 a) = false) →
    cmd.fits s.cfg (.cmd24 a) → cmd.accepted (.cmd24 a) = true → w.fits s.cfg →
    s.rx = fails.flatMap Answer.bytes ++ cmd.bytes ++ w.bytes ++ rest →
    ∃ t, exec (.writeReq sector 1) s = .next t ∧ s.AfterTransfer t opWrite sector 1 ∧ t.rx = rest ∧
      s.Emits t ((fails.flatMap fun f => f.events (.cmd24 a)) ++ cmd.events (.cmd24 a) ++ [.setcs .hold] ++
        writeEvents s 0xFE 0 [w] ++ [.setcs .auto]) ∧
      ∀ x, t.mem.read x = s.mem.read x

/-- R227, R224: CMD24 rejected at every attempt halts with E_SWRITE_CMD; a block whose data response is not "accepted"
halts with E_WRITE_REJECTED, sector 0 and the byte. The attempt field is the number of attempts where that is 1 to 255
(R28); R12 admits any number, and beyond the range it is a free value of the range, the model's choice (log entry
13). -/
def Obligations.SingleWriteHalts : Prop :=
  (∀ (s : State) (sector a : Word) (fails : List Answer) (rest : List Byte), s.Serving opWrite sector 1 →
    a = cardAddr s.cfg s.cap sector → 1 ≤ s.cfg.swriteCmdAttempts →
    fails.length = s.cfg.swriteCmdAttempts →
    (∀ f ∈ fails, f.fits s.cfg (.cmd24 a) ∧ f.accepted (.cmd24 a) = false) →
    s.rx = fails.flatMap Answer.bytes ++ rest →
    ∃ t, exec (.writeReq sector 1) s = .next t ∧ t.rx = rest ∧
      s.AfterHalt t { code := .swriteCmd, cmd := some 24, attempt := some (attemptNo s.cfg.swriteCmdAttempts) }
        (fails.flatMap fun f => f.events (.cmd24 a)) ∧
      ∀ x, t.mem.read x = s.mem.read x) ∧
  (∀ (s : State) (sector a : Word) (cmd : Answer) (ins : List Byte) (n : Nat) (b : Byte) (rest : List Byte),
    s.Serving opWrite sector 1 → a = cardAddr s.cfg s.cap sector →
    cmd.fits s.cfg (.cmd24 a) → cmd.accepted (.cmd24 a) = true → ins.length = blockBytes + 3 →
    n < s.cfg.drespPollMax → b ≠ 0xFF → b.extractLsb' 0 4 ≠ 0b0101#4 →
    s.rx = cmd.bytes ++ ins ++ List.replicate n 0xFF ++ [b] ++ rest →
    ∃ t, exec (.writeReq sector 1) s = .next t ∧ t.rx = rest ∧
      s.AfterHalt t { code := .writeRejected, cmd := some 24, unit := some 0, byte := some b }
        (cmd.events (.cmd24 a) ++ [.setcs .hold] ++ exchanges (blockOut 0xFE (s.sectorData 0)) ins ++
          receives (List.replicate n 0xFF ++ [b]) ++ [.setcs .auto]) ∧
      ∀ x, t.mem.read x = s.mem.read x)

/-- R228, R233, R263: a multi-block write of any count but 1, of 0 too: CMD25, HOLD and the pump, each sector's block
with token 0xFC, its data response and busy wait, the stop token, the busy wait and AUTO. No byte of memory
changes. -/
def Obligations.MultiWriteSucceeds : Prop :=
  ∀ (s : State) (sector count a : Word) (cmd : Answer) (pump last : Byte) (blocks : List WrittenBlock)
    (busy rest : List Byte), s.Serving opWrite sector count → a = cardAddr s.cfg s.cap sector →
    count ≠ 1 → count.toNat = blocks.length →
    cmd.fits s.cfg (.cmd25 a) → cmd.accepted (.cmd25 a) = true → (∀ w ∈ blocks, w.fits s.cfg) →
    BusyEnds s.cfg busy →
    s.rx = cmd.bytes ++ [pump] ++ blocks.flatMap WrittenBlock.bytes ++ [last] ++ busyBytes busy ++ rest →
    ∃ t, exec (.writeReq sector count) s = .next t ∧ s.AfterTransfer t opWrite sector count ∧ t.rx = rest ∧
      s.Emits t (cmd.events (.cmd25 a) ++ [.setcs .hold, .xchg 0xFF pump] ++ writeEvents s 0xFC 0 blocks ++
        [.xchg 0xFD last] ++ receives (busyBytes busy) ++ [.setcs .auto]) ∧
      ∀ x, t.mem.read x = s.mem.read x

/-- R228, R231, R224: a rejected CMD25, or the first sector k whose data response is not "accepted", halts at once,
with k, and no stop token is sent. -/
def Obligations.MultiWriteHalts : Prop :=
  ∀ (s : State) (sector count a : Word) (cmd : Answer) (rest : List Byte), s.Serving opWrite sector count →
    a = cardAddr s.cfg s.cap sector → count ≠ 1 → cmd.fits s.cfg (.cmd25 a) →
    (cmd.accepted (.cmd25 a) = false → s.rx = cmd.bytes ++ rest →
      ∃ t, exec (.writeReq sector count) s = .next t ∧ t.rx = rest ∧
        s.AfterHalt t { code := .mwriteCmd, cmd := some 25 } (cmd.events (.cmd25 a))) ∧
    (∀ (pump : Byte) (blocks : List WrittenBlock) (ins : List Byte) (n : Nat) (b : Byte),
      cmd.accepted (.cmd25 a) = true → blocks.length < count.toNat → (∀ w ∈ blocks, w.fits s.cfg) →
      ins.length = blockBytes + 3 → n < s.cfg.drespPollMax → b ≠ 0xFF → b.extractLsb' 0 4 ≠ 0b0101#4 →
      s.rx = cmd.bytes ++ [pump] ++ blocks.flatMap WrittenBlock.bytes ++ ins ++ List.replicate n 0xFF ++ [b] ++
        rest →
      ∃ t, exec (.writeReq sector count) s = .next t ∧ t.rx = rest ∧
        s.AfterHalt t
          { code := .writeRejected, cmd := some 25, unit := some (BitVec.ofNat 32 blocks.length), byte := some b }
          (cmd.events (.cmd25 a) ++ [.setcs .hold, .xchg 0xFF pump] ++ writeEvents s 0xFC 0 blocks ++
            exchanges (blockOut 0xFC (s.sectorData blocks.length)) ins ++
            receives (List.replicate n 0xFF ++ [b]) ++ [.setcs .auto]))

/-! ### Façade -/

/-- R261, R262, R264: a submission writes the host's pending entry exactly where the host has none and the request is
admitted; otherwise nothing changes. In every phase; no event. Three points are the model's choice: condition 3 of
R261 is judged with the capacity class of this moment (log entry 11), a host that does not exist changes nothing (log
entry 10), and the submission is the head of the schedule, which the step takes off (log entry 9). -/
def Obligations.SubmitStep : Prop :=
  ∀ (s : State) (h : Nat) (r : Request) (rest : List Input), s.inputs = .submit h r :: rest →
    ((h < s.pending.length ∧ s.pendingOf h = none ∧ (r.op = 0x01 ∨ r.op = 0x02) ∧
        r.buf.len = 512 * r.count.toNat ∧
        (if s.cap = .standard ∧ s.cfg.scaleStandard = true then r.sector.toNat * 512 else r.sector.toNat) < 2 ^ 32) →
      step s = .next { s with inputs := rest, pending := s.pending.set h (some r) }) ∧
    (¬ (h < s.pending.length ∧ s.pendingOf h = none ∧ (r.op = 0x01 ∨ r.op = 0x02) ∧
        r.buf.len = 512 * r.count.toNat ∧
        (if s.cap = .standard ∧ s.cfg.scaleStandard = true then r.sector.toNat * 512 else r.sector.toNat) < 2 ^ 32) →
      step s = .next { s with inputs := rest })

/-- R265, R260, R268: in READY with the guard free the arbiter grants one waiting host, whichever it is: guard,
request registers, phase, event, and `SERVE` next; with no host waiting the core idles. -/
def Obligations.GrantStep : Prop :=
  ∀ s : State, s.phase = .ready → s.guard = none → s.seq = [] → s.inputs = [] → s.opWord = none →
    ((∃ h, (s.pendingOf h).isSome = true) →
      ∃ (h n : Nat) (r : Request), s.pendingOf h = some r ∧ step s = .next { s with
        guard := some h, phase := .busy, trace := .grant h :: s.trace
        req := { host := h, op := r.op, sector := r.sector, count := r.count, buf := r.buf,
                 addr := cardAddr s.cfg s.cap r.sector }
        seq := [.host .serve, .host .release], arbTurn := n }) ∧
    ((∀ h, s.pendingOf h = none) → step s = .next s)

/-- R262, R263: `SERVE` dispatches on exactly `sector_count == 1`, with the card address of R262. The model's choice (log
entry 12): `SERVE` is a step of its own, and it writes `req.addr` again, which the grant has latched already (R260). -/
def Obligations.ServeDispatches : Prop :=
  ∀ (s : State) (rest : List Line), s.running → s.inputs = [] → s.opWord = none → s.seq = .host .serve :: rest →
    ∃ (a : Word) (l : Line),
      a = (if s.cap = .standard ∧ s.cfg.scaleStandard = true then BitVec.ofNat 32 (s.req.sector.toNat * 512)
        else s.req.sector) ∧
      l = (if s.req.op = 0x01 then
          (if s.req.count = 1 then .transfer (.singleRead a) else .transfer (.multiRead a s.req.count))
        else (if s.req.count = 1 then .transfer (.singleWrite a) else .transfer (.multiWrite a s.req.count))) ∧
      step s = .next { s with req := { s.req with addr := a }, seq := l :: rest }

/-- R266: the release frees the guard, clears the pending entry, returns to READY and emits RELEASE and DONE. -/
def Obligations.ReleaseStep : Prop :=
  ∀ (s : State) (rest : List Line), s.running → s.inputs = [] → s.opWord = none →
    s.seq = .host .release :: rest →
    step s = .next { s with
      guard := none, pending := s.pending.set s.req.host none, phase := .ready, seq := rest
      trace := .done s.req.host s.req.op :: .release s.req.host :: s.trace }

/-- R74, R265, R266: a granted request whose service returns runs, step by step, to its release and its DONE. -/
def Obligations.ServedRequestIsReleased : Prop :=
  ∀ s t : State, s.phase = .busy → s.seq = [.host .release] →
    s.perform [.host .serve] = .next t → t.phase = .busy → t.seq = [.host .release] →
    ∃ n, ticks n (s.push [.host .serve]) = .next { t with
      guard := none, pending := t.pending.set t.req.host none, phase := .ready, seq := []
      trace := .done t.req.host t.req.op :: .release t.req.host :: t.trace }

/-- R267, R265, R22: a grant happens only in READY with the guard free, to a host with a request pending; transport
events happen in bring-up with the guard free, or in BUSY, where they belong to the host that holds the guard and
keeps it in that step. No event is taken back. -/
def Obligations.GuardExclusive : Prop :=
  ∀ s t : State, s.Disciplined → step s = .next t →
    ∃ es : List Event, t.trace = es ++ s.trace ∧
      (∀ h, Event.grant h ∈ es → s.phase = .ready ∧ s.guard = none ∧ (s.pendingOf h).isSome = true ∧
        t.guard = some h ∧ es = [.grant h]) ∧
      (∀ e ∈ es, e.isTransport = true →
        (s.phase = .bringup ∧ s.guard = none) ∨
        (s.phase = .busy ∧ s.guard = some s.req.host ∧ t.guard = s.guard))

/-- R261, R262, R343: a request that is not admitted, and bring-up out of READY or BUSY, have no meaning: a request word,
granted or not, whose address would not fit in 32 bits; and a granted request whose latched buffer has another length.
That each is a refusal under a name of its own is the model's choice (log entry 22), and so is judging a granted request
again where its word is served (log entry 11). -/
def Obligations.UnservableRefused : Prop :=
  (∀ (i : Instr) (op : Byte) (sector count : Word) (s : State),
    (i = .readReq sector count ∧ op = 0x01 ∨ i = .writeReq sector count ∧ op = 0x02) →
    2 ^ 32 ≤ addrExact s.cfg s.cap sector ∨
      (s.isGranted op sector count ∧ s.req.buf.len ≠ 512 * count.toNat) →
    exec i s = .refused .notAdmitted) ∧
  (∀ s : State, s.phase = .ready ∨ s.phase = .busy → exec .bringup s = .refused .bringupOnlyFromReset)

/-- R20, R60, R62, R80: a step of the core changes no byte of memory outside the granted request's buffer, and none at
all unless the request's host holds the guard; a host's own write changes only the byte it names, and none inside a
pending request's buffer. The model's choice: a write into a pending buffer is a step that changes nothing (log entry
9), and memory is one canonical list, `Memory.wf` (log entry 4). -/
def Obligations.MemoryIsolation : Prop :=
  (∀ s t : State, s.Disciplined → tick s = .next t → ∀ x, t.mem.read x ≠ s.mem.read x →
    Buffer.contains s.req.buf x = true ∧ s.phase = .busy ∧ s.guard = some s.req.host) ∧
  (∀ (s : State) (a : Nat) (v : Byte) (rest : List Input), s.mem.wf → s.inputs = .hostWrite a v :: rest →
    ∃ m : Memory, step s = .next { s with inputs := rest, mem := m } ∧ m.wf ∧
      (s.inPendingBuffer a = true → m = s.mem) ∧
      (s.inPendingBuffer a = false → m.read a = v ∧ ∀ x, x ≠ a → m.read x = s.mem.read x))

/-! ### Faults, reset, steps -/

/-- R300, R302: `raise Fatal` writes the record, the phase and the event, and nothing else. R28: the attempt field
is the attempt's number, 1 to 255; beyond that range it is a free value of the range (log entry 13). -/
def Obligations.RaiseFatal : Prop :=
  (∀ (s : State) (r : FaultRecord) (rest : List Line), s.running → s.inputs = [] → s.opWord = none →
    s.seq = .halt (.raise r) :: rest →
    step s = .next { s with
      fault := some r, phase := .halted, seq := rest, trace := .halt r :: s.trace }) ∧
  ∀ n : Nat, 1 ≤ (attemptNo n).val ∧ (attemptNo n).val ≤ 255 ∧ (1 ≤ n → n ≤ 255 → (attemptNo n).val = n)

/-- R303, R307, R271, R264: in HALTED no step of the core is enabled; only reset leaves it; and no operation runs. The
model's choice: that the step is the named fault `halted`, while a turn of the core that the schedule names passes
without effect (log entry 17), and that a request word performed in HALTED, where it is not the granted request, is its
host's submission and stays pending, the one word with an effect there (log entry 22). -/
def Obligations.HaltedIsSticky : Prop :=
  ∀ s : State, s.phase = .halted →
    (s.inputs = [] → step s = .fault .halted) ∧
    (∀ t, step s = .next t → (∃ rest, s.inputs = .assertReset :: rest) ∨
      (t.phase = .halted ∧ t.fault = s.fault ∧ t.trace = s.trace ∧ t.guard = s.guard ∧ t.cap = s.cap ∧
        t.ready = s.ready ∧ t.ocr = s.ocr ∧ t.csMode = s.csMode ∧ t.seq = s.seq ∧ t.dp = s.dp ∧ t.req = s.req)) ∧
    ∀ (i : Instr) (t : State), exec i s = .next t →
      (∃ (op : Byte) (sector count : Word),
        (i = .readReq sector count ∧ op = 0x01 ∨ i = .writeReq sector count ∧ op = 0x02) ∧
          ¬ s.isGranted op sector count) ∧
        t = { s with pending := t.pending } ∧ ∀ g, g ≠ s.port.host → t.pendingOf g = s.pendingOf g

/-- R35, R340: the state while reset is asserted, at power-up and from any state; no event, and what is pending is
lost; its release starts bring-up at its first line. The model's choice: a reset keeps the trace, the rest of the
schedule and the parameters (log entry 15), and the release is the next turn of the core (log entry 17). -/
def Obligations.ResetState : Prop :=
  (∀ t : State, (t = State.reset ∨ ∃ (s : State) (rest : List Input), s.inputs = .assertReset :: rest ∧
      step s = .next t) →
    t.phase = .reset ∧ t.seq = [.bringup .start] ∧ t.cap = .standard ∧ t.blockLen = 512 ∧ t.ready = false ∧
    t.csMode = .auto ∧ t.fault = none ∧ t.ocr = none ∧ t.guard = none ∧ ∀ h, t.pendingOf h = none) ∧
  (∀ (s : State) (rest : List Input), s.inputs = .assertReset :: rest →
    ∃ t, step s = .next t ∧ t.trace = s.trace ∧ t.inputs = rest ∧ t.cfg = s.cfg) ∧
  (∀ s : State, s.phase = .reset → s.inputs = [] → step s = .next { s with phase := .bringup })

/-- Reset meets both invariants. The canonical form of memory is the model's (log entry 4). -/
def Obligations.ResetMeetsInvariants : Prop :=
  State.reset.Inv ∧ State.reset.Disciplined ∧
  ∀ s : State, s.Inv → s.assertReset.Inv ∧ s.assertReset.Disciplined

/-- R24, R26, R28, R32: every step keeps the data invariant, from every state that meets it: memory stays canonical,
`st.block_len` stays 512, `st.phase = HALTED` exactly when there is a fault, one pending entry a host, and DISABLED is
never written. -/
def Obligations.StepKeepsInv : Prop :=
  ∀ s t : State, s.Inv → step s = .next t → t.Inv

/-- R22, R25, R31, R265 to R267: every step keeps the control invariant, from every state that meets it: no guard
before READY, none in READY, and in BUSY exactly the granted host's, with its request pending and the release the last
line to run. -/
def Obligations.StepKeepsDisciplined : Prop :=
  ∀ s t : State, s.Disciplined → step s = .next t → t.Disciplined

/-- R69, R70, R10: a step of the core either receives no byte and emits no exchange, or takes exactly the next byte and
emits exactly that exchange; none is merged, dropped, reordered or repeated, and at most one chip-select change is
made. -/
def Obligations.OneExchangePerStep : Prop :=
  ∀ s t : State, tick s = .next t →
    (∃ es : List Event, t.trace = es ++ s.trace ∧ t.rx = s.rx ∧ (∀ o i, Event.xchg o i ∉ es) ∧
      (es.filter Event.isTransport).length ≤ 1) ∨
    (∃ (o i : Byte), s.rx = i :: t.rx ∧ t.trace = .xchg o i :: s.trace)

/-- R3, R9: performing an operation as a unit is a run of the core's single steps. -/
def Obligations.UnitIsARunOfSteps : Prop :=
  ∀ (s t : State) (ls : List Line), s.perform ls = .next t → ∃ n, ticks n (s.push ls) = .next t

/-- Where an operation word is placed and decodes to an instruction, the step is that instruction; where it decodes to
none the step is refused by name; with no word placed the step is the sequencer's. A table word placed after reset is
performed by the very next step (log entry 5). The model's choice: a byte placed in a one-byte context that the poll in
progress would skip or judge, or that its procedure never sends, decodes to no instruction (log entry 25). -/
def Obligations.StepRunsDecoded : Prop :=
  (∀ (s : State) (w : OpWord) (i : Instr), s.running → s.inputs = [] → s.opWord = some w →
    decodeIn w.ctx w.bytes = .ok i → step s = exec i { s with opWord := none }) ∧
  (∀ (s : State) (w : OpWord) (r : Reject), s.running → s.inputs = [] → s.opWord = some w →
    decodeIn w.ctx w.bytes = .error r → step s = .refused (.illegalWord r)) ∧
  (∀ s : State, s.inputs = [] → s.opWord = none → step s = tick s) ∧
  (∀ (nbits w : Nat) (i : Instr), decodeTableWord nbits w = some i →
    step (State.reset.withFetchWord nbits w) = exec i { State.reset.withFetchWord nbits w with opWord := none } ∧
    (State.reset.withFetchWord nbits w).running)

/-- R264, R265, R271, R32: a request word that is not the granted request. Where its host has nothing pending and it is
admitted, it is submitted, in every phase, and while another host holds the guard too; a host with a request pending is
blocked, and nothing happens, nor for a host that does not exist (log entry 10). In READY with the guard free and no other
host waiting, it is granted at once: what its service leaves is then released, with RELEASE and DONE, or the core has
halted. The model's choice (log entry 22): the host and the buffer's place are those at the request port, which are no
part of the word, and the word is the granted request exactly where that host holds the guard for the same operation,
sector and count. -/
def Obligations.RequestWordSubmits : Prop :=
  ∀ (i : Instr) (op : Byte) (sector count : Word) (s : State) (r : Request) (h : Nat),
    (i = .readReq sector count ∧ op = 0x01 ∨ i = .writeReq sector count ∧ op = 0x02) →
    ¬ s.isGranted op sector count → addrExact s.cfg s.cap sector < 2 ^ 32 → h = s.port.host →
    r = { op := op, sector := sector, count := count, buf := ⟨s.port.base, 512 * count.toNat⟩ } →
    (h < s.pending.length → s.pendingOf h = none → s.phase ≠ .ready ∨ s.guard ≠ none →
      exec i s = .next { s with pending := s.pending.set h (some r) }) ∧
    (s.pendingOf h ≠ none ∨ s.pending.length ≤ h → exec i s = .next s) ∧
    (h < s.pending.length → (∀ g, s.pendingOf g = none) → s.phase = .ready → s.guard = none → s.seq = [] →
      ∀ (granted u : State), granted = { s with
          guard := some h, phase := .busy, pending := s.pending.set h (some r), trace := .grant h :: s.trace
          req := { host := h, op := op, sector := sector, count := count, buf := r.buf,
                   addr := cardAddr s.cfg s.cap sector }
          seq := [.host .release] } →
        exec i granted = .next u →
        (u.phase = .busy → u.seq = [.host .release] →
          exec i s = .next { u with
            guard := none, pending := u.pending.set u.req.host none, phase := .ready, seq := []
            trace := .done u.req.host u.req.op :: .release u.req.host :: u.trace }) ∧
        (u.phase = .halted → exec i s = .next u))
end

