-- ==== Sys2Proof/Laws/State.lean ====
section
/-!
SUPPORT. One lemma per field of State for each update of Machine/Ops.lean, so that no proof unfolds a record
update; and the updates as they pass each other.
-/

namespace Sys2Proof.Machine

variable (s : State)

/-! ### `push` -/

@[simp] theorem State.push_cfg (ls : List Line) : (s.push ls).cfg = s.cfg := rfl
@[simp] theorem State.push_phase (ls : List Line) : (s.push ls).phase = s.phase := rfl
@[simp] theorem State.push_seq (ls : List Line) : (s.push ls).seq = ls ++ s.seq := rfl
@[simp] theorem State.push_cap (ls : List Line) : (s.push ls).cap = s.cap := rfl
@[simp] theorem State.push_blockLen (ls : List Line) : (s.push ls).blockLen = s.blockLen := rfl
@[simp] theorem State.push_ready (ls : List Line) : (s.push ls).ready = s.ready := rfl
@[simp] theorem State.push_csMode (ls : List Line) : (s.push ls).csMode = s.csMode := rfl
@[simp] theorem State.push_fault (ls : List Line) : (s.push ls).fault = s.fault := rfl
@[simp] theorem State.push_ocr (ls : List Line) : (s.push ls).ocr = s.ocr := rfl
@[simp] theorem State.push_dp (ls : List Line) : (s.push ls).dp = s.dp := rfl
@[simp] theorem State.push_req (ls : List Line) : (s.push ls).req = s.req := rfl
@[simp] theorem State.push_guard (ls : List Line) : (s.push ls).guard = s.guard := rfl
@[simp] theorem State.push_pending (ls : List Line) : (s.push ls).pending = s.pending := rfl
@[simp] theorem State.push_mem (ls : List Line) : (s.push ls).mem = s.mem := rfl
@[simp] theorem State.push_trace (ls : List Line) : (s.push ls).trace = s.trace := rfl
@[simp] theorem State.push_rx (ls : List Line) : (s.push ls).rx = s.rx := rfl
@[simp] theorem State.push_inputs (ls : List Line) : (s.push ls).inputs = s.inputs := rfl
@[simp] theorem State.push_arbTurn (ls : List Line) : (s.push ls).arbTurn = s.arbTurn := rfl
@[simp] theorem State.push_opWord (ls : List Line) : (s.push ls).opWord = s.opWord := rfl
@[simp] theorem State.push_port (ls : List Line) : (s.push ls).port = s.port := rfl

/-! ### `emit` -/

@[simp] theorem State.emit_cfg (e : Event) : (s.emit e).cfg = s.cfg := rfl
@[simp] theorem State.emit_phase (e : Event) : (s.emit e).phase = s.phase := rfl
@[simp] theorem State.emit_seq (e : Event) : (s.emit e).seq = s.seq := rfl
@[simp] theorem State.emit_cap (e : Event) : (s.emit e).cap = s.cap := rfl
@[simp] theorem State.emit_blockLen (e : Event) : (s.emit e).blockLen = s.blockLen := rfl
@[simp] theorem State.emit_ready (e : Event) : (s.emit e).ready = s.ready := rfl
@[simp] theorem State.emit_csMode (e : Event) : (s.emit e).csMode = s.csMode := rfl
@[simp] theorem State.emit_fault (e : Event) : (s.emit e).fault = s.fault := rfl
@[simp] theorem State.emit_ocr (e : Event) : (s.emit e).ocr = s.ocr := rfl
@[simp] theorem State.emit_dp (e : Event) : (s.emit e).dp = s.dp := rfl
@[simp] theorem State.emit_req (e : Event) : (s.emit e).req = s.req := rfl
@[simp] theorem State.emit_guard (e : Event) : (s.emit e).guard = s.guard := rfl
@[simp] theorem State.emit_pending (e : Event) : (s.emit e).pending = s.pending := rfl
@[simp] theorem State.emit_mem (e : Event) : (s.emit e).mem = s.mem := rfl
@[simp] theorem State.emit_trace (e : Event) : (s.emit e).trace = e :: s.trace := rfl
@[simp] theorem State.emit_rx (e : Event) : (s.emit e).rx = s.rx := rfl
@[simp] theorem State.emit_inputs (e : Event) : (s.emit e).inputs = s.inputs := rfl
@[simp] theorem State.emit_arbTurn (e : Event) : (s.emit e).arbTurn = s.arbTurn := rfl
@[simp] theorem State.emit_opWord (e : Event) : (s.emit e).opWord = s.opWord := rfl
@[simp] theorem State.emit_port (e : Event) : (s.emit e).port = s.port := rfl

/-! ### `setDp` -/

@[simp] theorem State.setDp_cfg (f : Datapath → Datapath) : (s.setDp f).cfg = s.cfg := rfl
@[simp] theorem State.setDp_phase (f : Datapath → Datapath) : (s.setDp f).phase = s.phase := rfl
@[simp] theorem State.setDp_seq (f : Datapath → Datapath) : (s.setDp f).seq = s.seq := rfl
@[simp] theorem State.setDp_cap (f : Datapath → Datapath) : (s.setDp f).cap = s.cap := rfl
@[simp] theorem State.setDp_blockLen (f : Datapath → Datapath) : (s.setDp f).blockLen = s.blockLen := rfl
@[simp] theorem State.setDp_ready (f : Datapath → Datapath) : (s.setDp f).ready = s.ready := rfl
@[simp] theorem State.setDp_csMode (f : Datapath → Datapath) : (s.setDp f).csMode = s.csMode := rfl
@[simp] theorem State.setDp_fault (f : Datapath → Datapath) : (s.setDp f).fault = s.fault := rfl
@[simp] theorem State.setDp_ocr (f : Datapath → Datapath) : (s.setDp f).ocr = s.ocr := rfl
@[simp] theorem State.setDp_dp (f : Datapath → Datapath) : (s.setDp f).dp = f s.dp := rfl
@[simp] theorem State.setDp_req (f : Datapath → Datapath) : (s.setDp f).req = s.req := rfl
@[simp] theorem State.setDp_guard (f : Datapath → Datapath) : (s.setDp f).guard = s.guard := rfl
@[simp] theorem State.setDp_pending (f : Datapath → Datapath) : (s.setDp f).pending = s.pending := rfl
@[simp] theorem State.setDp_mem (f : Datapath → Datapath) : (s.setDp f).mem = s.mem := rfl
@[simp] theorem State.setDp_trace (f : Datapath → Datapath) : (s.setDp f).trace = s.trace := rfl
@[simp] theorem State.setDp_rx (f : Datapath → Datapath) : (s.setDp f).rx = s.rx := rfl
@[simp] theorem State.setDp_inputs (f : Datapath → Datapath) : (s.setDp f).inputs = s.inputs := rfl
@[simp] theorem State.setDp_arbTurn (f : Datapath → Datapath) : (s.setDp f).arbTurn = s.arbTurn := rfl
@[simp] theorem State.setDp_opWord (f : Datapath → Datapath) : (s.setDp f).opWord = s.opWord := rfl
@[simp] theorem State.setDp_port (f : Datapath → Datapath) : (s.setDp f).port = s.port := rfl

/-! ### `result` -/

@[simp] theorem State.result_cfg (b : Bool) : (s.result b).cfg = s.cfg := rfl
@[simp] theorem State.result_phase (b : Bool) : (s.result b).phase = s.phase := rfl
@[simp] theorem State.result_seq (b : Bool) : (s.result b).seq = s.seq := rfl
@[simp] theorem State.result_cap (b : Bool) : (s.result b).cap = s.cap := rfl
@[simp] theorem State.result_blockLen (b : Bool) : (s.result b).blockLen = s.blockLen := rfl
@[simp] theorem State.result_ready (b : Bool) : (s.result b).ready = s.ready := rfl
@[simp] theorem State.result_csMode (b : Bool) : (s.result b).csMode = s.csMode := rfl
@[simp] theorem State.result_fault (b : Bool) : (s.result b).fault = s.fault := rfl
@[simp] theorem State.result_ocr (b : Bool) : (s.result b).ocr = s.ocr := rfl
@[simp] theorem State.result_dp (b : Bool) : (s.result b).dp = { s.dp with ok := b } := rfl
@[simp] theorem State.result_req (b : Bool) : (s.result b).req = s.req := rfl
@[simp] theorem State.result_guard (b : Bool) : (s.result b).guard = s.guard := rfl
@[simp] theorem State.result_pending (b : Bool) : (s.result b).pending = s.pending := rfl
@[simp] theorem State.result_mem (b : Bool) : (s.result b).mem = s.mem := rfl
@[simp] theorem State.result_trace (b : Bool) : (s.result b).trace = s.trace := rfl
@[simp] theorem State.result_rx (b : Bool) : (s.result b).rx = s.rx := rfl
@[simp] theorem State.result_inputs (b : Bool) : (s.result b).inputs = s.inputs := rfl
@[simp] theorem State.result_arbTurn (b : Bool) : (s.result b).arbTurn = s.arbTurn := rfl
@[simp] theorem State.result_opWord (b : Bool) : (s.result b).opWord = s.opWord := rfl
@[simp] theorem State.result_port (b : Bool) : (s.result b).port = s.port := rfl

/-! ### `setCs` -/

@[simp] theorem State.setCs_cfg (m : CsMode) : (s.setCs m).cfg = s.cfg := rfl
@[simp] theorem State.setCs_phase (m : CsMode) : (s.setCs m).phase = s.phase := rfl
@[simp] theorem State.setCs_seq (m : CsMode) : (s.setCs m).seq = s.seq := rfl
@[simp] theorem State.setCs_cap (m : CsMode) : (s.setCs m).cap = s.cap := rfl
@[simp] theorem State.setCs_blockLen (m : CsMode) : (s.setCs m).blockLen = s.blockLen := rfl
@[simp] theorem State.setCs_ready (m : CsMode) : (s.setCs m).ready = s.ready := rfl
@[simp] theorem State.setCs_csMode (m : CsMode) : (s.setCs m).csMode = m := rfl
@[simp] theorem State.setCs_fault (m : CsMode) : (s.setCs m).fault = s.fault := rfl
@[simp] theorem State.setCs_ocr (m : CsMode) : (s.setCs m).ocr = s.ocr := rfl
@[simp] theorem State.setCs_dp (m : CsMode) : (s.setCs m).dp = s.dp := rfl
@[simp] theorem State.setCs_req (m : CsMode) : (s.setCs m).req = s.req := rfl
@[simp] theorem State.setCs_guard (m : CsMode) : (s.setCs m).guard = s.guard := rfl
@[simp] theorem State.setCs_pending (m : CsMode) : (s.setCs m).pending = s.pending := rfl
@[simp] theorem State.setCs_mem (m : CsMode) : (s.setCs m).mem = s.mem := rfl
@[simp] theorem State.setCs_trace (m : CsMode) : (s.setCs m).trace = .setcs m :: s.trace := rfl
@[simp] theorem State.setCs_rx (m : CsMode) : (s.setCs m).rx = s.rx := rfl
@[simp] theorem State.setCs_inputs (m : CsMode) : (s.setCs m).inputs = s.inputs := rfl
@[simp] theorem State.setCs_arbTurn (m : CsMode) : (s.setCs m).arbTurn = s.arbTurn := rfl
@[simp] theorem State.setCs_opWord (m : CsMode) : (s.setCs m).opWord = s.opWord := rfl
@[simp] theorem State.setCs_port (m : CsMode) : (s.setCs m).port = s.port := rfl

/-! ### `exchanged` -/

@[simp] theorem State.exchanged_cfg (o i : Byte) (r : List Byte) : (s.exchanged o i r).cfg = s.cfg := rfl
@[simp] theorem State.exchanged_phase (o i : Byte) (r : List Byte) : (s.exchanged o i r).phase = s.phase := rfl
@[simp] theorem State.exchanged_seq (o i : Byte) (r : List Byte) : (s.exchanged o i r).seq = s.seq := rfl
@[simp] theorem State.exchanged_cap (o i : Byte) (r : List Byte) : (s.exchanged o i r).cap = s.cap := rfl
@[simp] theorem State.exchanged_blockLen (o i : Byte) (r : List Byte) : (s.exchanged o i r).blockLen = s.blockLen := rfl
@[simp] theorem State.exchanged_ready (o i : Byte) (r : List Byte) : (s.exchanged o i r).ready = s.ready := rfl
@[simp] theorem State.exchanged_csMode (o i : Byte) (r : List Byte) : (s.exchanged o i r).csMode = s.csMode := rfl
@[simp] theorem State.exchanged_fault (o i : Byte) (r : List Byte) : (s.exchanged o i r).fault = s.fault := rfl
@[simp] theorem State.exchanged_ocr (o i : Byte) (r : List Byte) : (s.exchanged o i r).ocr = s.ocr := rfl
@[simp] theorem State.exchanged_dp (o i : Byte) (r : List Byte) : (s.exchanged o i r).dp = s.dp := rfl
@[simp] theorem State.exchanged_req (o i : Byte) (r : List Byte) : (s.exchanged o i r).req = s.req := rfl
@[simp] theorem State.exchanged_guard (o i : Byte) (r : List Byte) : (s.exchanged o i r).guard = s.guard := rfl
@[simp] theorem State.exchanged_pending (o i : Byte) (r : List Byte) : (s.exchanged o i r).pending = s.pending := rfl
@[simp] theorem State.exchanged_mem (o i : Byte) (r : List Byte) : (s.exchanged o i r).mem = s.mem := rfl
@[simp] theorem State.exchanged_trace (o i : Byte) (r : List Byte) : (s.exchanged o i r).trace = .xchg o i :: s.trace := rfl
@[simp] theorem State.exchanged_rx (o i : Byte) (r : List Byte) : (s.exchanged o i r).rx = r := rfl
@[simp] theorem State.exchanged_inputs (o i : Byte) (r : List Byte) : (s.exchanged o i r).inputs = s.inputs := rfl
@[simp] theorem State.exchanged_arbTurn (o i : Byte) (r : List Byte) : (s.exchanged o i r).arbTurn = s.arbTurn := rfl
@[simp] theorem State.exchanged_opWord (o i : Byte) (r : List Byte) : (s.exchanged o i r).opWord = s.opWord := rfl
@[simp] theorem State.exchanged_port (o i : Byte) (r : List Byte) : (s.exchanged o i r).port = s.port := rfl

/-! ### `raiseFatal` -/

@[simp] theorem State.raiseFatal_cfg (r : FaultRecord) : (s.raiseFatal r).cfg = s.cfg := rfl
@[simp] theorem State.raiseFatal_phase (r : FaultRecord) : (s.raiseFatal r).phase = .halted := rfl
@[simp] theorem State.raiseFatal_seq (r : FaultRecord) : (s.raiseFatal r).seq = s.seq := rfl
@[simp] theorem State.raiseFatal_cap (r : FaultRecord) : (s.raiseFatal r).cap = s.cap := rfl
@[simp] theorem State.raiseFatal_blockLen (r : FaultRecord) : (s.raiseFatal r).blockLen = s.blockLen := rfl
@[simp] theorem State.raiseFatal_ready (r : FaultRecord) : (s.raiseFatal r).ready = s.ready := rfl
@[simp] theorem State.raiseFatal_csMode (r : FaultRecord) : (s.raiseFatal r).csMode = s.csMode := rfl
@[simp] theorem State.raiseFatal_fault (r : FaultRecord) : (s.raiseFatal r).fault = some r := rfl
@[simp] theorem State.raiseFatal_ocr (r : FaultRecord) : (s.raiseFatal r).ocr = s.ocr := rfl
@[simp] theorem State.raiseFatal_dp (r : FaultRecord) : (s.raiseFatal r).dp = s.dp := rfl
@[simp] theorem State.raiseFatal_req (r : FaultRecord) : (s.raiseFatal r).req = s.req := rfl
@[simp] theorem State.raiseFatal_guard (r : FaultRecord) : (s.raiseFatal r).guard = s.guard := rfl
@[simp] theorem State.raiseFatal_pending (r : FaultRecord) : (s.raiseFatal r).pending = s.pending := rfl
@[simp] theorem State.raiseFatal_mem (r : FaultRecord) : (s.raiseFatal r).mem = s.mem := rfl
@[simp] theorem State.raiseFatal_trace (r : FaultRecord) : (s.raiseFatal r).trace = .halt r :: s.trace := rfl
@[simp] theorem State.raiseFatal_rx (r : FaultRecord) : (s.raiseFatal r).rx = s.rx := rfl
@[simp] theorem State.raiseFatal_inputs (r : FaultRecord) : (s.raiseFatal r).inputs = s.inputs := rfl
@[simp] theorem State.raiseFatal_arbTurn (r : FaultRecord) : (s.raiseFatal r).arbTurn = s.arbTurn := rfl
@[simp] theorem State.raiseFatal_opWord (r : FaultRecord) : (s.raiseFatal r).opWord = s.opWord := rfl
@[simp] theorem State.raiseFatal_port (r : FaultRecord) : (s.raiseFatal r).port = s.port := rfl

/-! ### `releaseReset` -/

@[simp] theorem State.releaseReset_cfg : (s.releaseReset).cfg = s.cfg := rfl
@[simp] theorem State.releaseReset_phase : (s.releaseReset).phase = .bringup := rfl
@[simp] theorem State.releaseReset_seq : (s.releaseReset).seq = s.seq := rfl
@[simp] theorem State.releaseReset_cap : (s.releaseReset).cap = s.cap := rfl
@[simp] theorem State.releaseReset_blockLen : (s.releaseReset).blockLen = s.blockLen := rfl
@[simp] theorem State.releaseReset_ready : (s.releaseReset).ready = s.ready := rfl
@[simp] theorem State.releaseReset_csMode : (s.releaseReset).csMode = s.csMode := rfl
@[simp] theorem State.releaseReset_fault : (s.releaseReset).fault = s.fault := rfl
@[simp] theorem State.releaseReset_ocr : (s.releaseReset).ocr = s.ocr := rfl
@[simp] theorem State.releaseReset_dp : (s.releaseReset).dp = s.dp := rfl
@[simp] theorem State.releaseReset_req : (s.releaseReset).req = s.req := rfl
@[simp] theorem State.releaseReset_guard : (s.releaseReset).guard = s.guard := rfl
@[simp] theorem State.releaseReset_pending : (s.releaseReset).pending = s.pending := rfl
@[simp] theorem State.releaseReset_mem : (s.releaseReset).mem = s.mem := rfl
@[simp] theorem State.releaseReset_trace : (s.releaseReset).trace = s.trace := rfl
@[simp] theorem State.releaseReset_rx : (s.releaseReset).rx = s.rx := rfl
@[simp] theorem State.releaseReset_inputs : (s.releaseReset).inputs = s.inputs := rfl
@[simp] theorem State.releaseReset_arbTurn : (s.releaseReset).arbTurn = s.arbTurn := rfl
@[simp] theorem State.releaseReset_opWord : (s.releaseReset).opWord = s.opWord := rfl
@[simp] theorem State.releaseReset_port : (s.releaseReset).port = s.port := rfl

/-! ### `arrive` -/

@[simp] theorem State.arrive_cfg (b : Byte) : (s.arrive b).cfg = s.cfg := rfl
@[simp] theorem State.arrive_phase (b : Byte) : (s.arrive b).phase = s.phase := rfl
@[simp] theorem State.arrive_seq (b : Byte) : (s.arrive b).seq = s.seq := rfl
@[simp] theorem State.arrive_cap (b : Byte) : (s.arrive b).cap = s.cap := rfl
@[simp] theorem State.arrive_blockLen (b : Byte) : (s.arrive b).blockLen = s.blockLen := rfl
@[simp] theorem State.arrive_ready (b : Byte) : (s.arrive b).ready = s.ready := rfl
@[simp] theorem State.arrive_csMode (b : Byte) : (s.arrive b).csMode = s.csMode := rfl
@[simp] theorem State.arrive_fault (b : Byte) : (s.arrive b).fault = s.fault := rfl
@[simp] theorem State.arrive_ocr (b : Byte) : (s.arrive b).ocr = s.ocr := rfl
@[simp] theorem State.arrive_dp (b : Byte) : (s.arrive b).dp = s.dp := rfl
@[simp] theorem State.arrive_req (b : Byte) : (s.arrive b).req = s.req := rfl
@[simp] theorem State.arrive_guard (b : Byte) : (s.arrive b).guard = s.guard := rfl
@[simp] theorem State.arrive_pending (b : Byte) : (s.arrive b).pending = s.pending := rfl
@[simp] theorem State.arrive_mem (b : Byte) : (s.arrive b).mem = s.mem := rfl
@[simp] theorem State.arrive_trace (b : Byte) : (s.arrive b).trace = s.trace := rfl
@[simp] theorem State.arrive_rx (b : Byte) : (s.arrive b).rx = b :: s.rx := rfl
@[simp] theorem State.arrive_inputs (b : Byte) : (s.arrive b).inputs = s.inputs := rfl
@[simp] theorem State.arrive_arbTurn (b : Byte) : (s.arrive b).arbTurn = s.arbTurn := rfl
@[simp] theorem State.arrive_opWord (b : Byte) : (s.arrive b).opWord = s.opWord := rfl
@[simp] theorem State.arrive_port (b : Byte) : (s.arrive b).port = s.port := rfl

/-! ### `assertReset` -/

@[simp] theorem State.assertReset_cfg : (s.assertReset).cfg = s.cfg := rfl
@[simp] theorem State.assertReset_phase : (s.assertReset).phase = .reset := rfl
@[simp] theorem State.assertReset_seq : (s.assertReset).seq = [.bringup .start] := rfl
@[simp] theorem State.assertReset_cap : (s.assertReset).cap = .standard := rfl
@[simp] theorem State.assertReset_blockLen : (s.assertReset).blockLen = blockBytes := rfl
@[simp] theorem State.assertReset_ready : (s.assertReset).ready = false := rfl
@[simp] theorem State.assertReset_csMode : (s.assertReset).csMode = .auto := rfl
@[simp] theorem State.assertReset_fault : (s.assertReset).fault = none := rfl
@[simp] theorem State.assertReset_ocr : (s.assertReset).ocr = none := rfl
@[simp] theorem State.assertReset_dp : (s.assertReset).dp = Datapath.reset := rfl
@[simp] theorem State.assertReset_req : (s.assertReset).req = ReqRegs.reset := rfl
@[simp] theorem State.assertReset_guard : (s.assertReset).guard = none := rfl
@[simp] theorem State.assertReset_pending : (s.assertReset).pending = List.replicate s.cfg.nHosts none := rfl
@[simp] theorem State.assertReset_mem : (s.assertReset).mem = s.mem := rfl
@[simp] theorem State.assertReset_trace : (s.assertReset).trace = s.trace := rfl
@[simp] theorem State.assertReset_rx : (s.assertReset).rx = s.rx := rfl
@[simp] theorem State.assertReset_inputs : (s.assertReset).inputs = s.inputs := rfl
@[simp] theorem State.assertReset_arbTurn : (s.assertReset).arbTurn = s.arbTurn := rfl
@[simp] theorem State.assertReset_opWord : (s.assertReset).opWord = none := rfl
@[simp] theorem State.assertReset_port : (s.assertReset).port = s.port := rfl

/-! ### A push stays outermost -/

@[simp] theorem State.push_nil : s.push [] = s := rfl

@[simp] theorem State.push_push (a b : List Line) : (s.push a).push b = s.push (b ++ a) := by
  simp [State.push]

@[simp] theorem State.setDp_push (ls : List Line) (f : Datapath → Datapath) :
    (s.push ls).setDp f = (s.setDp f).push ls := rfl

@[simp] theorem State.result_push (ls : List Line) (b : Bool) :
    (s.push ls).result b = (s.result b).push ls := rfl

@[simp] theorem State.setCs_push (ls : List Line) (m : CsMode) :
    (s.push ls).setCs m = (s.setCs m).push ls := rfl

@[simp] theorem State.emit_push (ls : List Line) (e : Event) :
    (s.push ls).emit e = (s.emit e).push ls := rfl

@[simp] theorem State.exchanged_push (ls : List Line) (o i : Byte) (r : List Byte) :
    (s.push ls).exchanged o i r = (s.exchanged o i r).push ls := rfl

@[simp] theorem State.arrive_push (ls : List Line) (b : Byte) :
    (s.push ls).arrive b = (s.arrive b).push ls := rfl

@[simp] theorem State.setDp_setDp (f g : Datapath → Datapath) :
    (s.setDp f).setDp g = s.setDp fun d => g (f d) := rfl

@[simp] theorem State.setCs_setDp (f : Datapath → Datapath) (m : CsMode) :
    (s.setDp f).setCs m = (s.setCs m).setDp f := rfl

@[simp] theorem State.emit_setDp (f : Datapath → Datapath) (e : Event) :
    (s.setDp f).emit e = (s.emit e).setDp f := rfl

theorem State.result_eq_setDp (b : Bool) : s.result b = s.setDp fun d => { d with ok := b } := rfl

/-- Taking the pushed lines off again. -/
@[simp] theorem State.push_with_seq (ls : List Line) : { s.push ls with seq := s.seq } = s := rfl

end Sys2Proof.Machine
end

