-- ==== Sys2Proof/Laws/Run.lean ====
section
/-!
SUPPORT. Running an operation as a unit: `Reaches`, its rules, and what each leaf procedure reaches. Proofs about
`perform` chain these and never unfold `runUnit`.
-/

namespace Sys2Proof.Machine

/-- From `s` a unit that ends at depth `d` comes to `t` in `n` steps, whatever fuel is left. -/
def Reaches (d n : Nat) (s t : State) : Prop := ∀ fuel, runUnit (fuel + n) d s = runUnit fuel d t

theorem Reaches.refl (d : Nat) (s : State) : Reaches d 0 s s := fun _ => rfl

theorem Reaches.trans {d n m : Nat} {s t u : State} (h₁ : Reaches d n s t) (h₂ : Reaches d m t u) :
    Reaches d (n + m) s u := by
  intro fuel
  have h := h₁ (fuel + m)
  rw [show fuel + m + n = fuel + (n + m) by omega] at h
  rw [h, h₂ fuel]

theorem Reaches.cast {d n m : Nat} {s t u : State} (h : Reaches d n s t) (hn : n = m) (hu : t = u) :
    Reaches d m s u := hn ▸ hu ▸ h

theorem State.unitOver_iff (d : Nat) (s : State) :
    s.unitOver d = true ↔ s.seq.length ≤ d ∨ s.phase = .halted := by
  simp [State.unitOver]

theorem runUnit_over {d : Nat} {s : State} (h : s.unitOver d = true) (fuel : Nat) :
    runUnit fuel d s = .next s := by
  cases fuel <;> simp [runUnit, h]

/-- One step of a unit that is not over. -/
theorem Reaches.tick {d : Nat} {s t : State} (hover : s.unitOver d = false) (ht : tick s = .next t) :
    Reaches d 1 s t := by
  intro fuel
  simp [runUnit, hover, ht]

theorem tick_push {s : State} (h : s.running) (l : Line) (ls : List Line) :
    Machine.tick (s.push (l :: ls)) = (l.act (s.push ls)).perform (s.push (l :: ls)) := by
  obtain ⟨hr, hh⟩ := h
  unfold Machine.tick
  split <;> first | rfl | (rename_i hp; simp at hp; contradiction)

theorem unitOver_push {s : State} (h : s.running) {d : Nat} (hd : d ≤ s.seq.length) (l : Line)
    (ls : List Line) : (s.push (l :: ls)).unitOver d = false := by
  simp only [Bool.eq_false_iff, ne_eq, State.unitOver_iff, State.push_seq, State.push_phase]
  rintro (h1 | h1)
  · simp at h1; omega
  · exact h.2 h1

/-- A line that is an internal action. -/
theorem reaches_go {s : State} (h : s.running) {d : Nat} (hd : d ≤ s.seq.length) {l : Line}
    {ls : List Line} {t : State} (ha : l.act (s.push ls) = .go t) :
    Reaches d 1 (s.push (l :: ls)) t :=
  Reaches.tick (unitOver_push h hd l ls) (by rw [tick_push h, ha]; rfl)

/-- A line that is an exchange, where the transport delivers a byte. -/
theorem reaches_exchange {s : State} (h : s.running) {d : Nat} (hd : d ≤ s.seq.length) {l : Line}
    {ls : List Line} {o i : Byte} {r : List Byte} {k : Byte → State}
    (ha : l.act (s.push ls) = .exchange o k) (hrx : s.rx = i :: r) :
    Reaches d 1 (s.push (l :: ls)) ((k i).exchanged o i r) :=
  Reaches.tick (unitOver_push h hd l ls) (by rw [tick_push h, ha]; simp [Act.perform, hrx])

/-- A unit that comes to its end within its fuel. -/
theorem perform_of_reaches {s t : State} (h : s.running) {ls : List Line} {n : Nat}
    (hr : Reaches s.seq.length n (s.push ls) t) (hn : n ≤ unitFuel s)
    (hover : t.unitOver s.seq.length = true) : s.perform ls = .next t := by
  have hp : s.perform ls = runUnit (unitFuel s) s.seq.length (s.push ls) := by
    unfold State.perform
    obtain ⟨h1, h2⟩ := h
    cases hph : s.phase <;> simp_all
  obtain ⟨k, hk⟩ := Nat.exists_eq_add_of_le hn
  rw [hp, hk, Nat.add_comm n k, hr k, runUnit_over hover]

/-- The same, where the unit returns to its caller or halts, and the fuel is written out. -/
theorem perform_runs {s t : State} (h : s.running) {ls : List Line} {n : Nat}
    (hr : Reaches s.seq.length n (s.push ls) t) (hn : n ≤ 64 * (s.rx.length + 1))
    (hseq : t.seq = s.seq ∨ t.phase = .halted) : s.perform ls = .next t :=
  perform_of_reaches h hr hn (by rw [State.unitOver_iff]; rcases hseq with h | h <;> simp [h])

end Sys2Proof.Machine
end

