-- ==== Sys2Proof/Laws/Framer.lean ====
section
/-!
SUPPORT. What the framer and the decoders reach (spec/41_framer_decoders.md), one lemma per procedure: the
lines' steps, the state at the return, and the halt of an exhausted poll.
-/

namespace Sys2Proof.Machine

/-- Events (oldest first) appended to the trace, and `rest` left to receive. -/
def State.wire (es : List Event) (rest : List Byte) (s : State) : State :=
  { s with rx := rest, trace := es.reverse ++ s.trace }

section
variable (s : State) (es fs : List Event) (rest rest' : List Byte)

@[simp] theorem State.wire_cfg : (s.wire es rest).cfg = s.cfg := rfl
@[simp] theorem State.wire_phase : (s.wire es rest).phase = s.phase := rfl
@[simp] theorem State.wire_seq : (s.wire es rest).seq = s.seq := rfl
@[simp] theorem State.wire_cap : (s.wire es rest).cap = s.cap := rfl
@[simp] theorem State.wire_blockLen : (s.wire es rest).blockLen = s.blockLen := rfl
@[simp] theorem State.wire_ready : (s.wire es rest).ready = s.ready := rfl
@[simp] theorem State.wire_csMode : (s.wire es rest).csMode = s.csMode := rfl
@[simp] theorem State.wire_fault : (s.wire es rest).fault = s.fault := rfl
@[simp] theorem State.wire_ocr : (s.wire es rest).ocr = s.ocr := rfl
@[simp] theorem State.wire_dp : (s.wire es rest).dp = s.dp := rfl
@[simp] theorem State.wire_req : (s.wire es rest).req = s.req := rfl
@[simp] theorem State.wire_guard : (s.wire es rest).guard = s.guard := rfl
@[simp] theorem State.wire_pending : (s.wire es rest).pending = s.pending := rfl
@[simp] theorem State.wire_mem : (s.wire es rest).mem = s.mem := rfl
@[simp] theorem State.wire_trace : (s.wire es rest).trace = es.reverse ++ s.trace := rfl
@[simp] theorem State.wire_rx : (s.wire es rest).rx = rest := rfl
@[simp] theorem State.wire_inputs : (s.wire es rest).inputs = s.inputs := rfl
@[simp] theorem State.wire_arbTurn : (s.wire es rest).arbTurn = s.arbTurn := rfl
@[simp] theorem State.wire_opWord : (s.wire es rest).opWord = s.opWord := rfl
@[simp] theorem State.wire_port : (s.wire es rest).port = s.port := rfl

@[simp] theorem State.wire_push (ls : List Line) : (s.push ls).wire es rest = (s.wire es rest).push ls := rfl

@[simp] theorem State.wire_setDp (f : Datapath → Datapath) :
    (s.setDp f).wire es rest = (s.wire es rest).setDp f := rfl

@[simp] theorem State.wire_result (b : Bool) :
    (s.result b).wire es rest = (s.wire es rest).result b := rfl

@[simp] theorem State.wire_wire : (s.wire es rest).wire fs rest' = s.wire (es ++ fs) rest' := by
  simp [State.wire]

theorem State.exchanged_eq_wire (o i : Byte) : s.exchanged o i rest = s.wire [.xchg o i] rest := rfl

theorem State.wire_nil (h : s.rx = rest) : s.wire [] rest = s := by
  subst h; rfl

end

variable {s : State} {d : Nat} {ls : List Line}

/-- One frame byte. -/
theorem reaches_send (h : s.running) (hd : d ≤ s.seq.length) (n : Fin 6) {i : Byte} {r : List Byte}
    (hrx : s.rx = i :: r) :
    Reaches d 1 (s.push (.framer (.send n) :: ls))
      ((s.wire [.xchg (s.dp.frame[n]) i] r).push
        (if h : n.val + 1 < 6 then .framer (.send ⟨n.val + 1, h⟩) :: ls else ls)) := by
  refine (reaches_exchange h hd (l := .framer (.send n)) rfl hrx).cast rfl ?_
  by_cases hn : n.val + 1 < 6 <;> simp [hn, State.exchanged_eq_wire]

/-- The frame bytes from byte `n` on. -/
theorem reaches_sendFrom {r : List Byte} (ins : List Byte) :
    ∀ (s : State) (n : Fin 6), s.running → d ≤ s.seq.length → n.val + ins.length = 6 →
      s.rx = ins ++ r →
      Reaches d ins.length (s.push (.framer (.send n) :: ls))
        ((s.wire (exchanges (s.dp.frame.toList.drop n) ins) r).push ls) := by
  induction ins with
  | nil => intro s n _ _ hlen; simp at hlen; omega
  | cons i t ih =>
    intro s n h hd hlen hrx
    have h1 := reaches_send (ls := ls) h hd n hrx
    have hdrop : s.dp.frame.toList.drop n.val = s.dp.frame[n] :: s.dp.frame.toList.drop (n.val + 1) := by
      rw [List.drop_eq_getElem_cons (by simp)]; simp
    by_cases hn : n.val + 1 < 6
    · rw [dif_pos hn] at h1
      have h2 := ih (s.wire [.xchg (s.dp.frame[n]) i] (t ++ r)) ⟨n.val + 1, hn⟩ h hd
        (by simp at hlen; simp; omega) rfl
      refine (h1.trans h2).cast (by simp; omega) ?_
      rw [State.wire_wire, State.wire_dp, hdrop]
      rfl
    · rw [dif_neg hn] at h1
      have ht : t = [] := List.length_eq_zero_iff.mp (by simp at hlen; omega)
      subst ht
      refine h1.cast rfl ?_
      rw [hdrop]
      simp [exchanges]

/-- The six exchanges of a frame (R145). -/
theorem reaches_sendFrame (h : s.running) (hd : d ≤ s.seq.length) {ins r : List Byte}
    (hlen : ins.length = 6) (hrx : s.rx = ins ++ r) :
    Reaches d 6 (s.push (.framer (.send 0) :: ls))
      ((s.wire (exchanges s.dp.frame.toList ins) r).push ls) := by
  have := reaches_sendFrom (ls := ls) ins s 0 h hd (by simp [hlen]) hrx
  simpa [hlen] using this

/-- The bytes of the frame `ISSUE(idx, arg)` sends are the encoder's (R91 to R93, R170). -/
theorem frameBytes_toList (idx : CmdIndex) (arg : Word) :
    (frameBytes idx arg (crc7 (frameHead idx arg))).toList = encodeFrame idx arg := rfl

/-- `ISSUE` and `SEND_COMMAND` (R170, R145) of a frame whose contract check does not fail. -/
theorem reaches_issue (h : s.running) (hd : d ≤ s.seq.length) {idx : CmdIndex} {arg : Word}
    {ins r : List Byte} (hc : contractBroken idx arg (crc7 (frameHead idx arg)) = false)
    (hlen : ins.length = 6) (hrx : s.rx = ins ++ r) :
    Reaches d 8 (s.push (.framer (.issue idx arg) :: ls))
      ((((s.setDp fun d => { d with
            crc7acc := crc7 (frameHead idx arg)
            frame := frameBytes idx arg (crc7 (frameHead idx arg)) }).setCs .hold).wire
          (exchanges (encodeFrame idx arg) ins) r).push ls) := by
  have h1 : Reaches d 1 (s.push (.framer (.issue idx arg) :: ls))
      ((s.setDp fun d => { d with crc7acc := crc7 (frameHead idx arg) }).push
        (.framer (.hold idx arg (crc7 (frameHead idx arg))) :: ls)) :=
    reaches_go h hd (by simp [Line.act, FramerLine.act, hc])
  have h2 := reaches_go (s := s.setDp fun d => { d with crc7acc := crc7 (frameHead idx arg) }) (ls := ls)
    h hd (l := .framer (.hold idx arg (crc7 (frameHead idx arg)))) rfl
  have h3 := reaches_sendFrame (ls := ls) (d := d)
    (s := (s.setDp fun d => { d with
      crc7acc := crc7 (frameHead idx arg)
      frame := frameBytes idx arg (crc7 (frameHead idx arg)) }).setCs .hold) h hd hlen hrx
  exact (h1.trans h2).trans h3

/-! ### Decoders -/

/-- The lead-byte poll where it succeeds (R147): the skipped bytes and the lead byte are received. -/
theorem reaches_leadPoll {sh : Shape} {idx : CmdIndex} {lead : Byte} {r : List Byte}
    (pre : List Byte) :
    ∀ (s : State), s.running → d ≤ s.seq.length →
      (∀ b ∈ pre, leadMatches s.cfg sh b = false) → leadMatches s.cfg sh lead = true →
      s.dp.poll + pre.length < s.cfg.respPollMax → s.rx = pre ++ lead :: r →
      Reaches d (pre.length + 1) (s.push (.decoder (.poll sh idx) :: ls))
        (((s.setDp fun d => { d with poll := d.poll + pre.length + 1, lead := lead }).wire
          (receives (pre ++ [lead])) r).push ls) := by
  have turn : ∀ (s : State) (b : Byte) (t : List Byte), s.running → d ≤ s.seq.length →
      s.dp.poll < s.cfg.respPollMax → s.rx = b :: t →
      Reaches d 1 (s.push (.decoder (.poll sh idx) :: ls))
        ((if leadMatches s.cfg sh b then
            ((s.setDp fun d => { d with poll := d.poll + 1, lead := b }).wire [.xchg fillerByte b] t).push ls
          else ((s.setDp fun d => { d with poll := d.poll + 1 }).wire [.xchg fillerByte b] t).push
            (.decoder (.poll sh idx) :: ls))) := by
    intro s b t h hd hp hrx
    refine (reaches_exchange h hd (l := .decoder (.poll sh idx)) (o := fillerByte) (i := b) (r := t)
      (k := fun b => if leadMatches s.cfg sh b
        then (s.setDp fun d => { d with poll := d.poll + 1, lead := b }).push ls
        else (s.setDp fun d => { d with poll := d.poll + 1 }).push (.decoder (.poll sh idx) :: ls))
      (by simp [Line.act, DecoderLine.act, Act.recv, hp]) hrx).cast rfl ?_
    split <;> rfl
  induction pre with
  | nil =>
    intro s h hd _ hl hp hrx
    have h1 := turn s lead r h hd (by simpa using hp) hrx
    simpa [hl, receives] using h1
  | cons b t ih =>
    intro s h hd hpre hl hp hrx
    have h1 := turn s b (t ++ lead :: r) h hd (by simp at hp; omega) hrx
    rw [if_neg (by simp [hpre b])] at h1
    have h2 := ih (((s.setDp fun d => { d with poll := d.poll + 1 }).wire [.xchg fillerByte b]
      (t ++ lead :: r))) h hd (fun b hb => hpre b (by simp [hb])) hl (by simp at hp ⊢; omega) rfl
    refine (h1.trans h2).cast (by simp; omega) ?_
    simp [receives, State.wire, State.setDp, Nat.add_assoc, Nat.add_comm, Nat.add_left_comm]

/-- The two lines of a fatal exit of a poll (R152, R300). -/
theorem reaches_abort (h : s.running) (hd : d ≤ s.seq.length) (r : FaultRecord) :
    Reaches d 2 (s.push (.halt (.abort r) :: ls)) (((s.setCs .auto).raiseFatal r).push ls) :=
  (reaches_go h hd (l := .halt (.abort r)) rfl).trans
    (reaches_go (s := s.setCs .auto) (ls := ls) h hd (l := .halt (.raise r)) rfl)

/-- `raise Fatal` (R300). -/
theorem reaches_raise (h : s.running) (hd : d ≤ s.seq.length) (r : FaultRecord) :
    Reaches d 1 (s.push (.halt (.raise r) :: ls)) ((s.raiseFatal r).push ls) :=
  reaches_go h hd (l := .halt (.raise r)) rfl

/-- The lead-byte poll where it is exhausted (R147): the mode is AUTO, then the halt. -/
theorem reaches_noLead {sh : Shape} {idx : CmdIndex} {r : List Byte} (pre : List Byte) :
    ∀ (s : State), s.running → d ≤ s.seq.length → (∀ b ∈ pre, leadMatches s.cfg sh b = false) →
      s.dp.poll + pre.length = s.cfg.respPollMax → s.rx = pre ++ r →
      Reaches d (pre.length + 3) (s.push (.decoder (.poll sh idx) :: ls))
        (((((s.setDp fun d => { d with poll := s.cfg.respPollMax }).wire (receives pre) r).setCs
          .auto).raiseFatal { code := .respTimeout, cmd := some idx }).push ls) := by
  induction pre with
  | nil =>
    intro s h hd _ hp hrx
    have hp' : s.dp.poll = s.cfg.respPollMax := by simpa using hp
    have h1 : Reaches d 1 (s.push (.decoder (.poll sh idx) :: ls))
        (s.push (.halt (.abort { code := .respTimeout, cmd := some idx }) :: ls)) :=
      reaches_go h hd (by simp [Line.act, DecoderLine.act, hp'])
    refine (h1.trans (reaches_abort h hd _)).cast (by simp) ?_
    have hw : (s.setDp fun d => { d with poll := s.cfg.respPollMax }).wire (receives []) r = s := by
      rw [← hp']
      subst hrx
      rfl
    rw [hw]
  | cons b t ih =>
    intro s h hd hpre hp hrx
    have h1 : Reaches d 1 (s.push (.decoder (.poll sh idx) :: ls))
        (((s.setDp fun d => { d with poll := d.poll + 1 }).wire [.xchg fillerByte b] (t ++ r)).push
          (.decoder (.poll sh idx) :: ls)) :=
      (reaches_exchange h hd (l := .decoder (.poll sh idx)) (o := fillerByte) (i := b) (r := t ++ r)
        (k := fun b => if leadMatches s.cfg sh b
          then (s.setDp fun d => { d with poll := d.poll + 1, lead := b }).push ls
          else (s.setDp fun d => { d with poll := d.poll + 1 }).push (.decoder (.poll sh idx) :: ls))
        (by
          have : s.dp.poll < s.cfg.respPollMax := by simp at hp; omega
          simp [Line.act, DecoderLine.act, Act.recv, this]) hrx).cast rfl
        (by simp [hpre b]; rfl)
    have h2 := ih (((s.setDp fun d => { d with poll := d.poll + 1 }).wire [.xchg fillerByte b]
      (t ++ r))) h hd (fun b hb => hpre b (by simp [hb])) (by simp at hp ⊢; omega) rfl
    refine (h1.trans h2).cast (by simp; omega) ?_
    simp [receives, State.wire, State.setDp]

/-- A payload byte of a response. -/
theorem reaches_payload (h : s.running) (hd : d ≤ s.seq.length) (sh : Shape) (e : Nat) {b : Byte}
    {r : List Byte} (hrx : s.rx = b :: r) :
    Reaches d 1 (s.push (.decoder (.payload sh e) :: ls))
      (((s.setDp (sh.take e b)).wire [.xchg fillerByte b] r).push ls) :=
  reaches_exchange h hd (l := .decoder (.payload sh e)) rfl hrx

/-- The end of a decoder (R148, R152): trailer, `SETCS(AUTO)`, end bit. -/
theorem reaches_judge (h : s.running) (hd : d ≤ s.seq.length) (sh : Shape) {b : Byte} {r : List Byte}
    (hrx : s.rx = b :: r) :
    Reaches d 3 (s.push (.decoder .trailer :: .decoder .auto :: .decoder (.judge sh) :: ls))
      (({ ((s.setDp fun d => { d with trailer := b, ok := endBitOk b }).wire [.xchg fillerByte b] r).setCs
            .auto with
          ocr := if endBitOk b = true ∧ sh = .r3 then some s.dp.ocrIn else s.ocr } : State).push ls) := by
  have h1 := reaches_exchange (ls := .decoder .auto :: .decoder (.judge sh) :: ls) h hd
    (l := .decoder .trailer) rfl hrx
  have h2 := reaches_go (ls := .decoder (.judge sh) :: ls)
    (s := ((s.setDp fun d => { d with trailer := b }).wire [.xchg fillerByte b] r)) h hd
    (l := .decoder .auto) rfl
  have h3 := reaches_go (ls := ls)
    (s := ((s.setDp fun d => { d with trailer := b }).wire [.xchg fillerByte b] r).setCs .auto) h hd
    (l := .decoder (.judge sh)) rfl
  exact (h1.trans h2).trans h3

/-- `DECODE_R1(idx, 0)` (R149). -/
theorem reaches_decodeR1 (h : s.running) (hd : d ≤ s.seq.length) {idx : CmdIndex} {pre : List Byte}
    {lead t : Byte} {r : List Byte} (hl : LeadArrives s.cfg (.r1 0) pre lead)
    (hrx : s.rx = pre ++ lead :: t :: r) :
    Reaches d (pre.length + 5) (s.push (.decoder (.start (.r1 0) idx) :: ls))
      ((((s.setDp fun d => { d with
            poll := pre.length + 1, ext := [], ocrIn := 0, lead := lead, trailer := t
            ok := endBitOk t }).wire (receives (pre ++ [lead, t])) r).setCs .auto).push ls) := by
  have h1 := reaches_go (ls := ls) h hd (l := .decoder (.start (.r1 0) idx)) rfl
  have h2 := reaches_leadPoll (d := d)
    (ls := .decoder .trailer :: .decoder .auto :: .decoder (.judge (.r1 0)) :: ls) (idx := idx) pre
    (s.setDp fun d => { d with poll := 0, ext := [], ocrIn := 0 }) h hd hl.1 hl.2.1
    (by simpa using hl.2.2) hrx
  have h3 := reaches_judge (d := d) (ls := ls) (sh := .r1 0) (b := t) (r := r)
    (s := (((s.setDp fun d => { d with poll := 0, ext := [], ocrIn := 0 }).setDp fun d =>
      { d with poll := d.poll + pre.length + 1, lead := lead }).wire
        (receives (pre ++ [lead])) (t :: r))) h hd rfl
  refine ((h1.trans h2).trans h3).cast (by omega) ?_
  simp [State.wire, State.setDp, State.setCs, receives, State.push]

/-- The four payload bytes of an R3 or an R7 taken in. -/
def Shape.take4 (sh : Shape) (b0 b1 b2 b3 : Byte) (d : Datapath) : Datapath :=
  sh.take 3 b3 (sh.take 2 b2 (sh.take 1 b1 (sh.take 0 b0 d)))

theorem reaches_payload4 (h : s.running) (hd : d ≤ s.seq.length) (sh : Shape) {b0 b1 b2 b3 : Byte}
    {r : List Byte} (hrx : s.rx = b0 :: b1 :: b2 :: b3 :: r) :
    Reaches d 4 (s.push (.decoder (.payload sh 0) :: .decoder (.payload sh 1) ::
        .decoder (.payload sh 2) :: .decoder (.payload sh 3) :: ls))
      (((s.setDp (sh.take4 b0 b1 b2 b3)).wire (receives [b0, b1, b2, b3]) r).push ls) := by
  have p0 := reaches_payload (ls := .decoder (.payload sh 1) :: .decoder (.payload sh 2) ::
    .decoder (.payload sh 3) :: ls) h hd sh 0 hrx
  have p1 := reaches_payload (ls := .decoder (.payload sh 2) :: .decoder (.payload sh 3) :: ls)
    (s := (s.setDp (sh.take 0 b0)).wire [.xchg fillerByte b0] (b1 :: b2 :: b3 :: r)) h hd sh 1 rfl
  have p2 := reaches_payload (ls := .decoder (.payload sh 3) :: ls)
    (s := (s.setDp fun d => sh.take 1 b1 (sh.take 0 b0 d)).wire (receives [b0, b1]) (b2 :: b3 :: r))
    h hd sh 2 rfl
  have p3 := reaches_payload (ls := ls)
    (s := (s.setDp fun d => sh.take 2 b2 (sh.take 1 b1 (sh.take 0 b0 d))).wire (receives [b0, b1, b2])
      (b3 :: r)) h hd sh 3 rfl
  exact ((p0.trans p1).trans p2).trans p3

/-- `DECODE_R3` and `DECODE_R7` before the assembly of their bytes is written out. -/
theorem reaches_decode4 (h : s.running) (hd : d ≤ s.seq.length) {sh : Shape} (h4 : sh.payload = 4)
    {idx : CmdIndex} {pre : List Byte} {lead b0 b1 b2 b3 t : Byte} {r : List Byte}
    (hl : LeadArrives s.cfg sh pre lead) (hrx : s.rx = pre ++ lead :: b0 :: b1 :: b2 :: b3 :: t :: r)
    {s1 : State} (hs1 : s1 = (s.setDp fun d => sh.take4 b0 b1 b2 b3 { d with
      poll := pre.length + 1, ext := [], ocrIn := 0, lead := lead })) :
    Reaches d (pre.length + 9) (s.push (.decoder (.start sh idx) :: ls))
      (({ (((s1.setDp fun d => { d with trailer := t, ok := endBitOk t }).wire
            (receives (pre ++ [lead, b0, b1, b2, b3, t])) r).setCs .auto) with
          ocr := if endBitOk t = true ∧ sh = .r3 then some s1.dp.ocrIn else s.ocr } : State).push ls) := by
  subst hs1
  have h1 : Reaches d 1 (s.push (.decoder (.start sh idx) :: ls))
      ((s.setDp fun d => { d with poll := 0, ext := [], ocrIn := 0 }).push
        (.decoder (.poll sh idx) :: .decoder (.payload sh 0) :: .decoder (.payload sh 1) ::
          .decoder (.payload sh 2) :: .decoder (.payload sh 3) :: .decoder .trailer :: .decoder .auto ::
          .decoder (.judge sh) :: ls)) :=
    reaches_go h hd (by
      simp only [Line.act, DecoderLine.act, h4, State.setDp_push, State.push_push]
      rfl)
  have h2 := reaches_leadPoll (d := d)
    (ls := .decoder (.payload sh 0) :: .decoder (.payload sh 1) :: .decoder (.payload sh 2) ::
      .decoder (.payload sh 3) :: .decoder .trailer :: .decoder .auto :: .decoder (.judge sh) :: ls)
    (idx := idx) pre
    (s.setDp fun d => { d with poll := 0, ext := [], ocrIn := 0 }) h hd hl.1 hl.2.1
    (by simpa using hl.2.2) hrx
  have h3 := reaches_payload4 (d := d) (ls := .decoder .trailer :: .decoder .auto :: .decoder (.judge sh) :: ls)
    (s := ((s.setDp fun d => { d with
      poll := pre.length + 1, ext := [], ocrIn := 0, lead := lead }).wire
        (receives (pre ++ [lead])) (b0 :: b1 :: b2 :: b3 :: t :: r))) h hd sh rfl
  have h4 := reaches_judge (d := d) (ls := ls) (sh := sh) (b := t) (r := r)
    (s := ((s.setDp fun d => sh.take4 b0 b1 b2 b3 { d with
      poll := pre.length + 1, ext := [], ocrIn := 0, lead := lead }).wire
        (receives (pre ++ [lead, b0, b1, b2, b3])) (t :: r))) h hd rfl
  have e2 : (((s.setDp fun d => { d with poll := 0, ext := [], ocrIn := 0 }).setDp fun d =>
      { d with poll := d.poll + pre.length + 1, lead := lead }).wire
        (receives (pre ++ [lead])) (b0 :: b1 :: b2 :: b3 :: t :: r)) =
      ((s.setDp fun d => { d with
      poll := pre.length + 1, ext := [], ocrIn := 0, lead := lead }).wire
        (receives (pre ++ [lead])) (b0 :: b1 :: b2 :: b3 :: t :: r)) := by
    simp
  rw [e2] at h2
  refine (((h1.trans h2).trans (h3.cast rfl ?_)).trans h4).cast (by omega) ?_
  · simp [State.wire, State.setDp, receives]
  · simp [State.wire, State.setDp, State.setCs, receives, State.push]

/-- The bits of four bytes concatenated. -/
theorem append4_getLsbD (o0 o1 o2 o3 : Byte) (i : Nat) :
    (o0 ++ o1 ++ o2 ++ o3 : BitVec (8 + 8 + 8 + 8)).getLsbD i =
      if i < 8 then o3.getLsbD i else if i < 16 then o2.getLsbD (i - 8)
      else if i < 24 then o1.getLsbD (i - 16) else o0.getLsbD (i - 24) := by
  simp only [BitVec.getLsbD_append]
  by_cases h1 : i < 8
  · simp [h1]
  by_cases h2 : i < 16
  · simp [h1, h2, show i - 8 < 8 by omega]
  by_cases h3 : i < 24
  · simp [h1, h2, h3, show ¬ i - 8 < 8 by omega, show i - 8 - 8 = i - 16 by omega,
      show i - 16 < 8 by omega]
  simp [h1, h2, h3, show ¬ i - 8 < 8 by omega, show ¬ i - 8 - 8 < 8 by omega,
    show i - 8 - 8 - 8 = i - 24 by omega]

/-- The OCR's assembly (R64, R150). -/
theorem take4_r3 (o0 o1 o2 o3 : Byte) (d : Datapath) (h : d.ocrIn = 0) :
    Shape.r3.take4 o0 o1 o2 o3 d = { d with ocrIn := o0 ++ o1 ++ o2 ++ o3 } := by
  have hocr : (((((0 : Word) <<< 8 ||| o0.zeroExtend 32) <<< 8 ||| o1.zeroExtend 32) <<< 8 |||
      o2.zeroExtend 32) <<< 8 ||| o3.zeroExtend 32) =
      (o0 ++ o1 ++ o2 ++ o3 : BitVec (8 + 8 + 8 + 8)) := by
    apply BitVec.eq_of_getLsbD_eq
    intro i hi
    refine Eq.trans ?_ (append4_getLsbD o0 o1 o2 o3 i).symm
    interval_cases i <;> simp
  simp only [Shape.take4, Shape.take, h]
  rw [hocr]

/-- `DECODE_R3(idx)` (R150). -/
theorem reaches_decodeR3 (h : s.running) (hd : d ≤ s.seq.length) {idx : CmdIndex} {pre : List Byte}
    {lead o0 o1 o2 o3 t : Byte} {r : List Byte} (hl : LeadArrives s.cfg .r3 pre lead)
    (hrx : s.rx = pre ++ lead :: o0 :: o1 :: o2 :: o3 :: t :: r) :
    Reaches d (pre.length + 9) (s.push (.decoder (.start .r3 idx) :: ls))
      (({ (((s.setDp fun d => { d with
            poll := pre.length + 1, ext := [], ocrIn := o0 ++ o1 ++ o2 ++ o3, lead := lead, trailer := t
            ok := endBitOk t }).wire (receives (pre ++ [lead, o0, o1, o2, o3, t])) r).setCs .auto) with
          ocr := if endBitOk t = true then some (o0 ++ o1 ++ o2 ++ o3) else s.ocr } : State).push ls) := by
  refine (reaches_decode4 h hd (sh := .r3) rfl hl hrx (s1 := s.setDp fun d => { d with
    poll := pre.length + 1, ext := [], ocrIn := o0 ++ o1 ++ o2 ++ o3, lead := lead })
    (by simp only [State.setDp]; rw [take4_r3 _ _ _ _ _ rfl])).cast rfl ?_
  simp [State.setDp, State.wire, State.setCs]

/-- `DECODE_R7(idx)` (R151). -/
theorem reaches_decodeR7 (h : s.running) (hd : d ≤ s.seq.length) {idx : CmdIndex} {pre : List Byte}
    {lead r0 r1 r2 r3 t : Byte} {r : List Byte} (hl : LeadArrives s.cfg .r7 pre lead)
    (hrx : s.rx = pre ++ lead :: r0 :: r1 :: r2 :: r3 :: t :: r) :
    Reaches d (pre.length + 9) (s.push (.decoder (.start .r7 idx) :: ls))
      ((((s.setDp fun d => { d with
            poll := pre.length + 1, ext := [], ocrIn := 0, va := r2.truncate 4, echo := r3, lead := lead
            trailer := t, ok := endBitOk t }).wire
          (receives (pre ++ [lead, r0, r1, r2, r3, t])) r).setCs .auto).push ls) := by
  refine (reaches_decode4 h hd (sh := .r7) rfl hl hrx rfl).cast rfl ?_
  simp [State.setDp, State.wire, State.setCs, Shape.take4, Shape.take, State.push]

/-- A decoder of any shape whose lead-byte poll is exhausted (R147, R152). -/
theorem reaches_decodeNoLead (h : s.running) (hd : d ≤ s.seq.length) {sh : Shape} {idx : CmdIndex}
    {pre r : List Byte} (hl : NoLead s.cfg sh pre) (hrx : s.rx = pre ++ r) :
    ∃ ls', Reaches d (pre.length + 4) (s.push (.decoder (.start sh idx) :: ls))
      (((((s.setDp fun d => { d with poll := s.cfg.respPollMax, ext := [], ocrIn := 0 }).wire
        (receives pre) r).setCs .auto).raiseFatal { code := .respTimeout, cmd := some idx }).push ls') := by
  have h1 := reaches_go (ls := ls) h hd (l := .decoder (.start sh idx)) rfl
  have h2 := reaches_noLead (d := d) (sh := sh) (idx := idx) (r := r)
    (ls := (List.range sh.payload).map (fun e => .decoder (.payload sh e)) ++
      [.decoder .trailer, .decoder .auto, .decoder (.judge sh)] ++ ls) pre
    (s.setDp fun d => { d with poll := 0, ext := [], ocrIn := 0 }) h hd hl.1 (by simp [hl.2]) hrx
  refine ⟨_, ((h1.cast rfl ?_).trans h2).cast (by omega) rfl⟩
  simp

end Sys2Proof.Machine
end

