-- ==== Sys2Proof/Laws/Catalog.lean ====
section
/-!
SUPPORT. What a catalog entry reaches (spec/42_command_catalog.md): the frame, the decoder, the acceptance test,
as one run, and its halt where the response does not come.
-/

namespace Sys2Proof.Machine

set_option maxRecDepth 20000 in
/-- The contract check of R170 does not fail (R122). -/
theorem contract_holds (idx : CmdIndex) (arg : Word) :
    contractBroken idx arg (crc7 (frameHead idx arg)) = false := by
  unfold contractBroken
  cases h : knownCrc7.lookup (idx, arg) with
  | none => rfl
  | some k =>
    have hm : ((idx, arg), k) ∈ knownCrc7 := by
      obtain ⟨l₁, l₂, hl, -⟩ := List.lookup_eq_some_iff.mp h
      rw [hl]; simp
    simp only [knownCrc7, List.mem_cons, Prod.mk.injEq, List.not_mem_nil, or_false] at hm
    rcases hm with ⟨⟨rfl, rfl⟩, rfl⟩ | ⟨⟨rfl, rfl⟩, rfl⟩ | ⟨⟨rfl, rfl⟩, rfl⟩ | ⟨⟨rfl, rfl⟩, rfl⟩ |
      ⟨⟨rfl, rfl⟩, rfl⟩ | ⟨⟨rfl, rfl⟩, rfl⟩ | ⟨⟨rfl, rfl⟩, rfl⟩ <;> rfl

/-- The state after a frame has been sent (R145, R170). -/
def State.framed (idx : CmdIndex) (arg : Word) (ins rest : List Byte) (s : State) : State :=
  (((s.setDp fun d => { d with
      crc7acc := crc7 (frameHead idx arg)
      frame := frameBytes idx arg (crc7 (frameHead idx arg)) }).setCs .hold).wire
    (exchanges (encodeFrame idx arg) ins) rest)

section
variable (s : State) (idx : CmdIndex) (arg : Word) (ins rest : List Byte)
@[simp] theorem State.framed_cfg : (s.framed idx arg ins rest).cfg = s.cfg := rfl
@[simp] theorem State.framed_phase : (s.framed idx arg ins rest).phase = s.phase := rfl
@[simp] theorem State.framed_seq : (s.framed idx arg ins rest).seq = s.seq := rfl
@[simp] theorem State.framed_dp : (s.framed idx arg ins rest).dp = { s.dp with
    crc7acc := crc7 (frameHead idx arg), frame := frameBytes idx arg (crc7 (frameHead idx arg)) } := rfl
@[simp] theorem State.framed_trace : (s.framed idx arg ins rest).trace =
    (exchanges (encodeFrame idx arg) ins).reverse ++ .setcs .hold :: s.trace := rfl
@[simp] theorem State.framed_cap : (s.framed idx arg ins rest).cap = s.cap := rfl
@[simp] theorem State.framed_blockLen : (s.framed idx arg ins rest).blockLen = s.blockLen := rfl
@[simp] theorem State.framed_ready : (s.framed idx arg ins rest).ready = s.ready := rfl
@[simp] theorem State.framed_fault : (s.framed idx arg ins rest).fault = s.fault := rfl
@[simp] theorem State.framed_req : (s.framed idx arg ins rest).req = s.req := rfl
@[simp] theorem State.framed_guard : (s.framed idx arg ins rest).guard = s.guard := rfl
@[simp] theorem State.framed_pending : (s.framed idx arg ins rest).pending = s.pending := rfl
@[simp] theorem State.framed_mem : (s.framed idx arg ins rest).mem = s.mem := rfl
@[simp] theorem State.framed_inputs : (s.framed idx arg ins rest).inputs = s.inputs := rfl
@[simp] theorem State.framed_arbTurn : (s.framed idx arg ins rest).arbTurn = s.arbTurn := rfl
@[simp] theorem State.framed_opWord : (s.framed idx arg ins rest).opWord = s.opWord := rfl
@[simp] theorem State.framed_port : (s.framed idx arg ins rest).port = s.port := rfl
@[simp] theorem State.framed_csMode : (s.framed idx arg ins rest).csMode = .hold := rfl
@[simp] theorem State.framed_ocr : (s.framed idx arg ins rest).ocr = s.ocr := rfl
@[simp] theorem State.framed_rx : (s.framed idx arg ins rest).rx = rest := rfl
end

/-- What a decoder leaves (R149 to R152), from the state after the frame: `f` is what it writes in the
datapath, `o` the OCR. -/
def State.decoded (f : Datapath → Datapath) (o : Option Word) (bytes rest : List Byte) (s : State) : State :=
  { ((s.setDp f).wire (receives bytes) rest).setCs .auto with ocr := o }

section
variable (s : State) (f : Datapath → Datapath) (o : Option Word) (bytes rest : List Byte)
@[simp] theorem State.decoded_cfg : (s.decoded f o bytes rest).cfg = s.cfg := rfl
@[simp] theorem State.decoded_phase : (s.decoded f o bytes rest).phase = s.phase := rfl
@[simp] theorem State.decoded_seq : (s.decoded f o bytes rest).seq = s.seq := rfl
@[simp] theorem State.decoded_trace : (s.decoded f o bytes rest).trace =
    .setcs .auto :: ((receives bytes).reverse ++ s.trace) := rfl
@[simp] theorem State.decoded_cap : (s.decoded f o bytes rest).cap = s.cap := rfl
@[simp] theorem State.decoded_blockLen : (s.decoded f o bytes rest).blockLen = s.blockLen := rfl
@[simp] theorem State.decoded_ready : (s.decoded f o bytes rest).ready = s.ready := rfl
@[simp] theorem State.decoded_fault : (s.decoded f o bytes rest).fault = s.fault := rfl
@[simp] theorem State.decoded_req : (s.decoded f o bytes rest).req = s.req := rfl
@[simp] theorem State.decoded_guard : (s.decoded f o bytes rest).guard = s.guard := rfl
@[simp] theorem State.decoded_pending : (s.decoded f o bytes rest).pending = s.pending := rfl
@[simp] theorem State.decoded_mem : (s.decoded f o bytes rest).mem = s.mem := rfl
@[simp] theorem State.decoded_inputs : (s.decoded f o bytes rest).inputs = s.inputs := rfl
@[simp] theorem State.decoded_arbTurn : (s.decoded f o bytes rest).arbTurn = s.arbTurn := rfl
@[simp] theorem State.decoded_opWord : (s.decoded f o bytes rest).opWord = s.opWord := rfl
@[simp] theorem State.decoded_port : (s.decoded f o bytes rest).port = s.port := rfl
@[simp] theorem State.decoded_csMode : (s.decoded f o bytes rest).csMode = .auto := rfl
@[simp] theorem State.decoded_ocr : (s.decoded f o bytes rest).ocr = o := rfl
@[simp] theorem State.decoded_rx : (s.decoded f o bytes rest).rx = rest := rfl
@[simp] theorem State.decoded_dp : (s.decoded f o bytes rest).dp = f s.dp := rfl
end

variable {s : State} {d : Nat} {ls : List Line}

theorem reaches_frame (h : s.running) (hd : d ≤ s.seq.length) {idx : CmdIndex} {arg : Word}
    {ins r : List Byte} (hlen : ins.length = 6) (hrx : s.rx = ins ++ r) :
    Reaches d 8 (s.push (.framer (.issue idx arg) :: ls)) ((s.framed idx arg ins r).push ls) :=
  reaches_issue h hd (contract_holds idx arg) hlen hrx

/-- What an R1 decode writes in the datapath. -/
def Datapath.afterR1 (pre : List Byte) (lead t : Byte) (d : Datapath) : Datapath :=
  { d with poll := pre.length + 1, ext := [], ocrIn := 0, lead := lead, trailer := t, ok := endBitOk t }

/-- What an R3 decode writes in the datapath. -/
def Datapath.afterR3 (pre : List Byte) (lead : Byte) (ocr : Word) (t : Byte) (d : Datapath) : Datapath :=
  { d with poll := pre.length + 1, ext := [], ocrIn := ocr, lead := lead, trailer := t, ok := endBitOk t }

/-- What an R7 decode writes in the datapath. -/
def Datapath.afterR7 (pre : List Byte) (lead r2 r3 t : Byte) (d : Datapath) : Datapath :=
  { d with poll := pre.length + 1, ext := [], ocrIn := 0, va := r2.truncate 4, echo := r3, lead := lead
           trailer := t, ok := endBitOk t }

/-- A decoder and then the acceptance test, for an R1. -/
theorem reaches_r1Answer (e : Entry) (h : s.running) (hd : d ≤ s.seq.length) {idx : CmdIndex}
    {pre r : List Byte} {lead t : Byte} (hl : LeadArrives s.cfg (.r1 0) pre lead)
    (hrx : s.rx = pre ++ lead :: t :: r) :
    Reaches d (pre.length + 6) (s.push (.decoder (.start (.r1 0) idx) :: .catalog (.accept e) :: ls))
      (((s.decoded (Datapath.afterR1 pre lead t) s.ocr (pre ++ [lead, t]) r).setDp
          fun x => { x with ok := e.accepts x }).push ls) := by
  have h2 := reaches_decodeR1 (ls := .catalog (.accept e) :: ls) (idx := idx) h hd hl hrx
  have h3 := reaches_go (ls := ls)
    (s := s.decoded (Datapath.afterR1 pre lead t) s.ocr (pre ++ [lead, t]) r) h hd
    (l := .catalog (.accept e)) rfl
  exact (h2.trans h3).cast (by omega) rfl

/-- A decoder and then the acceptance test, for an R3. -/
theorem reaches_r3Answer (e : Entry) (h : s.running) (hd : d ≤ s.seq.length) {idx : CmdIndex}
    {pre r : List Byte} {lead o0 o1 o2 o3 t : Byte} (hl : LeadArrives s.cfg .r3 pre lead)
    (hrx : s.rx = pre ++ lead :: o0 :: o1 :: o2 :: o3 :: t :: r) :
    Reaches d (pre.length + 10) (s.push (.decoder (.start .r3 idx) :: .catalog (.accept e) :: ls))
      (((s.decoded (Datapath.afterR3 pre lead (o0 ++ o1 ++ o2 ++ o3) t)
          (if endBitOk t = true then some (o0 ++ o1 ++ o2 ++ o3) else s.ocr)
          (pre ++ [lead, o0, o1, o2, o3, t]) r).setDp fun x => { x with ok := e.accepts x }).push ls) := by
  have h2 := reaches_decodeR3 (ls := .catalog (.accept e) :: ls) (idx := idx) h hd hl hrx
  have h3 := reaches_go (ls := ls)
    (s := s.decoded (Datapath.afterR3 pre lead (o0 ++ o1 ++ o2 ++ o3) t)
          (if endBitOk t = true then some (o0 ++ o1 ++ o2 ++ o3) else s.ocr)
          (pre ++ [lead, o0, o1, o2, o3, t]) r) h hd (l := .catalog (.accept e)) rfl
  exact (h2.trans h3).cast (by omega) rfl

/-- A decoder and then the acceptance test, for an R7. -/
theorem reaches_r7Answer (e : Entry) (h : s.running) (hd : d ≤ s.seq.length) {idx : CmdIndex}
    {pre r : List Byte} {lead r0 r1 r2 r3 t : Byte} (hl : LeadArrives s.cfg .r7 pre lead)
    (hrx : s.rx = pre ++ lead :: r0 :: r1 :: r2 :: r3 :: t :: r) :
    Reaches d (pre.length + 10) (s.push (.decoder (.start .r7 idx) :: .catalog (.accept e) :: ls))
      (((s.decoded (Datapath.afterR7 pre lead r2 r3 t) s.ocr (pre ++ [lead, r0, r1, r2, r3, t]) r).setDp
            fun x => { x with ok := e.accepts x }).push ls) := by
  have h2 := reaches_decodeR7 (ls := .catalog (.accept e) :: ls) (idx := idx) h hd hl hrx
  have h3 := reaches_go (ls := ls)
    (s := s.decoded (Datapath.afterR7 pre lead r2 r3 t) s.ocr (pre ++ [lead, r0, r1, r2, r3, t]) r) h hd
    (l := .catalog (.accept e)) rfl
  exact (h2.trans h3).cast (by omega) rfl

/-- A command, from its frame to where its decoder is entered, and on from there to `t`. -/
theorem reaches_command {e : Entry} (h : s.running) (hd : d ≤ s.seq.length) {ins r : List Byte} {n : Nat}
    {t : State} (hlen : ins.length = 6) (hrx : s.rx = ins ++ r)
    (hans : ∀ a : State, a = s.framed e.idx e.arg ins r →
      Reaches d n (a.push (.decoder (.start e.shape e.idx) :: .catalog (.accept e) :: ls)) t) :
    Reaches d (n + 8) (s.push (e.frameLines ++ ls)) t :=
  ((reaches_frame (ls := .decoder (.start e.shape e.idx) :: .catalog (.accept e) :: ls)
    (idx := e.idx) (arg := e.arg) h hd hlen hrx).trans (hans _ rfl)).cast (by omega) rfl

/-- A command with an R1 response, from its frame to its result. -/
theorem reaches_r1Command {e : Entry} (hsh : e.shape = .r1 0) (h : s.running) (hd : d ≤ s.seq.length)
    {ins pre r : List Byte} {lead t : Byte} (hlen : ins.length = 6)
    (hl : LeadArrives s.cfg (.r1 0) pre lead) (hrx : s.rx = ins ++ (pre ++ lead :: t :: r)) :
    Reaches d (pre.length + 14) (s.push (e.frameLines ++ ls))
      ((((s.framed e.idx e.arg ins (pre ++ lead :: t :: r)).decoded (Datapath.afterR1 pre lead t) s.ocr
          (pre ++ [lead, t]) r).setDp fun x => { x with ok := e.accepts x }).push ls) := by
  refine (reaches_command (n := pre.length + 6) h hd hlen hrx ?_).cast (by omega) rfl
  intro a ha
  have ho : a.ocr = s.ocr := by rw [ha]; rfl
  rw [hsh, ← ho, ← ha]
  exact reaches_r1Answer e (by rw [ha]; exact h) (by rw [ha]; exact hd) (by rw [ha]; exact hl)
    (by rw [ha]; rfl)

/-- A command with an R3 response, from its frame to its result. -/
theorem reaches_r3Command {e : Entry} (hsh : e.shape = .r3) (h : s.running) (hd : d ≤ s.seq.length)
    {ins pre r : List Byte} {lead o0 o1 o2 o3 t : Byte} (hlen : ins.length = 6)
    (hl : LeadArrives s.cfg .r3 pre lead)
    (hrx : s.rx = ins ++ (pre ++ lead :: o0 :: o1 :: o2 :: o3 :: t :: r)) :
    Reaches d (pre.length + 18) (s.push (e.frameLines ++ ls))
      ((((s.framed e.idx e.arg ins (pre ++ lead :: o0 :: o1 :: o2 :: o3 :: t :: r)).decoded
          (Datapath.afterR3 pre lead (o0 ++ o1 ++ o2 ++ o3) t)
          (if endBitOk t = true then some (o0 ++ o1 ++ o2 ++ o3) else s.ocr)
          (pre ++ [lead, o0, o1, o2, o3, t]) r).setDp fun x => { x with ok := e.accepts x }).push ls) := by
  refine (reaches_command (n := pre.length + 10) h hd hlen hrx ?_).cast (by omega) rfl
  intro a ha
  have ho : a.ocr = s.ocr := by rw [ha]; rfl
  rw [hsh, ← ho, ← ha]
  exact reaches_r3Answer e (by rw [ha]; exact h) (by rw [ha]; exact hd) (by rw [ha]; exact hl)
    (by rw [ha]; rfl)

/-- CMD8, from its frame to its result. -/
theorem reaches_r7Command {e : Entry} (hsh : e.shape = .r7) (h : s.running) (hd : d ≤ s.seq.length)
    {ins pre r : List Byte} {lead r0 r1 r2 r3 t : Byte} (hlen : ins.length = 6)
    (hl : LeadArrives s.cfg .r7 pre lead)
    (hrx : s.rx = ins ++ (pre ++ lead :: r0 :: r1 :: r2 :: r3 :: t :: r)) :
    Reaches d (pre.length + 18) (s.push (e.frameLines ++ ls))
      ((((s.framed e.idx e.arg ins (pre ++ lead :: r0 :: r1 :: r2 :: r3 :: t :: r)).decoded
          (Datapath.afterR7 pre lead r2 r3 t) s.ocr (pre ++ [lead, r0, r1, r2, r3, t]) r).setDp
            fun x => { x with ok := e.accepts x }).push ls) := by
  refine (reaches_command (n := pre.length + 10) h hd hlen hrx ?_).cast (by omega) rfl
  intro a ha
  have ho : a.ocr = s.ocr := by rw [ha]; rfl
  rw [hsh, ← ho, ← ha]
  exact reaches_r7Answer e (by rw [ha]; exact h) (by rw [ha]; exact hd) (by rw [ha]; exact hl)
    (by rw [ha]; rfl)

/-- A command whose response does not come (R147): from its frame to the halt. -/
theorem reaches_noResponse (e : Entry) (h : s.running) (hd : d ≤ s.seq.length) {ins pre r : List Byte}
    (hlen : ins.length = 6) (hl : NoLead s.cfg e.shape pre) (hrx : s.rx = ins ++ (pre ++ r)) :
    ∃ ls', Reaches d (pre.length + 12) (s.push (e.frameLines ++ ls))
      ((((((s.framed e.idx e.arg ins (pre ++ r)).setDp fun d => { d with
        poll := s.cfg.respPollMax, ext := [], ocrIn := 0 }).wire (receives pre) r).setCs .auto).raiseFatal
          { code := .respTimeout, cmd := some e.idx }).push ls') := by
  obtain ⟨a, ha⟩ : ∃ a, a = s.framed e.idx e.arg ins (pre ++ r) := ⟨_, rfl⟩
  have hc : a.cfg = s.cfg := by rw [ha]; rfl
  obtain ⟨ls', h2⟩ := reaches_decodeNoLead (d := d) (ls := .catalog (.accept e) :: ls) (idx := e.idx)
    (s := a) (sh := e.shape) (pre := pre) (r := r) (by rw [ha]; exact h) (by rw [ha]; exact hd)
    (by rw [ha]; exact hl) (by rw [ha]; rfl)
  refine ⟨ls', (reaches_command (n := pre.length + 4) h hd hlen hrx (fun b hb => ?_)).cast (by omega) rfl⟩
  rw [hb, ← ha, ← hc]
  exact h2

/-- An entry other than ACMD41 is its frame, its decoder and its test. -/
theorem reaches_call {e : Entry} (he : e ≠ .acmd41) (h : s.running) (hd : d ≤ s.seq.length) :
    Reaches d 1 (s.push (.catalog (.call e) :: ls)) (s.push (e.frameLines ++ ls)) := by
  refine (reaches_go (ls := ls) (t := s.push (e.frameLines ++ ls)) h hd ?_)
  cases e <;> first | exact absurd rfl he | rfl

/-- ACMD41 calls CMD55 first (R105, R181). -/
theorem reaches_callAcmd41 (h : s.running) (hd : d ≤ s.seq.length) :
    Reaches d 2 (s.push (.catalog (.call .acmd41) :: ls))
      (s.push (Entry.cmd55.frameLines ++ .catalog .afterPrefix :: ls)) :=
  ((reaches_go (ls := ls) h hd (l := .catalog (.call .acmd41)) rfl).cast rfl rfl).trans
    (reaches_call (s := s) (ls := .catalog .afterPrefix :: ls) (e := .cmd55) (by simp) h hd)

end Sys2Proof.Machine
end

