-- ==== Sys2Proof/Laws/Memory.lean ====
section
/-!
SUPPORT. The laws of the hosts' memory: the canonical form is kept, a byte written is read back, every other byte
is untouched; and a run of bytes stored at rising addresses.
-/

namespace Sys2Proof.Machine

/-- Addresses strictly rise. -/
abbrev Memory.Rising (m : Memory) : Prop := m.Pairwise (fun x y => x.1 < y.1)

theorem Memory.read_below (m : Memory) (a : Nat) (h : ∀ c ∈ m, a < c.1) : m.read a = Memory.blank := by
  induction m with
  | nil => rfl
  | cons c rest ih =>
    have h1 := h c (by simp)
    rw [Memory.read, if_neg (by omega)]
    exact ih fun c hc => h c (by simp [hc])

theorem Memory.mem_write {m : Memory} {a : Nat} {v : Byte} {c : Host.Cell} (h : c ∈ m.write a v) :
    c ∈ m ∨ (c = (a, v) ∧ v ≠ Memory.blank) := by
  induction m with
  | nil => by_cases hv : v = Memory.blank <;> simp_all [Memory.write]
  | cons d rest ih =>
    obtain ⟨x, b⟩ := d
    simp only [Memory.write] at h
    split at h
    · rcases List.mem_cons.mp h with rfl | h
      · simp
      · rcases ih h with h | h <;> simp [h]
    · split at h <;> split at h <;> simp_all <;> grind

theorem Memory.rising_write {m : Memory} (h : m.Rising) (a : Nat) (v : Byte) : (m.write a v).Rising := by
  induction m with
  | nil => by_cases hv : v = Memory.blank <;> simp [Memory.write, hv]
  | cons d rest ih =>
    obtain ⟨x, b⟩ := d
    obtain ⟨h1, h2⟩ := List.pairwise_cons.mp h
    simp only [Memory.write]
    split
    · refine List.pairwise_cons.mpr ⟨fun c hc => ?_, ih h2⟩
      rcases Memory.mem_write hc with hc | ⟨rfl, -⟩
      · exact h1 c hc
      · assumption
    · split
      · split
        · exact h2
        · rename_i hx _
          subst hx
          exact List.pairwise_cons.mpr ⟨h1, h2⟩
      · split
        · exact h
        · refine List.pairwise_cons.mpr ⟨fun c hc => ?_, h⟩
          rcases List.mem_cons.mp hc with rfl | hc
          · simp only; omega
          · have := h1 c hc
            simp only at this ⊢
            omega

/-- A write keeps the canonical form. -/
theorem Memory.wf_write {m : Memory} (h : m.wf) (a : Nat) (v : Byte) : (m.write a v).wf := by
  refine ⟨Memory.rising_write h.1 a v, fun c hc => ?_⟩
  rcases Memory.mem_write hc with hc | ⟨rfl, hv⟩
  · exact h.2 c hc
  · exact hv

/-- The byte written is read back. -/
theorem Memory.read_write_same {m : Memory} (h : m.Rising) (a : Nat) (v : Byte) :
    (m.write a v).read a = v := by
  induction m with
  | nil => by_cases hv : v = Memory.blank <;> simp [Memory.write, Memory.read, hv]
  | cons c rest ih =>
    obtain ⟨x, b⟩ := c
    obtain ⟨h1, h2⟩ := List.pairwise_cons.mp h
    simp only [Memory.write]
    split
    · rename_i hx
      rw [Memory.read, if_neg (by omega)]
      exact ih h2
    · split
      · rename_i hx
        subst hx
        split
        · rename_i hv
          rw [Memory.read_below rest _ h1, hv]
        · simp [Memory.read]
      · split
        · rename_i hx _ hv
          rw [Memory.read, if_neg (by omega), hv]
          exact Memory.read_below rest _ fun c hc => by have := h1 c hc; simp only at this; omega
        · simp [Memory.read]

/-- Every other byte reads as before. -/
theorem Memory.read_write_other (m : Memory) {a a' : Nat} (v : Byte) (hne : a' ≠ a) :
    (m.write a v).read a' = m.read a' := by
  induction m with
  | nil => by_cases hv : v = Memory.blank <;> simp [Memory.write, Memory.read, hv, hne.symm]
  | cons c rest ih =>
    obtain ⟨x, b⟩ := c
    simp only [Memory.write]
    split
    · simp [Memory.read, ih]
    · split
      · rename_i hx
        subst hx
        split <;> simp [Memory.read, hne.symm]
      · split <;> simp [Memory.read, hne.symm]

/-- Bytes stored at rising addresses from `a` on. -/
def Memory.store : Memory → Nat → List Byte → Memory
  | m, _, [] => m
  | m, a, b :: rest => Memory.store (m.write a b) (a + 1) rest

theorem Memory.wf_store {m : Memory} (h : m.wf) (a : Nat) (bs : List Byte) : (m.store a bs).wf := by
  induction bs generalizing m a with
  | nil => exact h
  | cons b t ih => exact ih (Memory.wf_write h a b) (a + 1)

theorem Memory.read_store_below (m : Memory) {a a' : Nat} (bs : List Byte) (h : a' < a) :
    (m.store a bs).read a' = m.read a' := by
  induction bs generalizing m a with
  | nil => rfl
  | cons b t ih =>
    rw [Memory.store, ih _ (by omega), Memory.read_write_other _ _ (by omega)]

theorem Memory.read_store_above (m : Memory) {a a' : Nat} (bs : List Byte) (h : a + bs.length ≤ a') :
    (m.store a bs).read a' = m.read a' := by
  induction bs generalizing m a with
  | nil => rfl
  | cons b t ih =>
    rw [Memory.store, ih _ (by simp at h; omega), Memory.read_write_other _ _ (by simp at h; omega)]

/-- The stored bytes are read back. -/
theorem Memory.read_store {m : Memory} (h : m.Rising) (a : Nat) (bs : List Byte) (j : Nat)
    (hj : j < bs.length) : (m.store a bs).read (a + j) = bs[j] := by
  induction bs generalizing m a j with
  | nil => simp at hj
  | cons b t ih =>
    rw [Memory.store]
    cases j with
    | zero =>
      change (Memory.store (m.write a b) (a + 1) t).read a = b
      rw [Memory.read_store_below _ _ (show a < a + 1 by omega), Memory.read_write_same h]
    | succ j =>
      have := ih (Memory.rising_write h a b) (a + 1) j (by simpa using hj)
      rw [show a + (j + 1) = a + 1 + j by omega, this]
      rfl

/-- Every byte outside the stored range reads as before. -/
theorem Memory.read_store_outside (m : Memory) {a a' : Nat} (bs : List Byte)
    (h : ¬ (a ≤ a' ∧ a' < a + bs.length)) : (m.store a bs).read a' = m.read a' := by
  by_cases h1 : a' < a
  · exact Memory.read_store_below m bs h1
  · exact Memory.read_store_above m bs (by omega)

end Sys2Proof.Machine
end

