-- ==== Sys2Proof/Laws/Block.lean ====
section
/-!
SUPPORT. What the data token framer, the CRC validator and the polls of a data phase reach
(spec/44_block_transfer.md): token poll, block read, block write, data response, busy wait.
-/

namespace Sys2Proof.Machine

variable {s : State} {d : Nat} {ls : List Line}

/-! ### Single primitives -/

/-- `SETCS(HOLD)` in a transfer. -/
theorem reaches_hold (h : s.running) (hd : d ≤ s.seq.length) :
    Reaches d 1 (s.push (.block .hold :: ls)) ((s.setCs .hold).push ls) :=
  reaches_go h hd (l := .block .hold) rfl

/-- `SETCS(AUTO)` in a transfer. -/
theorem reaches_auto (h : s.running) (hd : d ≤ s.seq.length) :
    Reaches d 1 (s.push (.block .auto :: ls)) ((s.setCs .auto).push ls) :=
  reaches_go h hd (l := .block .auto) rfl

/-- `SEND(0xFF)`. -/
theorem reaches_filler (h : s.running) (hd : d ≤ s.seq.length) {i : Byte} {r : List Byte}
    (hrx : s.rx = i :: r) :
    Reaches d 1 (s.push (.block .filler :: ls)) ((s.wire [.xchg fillerByte i] r).push ls) :=
  reaches_exchange h hd (l := .block .filler) rfl hrx

/-- `SEND(0xFD)`. -/
theorem reaches_stopToken (h : s.running) (hd : d ≤ s.seq.length) {i : Byte} {r : List Byte}
    (hrx : s.rx = i :: r) :
    Reaches d 1 (s.push (.block .stopToken :: ls)) ((s.wire [.xchg stopTokenByte i] r).push ls) :=
  reaches_exchange h hd (l := .block .stopToken) rfl hrx

/-- `RECV()` into the latch. -/
theorem reaches_receive (h : s.running) (hd : d ≤ s.seq.length) {i : Byte} {r : List Byte}
    (hrx : s.rx = i :: r) :
    Reaches d 1 (s.push (.block .receive :: ls))
      (((s.setDp fun d => { d with data := i }).wire [.xchg fillerByte i] r).push ls) :=
  reaches_exchange h hd (l := .block .receive) rfl hrx

/-- An exchange, with what the line does on the byte received. -/
theorem reaches_recv {l : Line} (h : s.running) (hd : d ≤ s.seq.length) {o b : Byte} {r : List Byte}
    {k : Byte → State} {u : State} {ls' : List Line} (hrx : s.rx = b :: r)
    (ha : l.act (s.push ls) = .exchange o k) (hk : k b = u.push ls') :
    Reaches d 1 (s.push (l :: ls)) ((u.wire [.xchg o b] r).push ls') :=
  (reaches_exchange h hd ha hrx).cast rfl (by rw [hk]; rfl)

/-! ### A poll that counts -/

/-- One skipped read of a counting poll, and the poll goes on. -/
theorem reaches_skip {l : Line} (h : s.running) (hd : d ≤ s.seq.length) {b : Byte} {r : List Byte}
    {k : Byte → State} (ha : l.act (s.push ls) = .exchange fillerByte k)
    (hk : k b = (s.setDp fun d => { d with poll := d.poll + 1 }).push (l :: ls)) (hrx : s.rx = b :: r) :
    Reaches d 1 (s.push (l :: ls))
      (((s.setDp fun d => { d with poll := d.poll + 1 }).wire [.xchg fillerByte b] r).push (l :: ls)) :=
  (reaches_exchange h hd ha hrx).cast rfl (by rw [hk]; rfl)

/-- The skipped reads of a counting poll. `go` says what one read of a skipped byte does. -/
theorem reaches_skips {l : Line} {skip : Byte → Prop} {max : Nat} (r : List Byte)
    (go : ∀ (s : State) (b : Byte) (t : List Byte), s.running → d ≤ s.seq.length → skip b →
      s.dp.poll < max → s.cfg = cfg → s.rx = b :: t → Reaches d 1 (s.push (l :: ls))
      (((s.setDp fun d => { d with poll := d.poll + 1 }).wire [.xchg fillerByte b] t).push (l :: ls)))
    (pre : List Byte) :
    ∀ s : State, s.running → d ≤ s.seq.length → s.cfg = cfg → (∀ b ∈ pre, skip b) →
      s.dp.poll + pre.length ≤ max → s.rx = pre ++ r →
      Reaches d pre.length (s.push (l :: ls))
        (((s.setDp fun d => { d with poll := d.poll + pre.length }).wire (receives pre) r).push
          (l :: ls)) := by
  induction pre with
  | nil =>
    intro s _ _ _ _ _ hrx
    have : (s.setDp fun d => { d with poll := d.poll + ([] : List Byte).length }).wire (receives []) r = s := by
      subst hrx; rfl
    rw [this]
    exact Reaches.refl _ _
  | cons b t ih =>
    intro s h hd hc hpre hp hrx
    have h1 := go s b (t ++ r) h hd (hpre b (by simp)) (by simp at hp; omega) hc hrx
    have h2 := ih ((s.setDp fun d => { d with poll := d.poll + 1 }).wire [.xchg fillerByte b] (t ++ r))
      h hd hc (fun b hb => hpre b (by simp [hb])) (by simp at hp ⊢; omega) rfl
    refine (h1.trans h2).cast (by simp; omega) ?_
    simp [receives, State.wire, State.setDp, Nat.add_assoc, Nat.add_comm]

/-! ### `TOKEN_POLL` (R222) -/

theorem reaches_tokenStart (h : s.running) (hd : d ≤ s.seq.length) :
    Reaches d 1 (s.push (.block .tokenStart :: ls))
      ((s.setDp fun d => { d with poll := 0 }).push (.block .tokenPoll :: ls)) :=
  reaches_go h hd (l := .block .tokenStart) rfl

theorem reaches_tokenSkips {pre : List Byte} (r : List Byte) (h : s.running) (hd : d ≤ s.seq.length)
    (hpre : ∀ b ∈ pre, b ≠ startToken) (hp : s.dp.poll + pre.length ≤ s.cfg.tokenPollMax)
    (hrx : s.rx = pre ++ r) :
    Reaches d pre.length (s.push (.block .tokenPoll :: ls))
      (((s.setDp fun d => { d with poll := d.poll + pre.length }).wire (receives pre) r).push
        (.block .tokenPoll :: ls)) := by
  refine reaches_skips (cfg := s.cfg) (skip := fun b => b ≠ startToken) (max := s.cfg.tokenPollMax) r ?_ pre s
    h hd rfl hpre hp hrx
  intro u b t h hd hb hlt hc hrx
  exact reaches_skip (k := fun b => if b = startToken
      then ((u.setDp fun d => { d with poll := d.poll + 1 }).result true).push ls
      else (u.setDp fun d => { d with poll := d.poll + 1 }).push (.block .tokenPoll :: ls)) h hd
    (by simp [Line.act, BlockLine.act, Act.recv, hc, hlt]) (if_neg hb) hrx

/-- `TOKEN_POLL` where the start token comes (R222). -/
theorem reaches_token {pre r : List Byte} (h : s.running) (hd : d ≤ s.seq.length)
    (hpre : ∀ b ∈ pre, b ≠ startToken) (hp : pre.length < s.cfg.tokenPollMax)
    (hrx : s.rx = pre ++ startToken :: r) :
    Reaches d (pre.length + 2) (s.push (.block .tokenStart :: ls))
      (((s.setDp fun d => { d with poll := pre.length + 1, ok := true }).wire
        (receives (pre ++ [startToken])) r).push ls) := by
  have h1 := reaches_tokenStart (ls := ls) h hd
  have h2 := reaches_tokenSkips (ls := ls) (d := d) (s := s.setDp fun d => { d with poll := 0 })
    (pre := pre) (startToken :: r) h hd hpre (by simpa using Nat.le_of_lt hp) hrx
  have h3 := reaches_exchange (d := d) (ls := ls)
    (s := ((s.setDp fun d => { d with poll := 0 }).setDp fun d => { d with poll := d.poll + pre.length }).wire
      (receives pre) (startToken :: r)) h hd (l := .block .tokenPoll) (o := fillerByte) (i := startToken)
    (r := r) (k := fun b => if b = startToken
      then ((s.setDp fun d => { d with poll := pre.length + 1, ok := true }).wire
        (receives pre) (startToken :: r)).push ls
      else ((s.setDp fun d => { d with poll := pre.length + 1 }).wire
        (receives pre) (startToken :: r)).push (.block .tokenPoll :: ls))
    (by simp [Line.act, BlockLine.act, Act.recv, hp]; rfl) rfl
  refine ((h1.trans h2).trans h3).cast (by omega) ?_
  simp [State.wire, State.setDp, State.exchanged, State.push, receives]

/-- `TOKEN_POLL` where no start token comes (R222). -/
theorem reaches_noToken {pre r : List Byte} (h : s.running) (hd : d ≤ s.seq.length)
    (hpre : ∀ b ∈ pre, b ≠ startToken) (hp : pre.length = s.cfg.tokenPollMax)
    (hrx : s.rx = pre ++ r) :
    Reaches d (pre.length + 2) (s.push (.block .tokenStart :: ls))
      (((s.setDp fun d => { d with poll := pre.length, ok := false }).wire (receives pre) r).push ls) := by
  have h1 := reaches_tokenStart (ls := ls) h hd
  have h2 := reaches_tokenSkips (ls := ls) (d := d) (s := s.setDp fun d => { d with poll := 0 })
    (pre := pre) r h hd hpre (by simp [hp]) hrx
  have h3 := reaches_go (d := d) (ls := ls)
    (s := ((s.setDp fun d => { d with poll := 0 }).setDp fun d => { d with poll := d.poll + pre.length }).wire
      (receives pre) r) h hd (l := .block .tokenPoll)
    (t := (((s.setDp fun d => { d with poll := pre.length, ok := false }).wire (receives pre) r).push ls))
    (by simp [Line.act, BlockLine.act, hp]; rfl)
  exact ((h1.trans h2).trans h3).cast (by omega) rfl

/-! ### `WAIT_NOT_BUSY` (R232) -/

/-- The busy poll is not exhausted before its `n`-th read. -/
theorem busy_not_exhausted {c : Config} {n m : Nat} (hb : ∀ k, c.busyPollMax = some k → m < k) (hn : n ≤ m) :
    busyExhausted c n = false := by
  unfold busyExhausted
  cases hc : c.busyPollMax with
  | none => rfl
  | some k => have := hb k hc; simp; omega

/-- `WAIT_NOT_BUSY` where the card releases the bus (R232). -/
theorem reaches_notBusy {idx : CmdIndex} {pre r : List Byte} (h : s.running) (hd : d ≤ s.seq.length)
    (hpre : ∀ b ∈ pre, b ≠ 0xFF) (hp : ∀ k, s.cfg.busyPollMax = some k → pre.length < k)
    (hrx : s.rx = pre ++ 0xFF :: r) :
    Reaches d (pre.length + 2) (s.push (.block (.busyStart idx) :: ls))
      (((s.setDp fun d => { d with poll := pre.length + 1 }).wire (receives (pre ++ [0xFF])) r).push ls) := by
  have h1 : Reaches d 1 (s.push (.block (.busyStart idx) :: ls))
      ((s.setDp fun d => { d with poll := 0 }).push (.block (.busy idx) :: ls)) :=
    reaches_go h hd (l := .block (.busyStart idx)) rfl
  have h2 := reaches_skips (d := d) (ls := ls) (l := .block (.busy idx)) (cfg := s.cfg)
    (skip := fun b => b ≠ 0xFF) (max := pre.length) (0xFF :: r) (by
      intro u b t h hd hb hlt hc hrx
      exact reaches_skip (k := fun b => if isNotBusy b
          then (u.setDp fun d => { d with poll := d.poll + 1 }).push ls
          else (u.setDp fun d => { d with poll := d.poll + 1 }).push (.block (.busy idx) :: ls)) h hd
        (by simp [Line.act, BlockLine.act, Act.recv, hc, busy_not_exhausted hp (Nat.le_of_lt hlt)])
        (if_neg (by simpa [isNotBusy] using hb)) hrx) pre
    (s.setDp fun d => { d with poll := 0 }) h hd rfl hpre (by simp) hrx
  have h3 := reaches_exchange (d := d) (ls := ls)
    (s := ((s.setDp fun d => { d with poll := 0 }).setDp fun d => { d with poll := d.poll + pre.length }).wire
      (receives pre) (0xFF :: r)) h hd (l := .block (.busy idx)) (o := fillerByte) (i := 0xFF)
    (r := r) (k := fun b => if isNotBusy b
      then ((s.setDp fun d => { d with poll := pre.length + 1 }).wire (receives pre) (0xFF :: r)).push ls
      else ((s.setDp fun d => { d with poll := pre.length + 1 }).wire (receives pre) (0xFF :: r)).push
        (.block (.busy idx) :: ls))
    (by simp [Line.act, BlockLine.act, Act.recv, busy_not_exhausted hp (Nat.le_refl _)]) rfl
  refine ((h1.trans h2).trans h3).cast (by omega) ?_
  simp [State.wire, State.setDp, State.exchanged, State.push, receives, isNotBusy]

/-- `WAIT_NOT_BUSY` where the bound is passed (R232): the mode is AUTO, then the halt. -/
theorem reaches_busyTimeout {idx : CmdIndex} {pre r : List Byte} (h : s.running) (hd : d ≤ s.seq.length)
    (hpre : ∀ b ∈ pre, b ≠ 0xFF) (hp : s.cfg.busyPollMax = some pre.length) (hrx : s.rx = pre ++ r) :
    Reaches d (pre.length + 4) (s.push (.block (.busyStart idx) :: ls))
      (((((s.setDp fun d => { d with poll := pre.length }).wire (receives pre) r).setCs .auto).raiseFatal
        { code := .busyTimeout, cmd := some idx }).push ls) := by
  have h1 : Reaches d 1 (s.push (.block (.busyStart idx) :: ls))
      ((s.setDp fun d => { d with poll := 0 }).push (.block (.busy idx) :: ls)) :=
    reaches_go h hd (l := .block (.busyStart idx)) rfl
  have h2 := reaches_skips (d := d) (ls := ls) (l := .block (.busy idx)) (cfg := s.cfg)
    (skip := fun b => b ≠ 0xFF) (max := pre.length) r (by
      intro u b t h hd hb hlt hc hrx
      exact reaches_skip (k := fun b => if isNotBusy b
          then (u.setDp fun d => { d with poll := d.poll + 1 }).push ls
          else (u.setDp fun d => { d with poll := d.poll + 1 }).push (.block (.busy idx) :: ls)) h hd
        (by simp [Line.act, BlockLine.act, Act.recv, hc, busyExhausted, hp, Nat.not_le.mpr hlt])
        (if_neg (by simpa [isNotBusy] using hb)) hrx) pre
    (s.setDp fun d => { d with poll := 0 }) h hd rfl hpre (by simp) hrx
  have h3 := reaches_go (d := d) (ls := ls)
    (s := ((s.setDp fun d => { d with poll := 0 }).setDp fun d => { d with poll := d.poll + pre.length }).wire
      (receives pre) r) h hd (l := .block (.busy idx))
    (t := ((s.setDp fun d => { d with poll := pre.length }).wire (receives pre) r).push
      (.halt (.abort { code := .busyTimeout, cmd := some idx }) :: ls))
    (by simp [Line.act, BlockLine.act, busyExhausted, hp])
  have h4 := reaches_abort (d := d) (ls := ls)
    (s := (s.setDp fun d => { d with poll := pre.length }).wire (receives pre) r) h hd
    { code := .busyTimeout, cmd := some idx }
  exact (((h1.trans h2).trans h3).trans h4).cast (by omega) rfl

/-! ### `DRESP_POLL` (R224) -/

theorem reaches_drespSkips {idx : CmdIndex} (r : List Byte) (n : Nat) (h : s.running)
    (hd : d ≤ s.seq.length) (hn : n ≤ s.cfg.drespPollMax)
    (hrx : s.rx = List.replicate n 0xFF ++ r) :
    Reaches d (n + 1) (s.push (.block (.drespStart idx) :: ls))
      (((s.setDp fun d => { d with poll := n }).wire (receives (List.replicate n 0xFF)) r).push
        (.block (.dresp idx) :: ls)) := by
  have h1 : Reaches d 1 (s.push (.block (.drespStart idx) :: ls))
      ((s.setDp fun d => { d with poll := 0 }).push (.block (.dresp idx) :: ls)) :=
    reaches_go h hd (l := .block (.drespStart idx)) rfl
  have h2 := reaches_skips (d := d) (ls := ls) (l := .block (.dresp idx)) (cfg := s.cfg)
    (skip := fun b => b = 0xFF) (max := s.cfg.drespPollMax) r (by
      intro u b t h hd hb hlt hc hrx
      subst hb
      exact reaches_exchange (k := fun b =>
        let s1 := (u.push ls).setDp fun d => { d with poll := d.poll + 1 }
        if b = 0xFF then s1.push [.block (.dresp idx)]
        else if dataAccepted b then s1
        else s1.push
          [.halt (.abort { code := .writeRejected, cmd := some idx, unit := some u.dp.k, byte := some b })])
        h hd (by simp [Line.act, BlockLine.act, Act.recv, hc, hlt]) hrx)
    (List.replicate n 0xFF)
    (s.setDp fun d => { d with poll := 0 }) h hd rfl (fun b hb => (List.mem_replicate.mp hb).2)
    (by simpa using hn) hrx
  refine (h1.trans h2).cast (by simp; omega) ?_
  simp [State.setDp]

/-- `DRESP_POLL` where the block is accepted (R224). -/
theorem reaches_accepted {idx : CmdIndex} {b : Byte} {r : List Byte} (n : Nat) (h : s.running)
    (hd : d ≤ s.seq.length) (hn : n < s.cfg.drespPollMax) (hb : b ≠ 0xFF) (ha : dataAccepted b = true)
    (hrx : s.rx = List.replicate n 0xFF ++ b :: r) :
    Reaches d (n + 2) (s.push (.block (.drespStart idx) :: ls))
      (((s.setDp fun d => { d with poll := n + 1 }).wire
        (receives (List.replicate n 0xFF ++ [b])) r).push ls) := by
  have h1 := reaches_drespSkips (ls := ls) (idx := idx) (b :: r) n h hd (Nat.le_of_lt hn) hrx
  have h2 := reaches_recv (d := d) (ls := ls) (l := .block (.dresp idx)) (ls' := ls)
    (s := (s.setDp fun d => { d with poll := n }).wire (receives (List.replicate n 0xFF)) (b :: r))
    (u := (s.setDp fun d => { d with poll := n + 1 }).wire (receives (List.replicate n 0xFF)) (b :: r))
    h hd rfl (if_pos hn) ((if_neg hb).trans (if_pos ha))
  refine (h1.trans h2).cast (by omega) ?_
  simp [receives]

/-- `DRESP_POLL` where the block is rejected (R224): the mode is AUTO, then the halt. -/
theorem reaches_rejected {idx : CmdIndex} {b : Byte} {r : List Byte} (n : Nat) (h : s.running)
    (hd : d ≤ s.seq.length) (hn : n < s.cfg.drespPollMax) (hb : b ≠ 0xFF) (ha : dataAccepted b = false)
    (hrx : s.rx = List.replicate n 0xFF ++ b :: r) :
    Reaches d (n + 4) (s.push (.block (.drespStart idx) :: ls))
      (((((s.setDp fun d => { d with poll := n + 1 }).wire (receives (List.replicate n 0xFF ++ [b])) r).setCs
        .auto).raiseFatal
          { code := .writeRejected, cmd := some idx, unit := some s.dp.k, byte := some b }).push ls) := by
  have h1 := reaches_drespSkips (ls := ls) (idx := idx) (b :: r) n h hd (Nat.le_of_lt hn) hrx
  have h2 := reaches_recv (d := d) (ls := ls) (l := .block (.dresp idx))
    (ls' := .halt (.abort
      { code := .writeRejected, cmd := some idx, unit := some s.dp.k, byte := some b }) :: ls)
    (s := (s.setDp fun d => { d with poll := n }).wire (receives (List.replicate n 0xFF)) (b :: r))
    (u := (s.setDp fun d => { d with poll := n + 1 }).wire (receives (List.replicate n 0xFF)) (b :: r))
    h hd rfl (if_pos hn) ((if_neg hb).trans (if_neg (by simp [ha])))
  have h3 := reaches_abort (d := d) (ls := ls)
    (s := ((s.setDp fun d => { d with poll := n + 1 }).wire (receives (List.replicate n 0xFF))
      (b :: r)).wire [.xchg fillerByte b] r) h hd
    { code := .writeRejected, cmd := some idx, unit := some s.dp.k, byte := some b }
  refine ((h1.trans h2).trans h3).cast (by omega) ?_
  simp [receives]

/-- `DRESP_POLL` where no response comes (R224): the mode is AUTO, then the halt. -/
theorem reaches_drespTimeout {idx : CmdIndex} {r : List Byte} (h : s.running)
    (hd : d ≤ s.seq.length) (hrx : s.rx = List.replicate s.cfg.drespPollMax 0xFF ++ r) :
    Reaches d (s.cfg.drespPollMax + 4) (s.push (.block (.drespStart idx) :: ls))
      (((((s.setDp fun d => { d with poll := s.cfg.drespPollMax }).wire
        (receives (List.replicate s.cfg.drespPollMax 0xFF)) r).setCs .auto).raiseFatal
          { code := .writeRespTimeout, cmd := some idx, unit := some s.dp.k }).push ls) := by
  have h1 := reaches_drespSkips (ls := ls) (idx := idx) r s.cfg.drespPollMax h hd (Nat.le_refl _) hrx
  have h2 := reaches_go (d := d) (ls := ls) (l := .block (.dresp idx))
    (s := (s.setDp fun d => { d with poll := s.cfg.drespPollMax }).wire
      (receives (List.replicate s.cfg.drespPollMax 0xFF)) r)
    h hd (if_neg (Nat.lt_irrefl _))
  have h3 := reaches_abort (d := d) (ls := ls)
    (s := (s.setDp fun d => { d with poll := s.cfg.drespPollMax }).wire
      (receives (List.replicate s.cfg.drespPollMax 0xFF)) r) h hd
    { code := .writeRespTimeout, cmd := some idx, unit := some s.dp.k }
  exact ((h1.trans h2).trans h3).cast (by omega) rfl

/-! ### `READ_DATA_BLOCK` (R223) -/

/-- The base address of sector `k` of the request's buffer (R62). -/
def State.sectorBase (s : State) : Nat := s.req.buf.base + blockBytes * s.dp.k.toNat

/-- Payload bytes taken in, from byte index `j` on. -/
def State.takeIn : List Byte → State → State
  | [], s => s
  | b :: t, s =>
    ({ s with mem := s.mem.write (s.sectorBase + s.dp.j) b }.setDp fun d =>
      { d with data := b, crc16acc := crc16Byte d.crc16acc b, j := d.j + 1 }).takeIn t

/-- Everything a run of payload bytes does to the state. -/
theorem State.takeIn_eq (bs : List Byte) (s : State) :
    s.takeIn bs = { s with
      mem := s.mem.store (s.sectorBase + s.dp.j) bs
      dp := { s.dp with
        data := bs.getLast?.getD s.dp.data
        crc16acc := bs.foldl crc16Byte s.dp.crc16acc
        j := s.dp.j + bs.length } } := by
  induction bs generalizing s with
  | nil => rfl
  | cons b t ih =>
    rw [State.takeIn, ih]
    cases t with
    | nil => rfl
    | cons c t =>
      simp only [State.setDp, State.sectorBase, Memory.store, List.foldl, List.length_cons,
        List.getLast?_cons_cons, Nat.add_assoc, Nat.add_comm 1]
      congr 2

theorem State.takeIn_wire (bs : List Byte) (s : State) (es : List Event) (r : List Byte) :
    (s.wire es r).takeIn bs = (s.takeIn bs).wire es r := by
  rw [State.takeIn_eq, State.takeIn_eq]
  rfl

/-- Storing the latched byte: the access lies in the buffer. -/
theorem storeByte_act (h : s.blockOffset < s.req.buf.len) :
    Line.act (.block .storeByte) s =
      .go (({ s with mem := s.mem.write (s.sectorBase + s.dp.j) s.dp.data }.setDp fun d =>
          { d with j := d.j + 1 }).push
        (if s.dp.j + 1 < blockBytes then [.block .readByte]
         else [.block .crcHi, .block .crcLo, .block .crcTest])) := by
  simp only [Line.act, BlockLine.act, State.bufWrite]
  rw [if_pos h]
  simp [State.sectorBase, State.blockOffset, Nat.add_assoc]

theorem reaches_storeByte {b : Byte} {r : List Byte} (h : s.running) (hd : d ≤ s.seq.length)
    (hr : blockBytes * s.dp.k.toNat + s.dp.j < s.req.buf.len) (hrx : s.rx = b :: r) :
    Reaches d 2 (s.push (.block .readByte :: ls))
      (((s.takeIn [b]).wire (receives [b]) r).push
        ((if s.dp.j + 1 < blockBytes then [.block .readByte]
          else [.block .crcHi, .block .crcLo, .block .crcTest]) ++ ls)) := by
  have h1 := reaches_recv (d := d) (ls := ls) (l := .block .readByte) (ls' := .block .storeByte :: ls)
    (u := s.setDp fun d => { d with data := b, crc16acc := crc16Byte d.crc16acc b }) h hd hrx rfl rfl
  have h2 := reaches_go (d := d) (ls := ls) (l := .block .storeByte)
    (s := (s.setDp fun d => { d with data := b, crc16acc := crc16Byte d.crc16acc b }).wire
      [.xchg fillerByte b] r) h hd (storeByte_act (s := State.push ls _) hr)
  refine (h1.trans h2).cast rfl ?_
  simp [State.takeIn, State.setDp, State.wire, State.push, State.sectorBase, receives]

/-- The payload bytes from byte index `j` to the last. -/
theorem reaches_payloadIn {r : List Byte} (bs : List Byte) :
    ∀ s : State, s.running → d ≤ s.seq.length → bs ≠ [] → s.dp.j + bs.length = blockBytes →
      blockBytes * s.dp.k.toNat + blockBytes ≤ s.req.buf.len → s.rx = bs ++ r →
      Reaches d (2 * bs.length) (s.push (.block .readByte :: ls))
        (((s.takeIn bs).wire (receives bs) r).push
          (.block .crcHi :: .block .crcLo :: .block .crcTest :: ls)) := by
  induction bs with
  | nil => intro s _ _ h; exact absurd rfl h
  | cons b t ih =>
    intro s h hd _ hlen hr hrx
    simp only [List.length_cons] at hlen
    have h1 := reaches_storeByte (ls := ls) (d := d) h hd (b := b) (r := t ++ r) (by omega) hrx
    by_cases ht : t = []
    · subst ht
      rw [if_neg (by simp at hlen; omega)] at h1
      exact h1
    · have hpos := List.length_pos_iff.mpr ht
      rw [if_pos (by omega)] at h1
      have h2 := ih ((s.takeIn [b]).wire (receives [b]) (t ++ r)) h hd ht
        (by simp [State.takeIn]; omega) hr rfl
      refine (h1.trans h2).cast (by simp; omega) ?_
      rw [State.takeIn_wire, State.wire_wire]
      rfl

/-- The two bytes of a CRC16 trailer, big-endian (R65, R98). -/
theorem crc_trailer (hi lo : Byte) : (hi ++ 0#8 : BitVec 16) ||| lo.zeroExtend 16 = hi ++ lo := by
  have : (hi ++ 0#8 : BitVec (8 + 8)) ||| lo.zeroExtend (8 + 8) = hi ++ lo := by
    apply BitVec.eq_of_getLsbD_eq
    intro i h
    simp only [BitVec.getLsbD_or, BitVec.getLsbD_append, BitVec.getLsbD_setWidth]
    by_cases h8 : i < 8
    · simp [h8]; omega
    · simp [h8, BitVec.getLsbD_of_ge lo i (by omega)]
  exact this

/-- `READ_DATA_BLOCK(k)` (R223): payload, trailer, comparison. -/
theorem reaches_readBlock {payload r : List Byte} {hi lo : Byte} (h : s.running) (hd : d ≤ s.seq.length)
    (hlen : payload.length = blockBytes)
    (hr : blockBytes * s.dp.k.toNat + blockBytes ≤ s.req.buf.len) (hrx : s.rx = payload ++ hi :: lo :: r) :
    Reaches d (2 * blockBytes + 4) (s.push (.block .readStart :: ls))
      (({ s.wire (receives (payload ++ [hi, lo])) r with
          mem := s.mem.store s.sectorBase payload
          dp := { s.dp with
            data := payload.getLast?.getD s.dp.data, crc16acc := crc16 payload, crcRx := hi ++ lo
            j := blockBytes, ok := crc16 payload == hi ++ lo } } : State).push ls) := by
  have h1 : Reaches d 1 (s.push (.block .readStart :: ls))
      ((s.setDp fun d => { d with j := 0, crc16acc := 0 }).push (.block .readByte :: ls)) :=
    reaches_go h hd (l := .block .readStart) rfl
  have h2 := reaches_payloadIn (d := d) (ls := ls) (r := hi :: lo :: r) payload
    (s.setDp fun d => { d with j := 0, crc16acc := 0 }) h hd
    (by intro h0; rw [h0] at hlen; exact absurd hlen (by decide)) (by simp [hlen]) hr hrx
  obtain ⟨u, hu⟩ : ∃ u, u = (((s.setDp fun d => { d with j := 0, crc16acc := 0 }).takeIn payload).wire
    (receives payload) (hi :: lo :: r)) := ⟨_, rfl⟩
  have hrun : u.running := by rw [hu, State.takeIn_eq]; exact h
  have hdu : d ≤ u.seq.length := by rw [hu, State.takeIn_eq]; exact hd
  rw [← hu] at h2
  have h3 := reaches_recv (d := d) (ls := .block .crcLo :: .block .crcTest :: ls) (l := .block .crcHi)
    (ls' := .block .crcLo :: .block .crcTest :: ls) (s := u)
    (u := u.setDp fun d => { d with crcRx := hi ++ 0#8 }) hrun hdu (by rw [hu]; rfl) rfl rfl
  have h4 := reaches_recv (d := d) (ls := .block .crcTest :: ls) (l := .block .crcLo) (b := lo) (r := r)
    (ls' := .block .crcTest :: ls)
    (s := (u.setDp fun d => { d with crcRx := hi ++ 0#8 }).wire [.xchg fillerByte hi] (lo :: r))
    (u := (u.setDp fun d => { d with crcRx := hi ++ lo }).wire [.xchg fillerByte hi] (lo :: r))
    hrun hdu rfl rfl (by simp [State.setDp, State.push, State.wire, crc_trailer])
  have h5 := reaches_go (d := d) (ls := ls) (l := .block .crcTest)
    (s := ((u.setDp fun d => { d with crcRx := hi ++ lo }).wire [.xchg fillerByte hi] (lo :: r)).wire
      [.xchg fillerByte lo] r) hrun hdu rfl
  refine ((((h1.trans h2).trans h3).trans h4).trans h5).cast (by omega) ?_
  rw [hu, State.takeIn_eq]
  simp [State.wire, State.setDp, State.push, State.result, State.sectorBase, receives, crc16, hlen]

/-! ### `WRITE_DATA_BLOCK` (R221) -/

@[simp] theorem Memory.slice_length (m : Memory) (a n : Nat) : (m.slice a n).length = n := by
  induction n generalizing a with
  | zero => rfl
  | succ n ih => simp [Memory.slice, ih]

/-- Fetching the byte to send: the access lies in the buffer. -/
theorem fetchByte_act (h : s.blockOffset < s.req.buf.len) :
    Line.act (.block .fetchByte) s =
      .go ((s.setDp fun d => { d with data := s.mem.read (s.sectorBase + s.dp.j) }).push
        [.block .sendByte]) := by
  simp only [Line.act, BlockLine.act, State.bufRead]
  rw [if_pos h]
  simp [State.sectorBase, State.blockOffset, Nat.add_assoc]

theorem reaches_sendByte {i : Byte} {r : List Byte} (h : s.running) (hd : d ≤ s.seq.length)
    (hr : blockBytes * s.dp.k.toNat + s.dp.j < s.req.buf.len) (hrx : s.rx = i :: r) :
    Reaches d 2 (s.push (.block .fetchByte :: ls))
      (((s.setDp fun d => { d with data := s.mem.read (s.sectorBase + s.dp.j), j := d.j + 1 }).wire
          [.xchg (s.mem.read (s.sectorBase + s.dp.j)) i] r).push
        ((if s.dp.j + 1 < blockBytes then [.block .fetchByte] else [.block .filler, .block .filler]) ++
          ls)) := by
  have h1 := reaches_go (d := d) (ls := ls) (l := .block .fetchByte) (s := s) h hd
    (fetchByte_act (s := State.push ls _) hr)
  have h2 := reaches_recv (d := d) (ls := ls) (l := .block .sendByte)
    (s := s.setDp fun d => { d with data := s.mem.read (s.sectorBase + s.dp.j) })
    (u := s.setDp fun d => { d with data := s.mem.read (s.sectorBase + s.dp.j), j := d.j + 1 })
    (ls' := (if s.dp.j + 1 < blockBytes then [.block .fetchByte] else [.block .filler, .block .filler]) ++
          ls) h hd hrx rfl (by simp [State.setDp, State.push]; rfl)
  exact h1.trans h2

/-- The payload bytes from byte index `j` to the last. -/
theorem reaches_payloadOut {r : List Byte} (ins : List Byte) :
    ∀ s : State, s.running → d ≤ s.seq.length → ins ≠ [] → s.dp.j + ins.length = blockBytes →
      blockBytes * s.dp.k.toNat + blockBytes ≤ s.req.buf.len → s.rx = ins ++ r →
      Reaches d (2 * ins.length) (s.push (.block .fetchByte :: ls))
        (((s.setDp fun d => { d with
            data := (s.mem.slice (s.sectorBase + s.dp.j) ins.length).getLast?.getD d.data
            j := blockBytes }).wire
          (exchanges (s.mem.slice (s.sectorBase + s.dp.j) ins.length) ins) r).push
          (.block .filler :: .block .filler :: ls)) := by
  induction ins with
  | nil => intro s _ _ h; exact absurd rfl h
  | cons i t ih =>
    intro s h hd _ hlen hr hrx
    simp only [List.length_cons] at hlen
    have h1 := reaches_sendByte (ls := ls) (d := d) h hd (i := i) (r := t ++ r) (by omega) hrx
    by_cases ht : t = []
    · subst ht
      rw [if_neg (by simp at hlen; omega)] at h1
      refine h1.cast rfl ?_
      simp at hlen
      simp [Memory.slice, exchanges, State.setDp, hlen]
    · have hpos := List.length_pos_iff.mpr ht
      rw [if_pos (by omega)] at h1
      obtain ⟨u, hu⟩ : ∃ u, u = ((s.setDp fun d =>
        { d with data := s.mem.read (s.sectorBase + s.dp.j), j := d.j + 1 }).wire
          [.xchg (s.mem.read (s.sectorBase + s.dp.j)) i] (t ++ r)) := ⟨_, rfl⟩
      rw [← hu] at h1
      have h2 := ih u (by rw [hu]; exact h) (by rw [hu]; exact hd) ht
        (by rw [hu]; simp; omega) (by rw [hu]; exact hr) (by rw [hu]; rfl)
      refine (h1.trans h2).cast (by simp; omega) ?_
      have hm : u.mem = s.mem := by rw [hu]; rfl
      have hb : u.sectorBase + u.dp.j = s.sectorBase + s.dp.j + 1 := by rw [hu]; rfl
      rw [hm, hb, hu]
      obtain ⟨n, hn⟩ : ∃ n, t.length = n + 1 := ⟨t.length - 1, by omega⟩
      simp [Memory.slice, exchanges, State.setDp, State.wire, hn, List.getLast?_cons]

/-- `WRITE_DATA_BLOCK(tok, k)` (R221): token, payload, two fillers. -/
theorem reaches_writeBlock {tok it f0 f1 : Byte} {ins r : List Byte} (h : s.running)
    (hd : d ≤ s.seq.length) (hlen : ins.length = blockBytes)
    (hr : blockBytes * s.dp.k.toNat + blockBytes ≤ s.req.buf.len)
    (hrx : s.rx = it :: ins ++ f0 :: f1 :: r) :
    Reaches d (2 * blockBytes + 3) (s.push (.block (.writeToken tok) :: ls))
      (((s.setDp fun d => { d with
            data := (s.mem.slice s.sectorBase blockBytes).getLast?.getD d.data, j := blockBytes }).wire
          (exchanges (tok :: s.mem.slice s.sectorBase blockBytes ++ [fillerByte, fillerByte])
            (it :: ins ++ [f0, f1])) r).push ls) := by
  have h1 := reaches_recv (d := d) (ls := ls) (l := .block (.writeToken tok))
    (ls' := .block .fetchByte :: ls) (u := s.setDp fun d => { d with j := 0 }) h hd hrx rfl rfl
  have h2 := reaches_payloadOut (d := d) (ls := ls) (r := f0 :: f1 :: r) ins
    ((s.setDp fun d => { d with j := 0 }).wire [.xchg tok it] (ins ++ f0 :: f1 :: r)) h hd
    (by intro h0; rw [h0] at hlen; exact absurd hlen (by decide)) (by simp [hlen]) hr rfl
  rw [hlen] at h2
  have h3 := reaches_filler (d := d) (ls := .block .filler :: ls)
    (s := (s.setDp fun d => { d with
            data := (s.mem.slice s.sectorBase blockBytes).getLast?.getD d.data, j := blockBytes }).wire
          (exchanges (tok :: s.mem.slice s.sectorBase blockBytes) (it :: ins)) (f0 :: f1 :: r))
    h hd rfl
  have h4 := reaches_filler (d := d) (ls := ls)
    (s := ((s.setDp fun d => { d with
            data := (s.mem.slice s.sectorBase blockBytes).getLast?.getD d.data, j := blockBytes }).wire
          (exchanges (tok :: s.mem.slice s.sectorBase blockBytes) (it :: ins)) (f0 :: f1 :: r)).wire
            [.xchg fillerByte f0] (f1 :: r))
    h hd rfl
  refine (((h1.trans (h2.cast rfl ?_)).trans h3).trans h4).cast (by omega) ?_
  · simp [State.setDp, State.wire, exchanges, State.sectorBase]
  · have hz : List.zipWith Event.xchg (s.mem.slice s.sectorBase blockBytes ++ [fillerByte, fillerByte])
        (ins ++ [f0, f1]) = List.zipWith Event.xchg (s.mem.slice s.sectorBase blockBytes) ins ++
          [.xchg fillerByte f0, .xchg fillerByte f1] := by
      rw [List.zipWith_append (by simp [hlen])]
      rfl
    simp [exchanges, hz]

end Sys2Proof.Machine
end

