-- ==== Sys2Proof/Laws/Tick.lean ====
section
/-!
SUPPORT. What one step of the core can do: one inversion lemma for `tick`, and one lemma that says everything a line
can do, so that no proof about steps unfolds the lines.
-/

namespace Sys2Proof.Machine

/-- `t` is a state the line's act can lead to, before an exchange is recorded. -/
def Act.Gives : Act → State → Prop
  | .go s, t => t = s
  | .exchange _ next, t => ∃ b, t = next b
  | .stop _, _ => False

/-- A line that is neither the end of bring-up, nor the release, nor a raise. -/
def Line.plain : Line → Bool
  | .bringup .finish | .host .release | .halt (.raise _) => false
  | .framer _ | .decoder _ | .catalog _ | .bringup _ | .block _ | .transfer _ | .host _ | .halt _ => true

/-- Everything a plain line can do. -/
structure Acted (l : Line) (s t : State) : Prop where
  cfg : t.cfg = s.cfg
  phase : t.phase = s.phase
  blockLen : t.blockLen = s.blockLen
  ready : t.ready = s.ready
  fault : t.fault = s.fault
  guard : t.guard = s.guard
  pending : t.pending = s.pending
  host : t.req.host = s.req.host
  buf : t.req.buf = s.req.buf
  rx : t.rx = s.rx
  inputs : t.inputs = s.inputs
  arbTurn : t.arbTurn = s.arbTurn
  opWord : t.opWord = s.opWord
  port : t.port = s.port
  cap : (∀ b, l ≠ .bringup b) → t.cap = s.cap
  csMode : t.csMode = s.csMode ∨ t.csMode = .hold ∨ t.csMode = .auto
  mem : t.mem = s.mem ∨ ∃ b a v, l = .block b ∧ Buffer.contains s.req.buf a = true ∧ t.mem = s.mem.write a v
  trace : t.trace = s.trace ∨ (∃ m, t.trace = .setcs m :: s.trace) ∨ ∃ c, t.trace = .diag c :: s.trace
  seq : ∃ ls, t.seq = ls ++ s.seq ∧ (l.ofBringup = true → ∀ x ∈ ls, x.ofBringup = true) ∧
    (l.ofServe = true → ∀ x ∈ ls, x.ofServe = true)

theorem bufWrite_some {s t : State} {off : Nat} {v : Byte} (h : s.bufWrite off v = some t) :
    Buffer.contains s.req.buf (s.req.buf.base + off) = true ∧
      t = { s with mem := s.mem.write (s.req.buf.base + off) v } := by
  unfold State.bufWrite at h
  split at h
  · rename_i hlt
    cases h
    exact ⟨by simp [Buffer.contains, hlt], rfl⟩
  · cases h

theorem acted (l : Line) (s t : State) (hl : l.plain = true) (h : (l.act s).Gives t) : Acted l s t := by
  cases l <;> rename_i l <;> cases l
  all_goals (try simp only [Line.act, FramerLine.act, DecoderLine.act, BringupLine.act, TransferLine.act, BlockLine.act, HostLine.act, HaltLine.act] at h)
  all_goals (try simp only [CatalogLine.act] at h)
  all_goals (repeat' split at h)
  all_goals (try simp only [Act.Gives, Act.recv] at h)
  all_goals (obtain ⟨b, rfl⟩ := h; (repeat' split))
  all_goals first | (simp [Line.plain] at hl; done) | skip
  all_goals try (obtain ⟨hb, rfl⟩ := bufWrite_some (by assumption))
  all_goals constructor
  all_goals first
    | rfl
    | exact Or.inl rfl
    | exact Or.inr (Or.inl rfl)
    | exact Or.inr (Or.inr rfl)
    | exact fun _ => rfl
    | exact fun hb => absurd rfl (hb _)
    | exact Or.inr (Or.inl ⟨_, rfl⟩)
    | exact Or.inr (Or.inr ⟨_, rfl⟩)
    | exact Or.inr ⟨_, _, _, rfl, hb, rfl⟩
    | skip
  all_goals (refine ⟨_, by first | rfl | exact (List.nil_append _).symm, ?_⟩)
  all_goals first
    | (simp [Line.ofBringup, Line.ofServe, Line.shared]; done)
    | (simp [Line.ofBringup, Line.ofServe, Line.shared, Entry.frameLines]; done)
    | (unfold dispatchLine; (repeat' split) <;> simp [Line.ofBringup, Line.ofServe, Line.shared])
    | (constructor <;> intro _ x hx <;> simp only [List.mem_append, List.mem_map, List.mem_cons, List.not_mem_nil,
        or_false] at hx <;> rcases hx with (rfl | ⟨_, _, rfl⟩) | rfl | rfl | rfl <;> rfl)
/-- How the core makes a step (R9, R303, R340): the release of reset; the arbiter, with no line to perform; or the
current line, which acts, waits for a byte, or exchanges one. -/
theorem tick_cases {s t : State} (h : tick s = .next t) :
    (s.phase = .reset ∧ t = s.releaseReset) ∨
    (s.running ∧ s.seq = [] ∧ t = s.arbitrate) ∨
    (s.running ∧ ∃ l rest, s.seq = l :: rest ∧
      ((l.act { s with seq := rest } = .go t) ∨
       (∃ o k, l.act { s with seq := rest } = .exchange o k ∧ s.rx = [] ∧ t = s) ∨
       (∃ o k i r, l.act { s with seq := rest } = .exchange o k ∧ s.rx = i :: r ∧ t = (k i).exchanged o i r))) := by
  unfold tick at h
  split at h
  · cases h
  · rename_i hp
    cases h
    exact .inl ⟨hp, rfl⟩
  all_goals
    rename_i hp
    have hr : s.running := by rw [State.running, hp]; decide
    split at h
    · rename_i hs
      cases h
      exact .inr (.inl ⟨hr, hs, rfl⟩)
    · rename_i l rest hs
      refine .inr (.inr ⟨hr, l, rest, hs, ?_⟩)
      unfold Act.perform at h
      split at h
      · rename_i ha; cases h; exact .inl ha
      · cases h
      · rename_i o k ha
        split at h
        · rename_i hx; cases h; exact .inr (.inl ⟨o, k, ha, hx, rfl⟩)
        · rename_i i r hx; cases h; exact .inr (.inr ⟨o, k, i, r, ha, hx, rfl⟩)

/-! ### The lines above a caller's last, and the waiting hosts -/

/-- The first of the lines above `last`. -/
theorem endsIn_cons {p : Line → Bool} {last l : Line} {rest : List Line} (h : endsIn p last (l :: rest) = true) :
    (l = last ∧ rest = []) ∨ (p l = true ∧ endsIn p last rest = true) := by
  cases rest with
  | nil => simp [endsIn] at h; exact .inl ⟨h, rfl⟩
  | cons a r => simp [endsIn] at h; exact .inr h

/-- More lines above `last`. -/
theorem endsIn_append {p : Line → Bool} {last : Line} {ls rest : List Line} (h : ∀ x ∈ ls, p x = true)
    (hr : endsIn p last rest = true) : endsIn p last (ls ++ rest) = true := by
  induction ls with
  | nil => exact hr
  | cons a ls ih =>
    have h1 := ih (fun x hx => h x (by simp [hx]))
    have ha := h a (by simp)
    match hh : ls ++ rest, h1 with
    | b :: t, h1 => simp only [List.cons_append, hh, endsIn, ha, h1, Bool.and_self]

/-- A waiting host has a request pending. -/
theorem waitingFrom_mem {h : Nat} {k : Nat} {ps : List (Option Request)} (hm : h ∈ waitingFrom k ps) :
    ∃ i, h = k + i ∧ ((ps[i]?).join).isSome = true := by
  induction ps generalizing k with
  | nil => simp [waitingFrom] at hm
  | cons p ps ih =>
    cases p with
    | none =>
      obtain ⟨i, hi, hs⟩ := ih (k := k + 1) hm
      exact ⟨i + 1, by omega, by simpa using hs⟩
    | some r =>
      simp only [waitingFrom, List.mem_cons] at hm
      rcases hm with rfl | hm
      · exact ⟨0, rfl, by simp⟩
      · obtain ⟨i, hi, hs⟩ := ih (k := k + 1) hm
        exact ⟨i + 1, by omega, by simpa using hs⟩

end Sys2Proof.Machine
end

