-- ==== Sys2Proof/Laws/Facade.lean ====
section
/-!
SUPPORT. What the request port and the arbiter do: a submission that is enabled, the hosts that wait, everything the
arbiter can do, and how a served request's unit goes on to its release.
-/

namespace Sys2Proof.Machine

/-- An enabled submission (R264). -/
theorem State.submit_enabled {s : State} {h : Nat} {r : Request} (hl : h < s.pending.length)
    (hp : s.pendingOf h = none) (ha : s.admits r = true) :
    s.submit h r = { s with pending := s.pending.set h (some r) } := if_pos ⟨hl, hp, ha⟩

/-- A submission writes nothing but the pending entries. -/
theorem State.submit_frame (s : State) (h : Nat) (r : Request) :
    s.submit h r = { s with pending := (s.submit h r).pending } := by
  unfold State.submit
  split <;> rfl

/-- With nothing pending no host waits. -/
theorem waitingFrom_none {ps : List (Option Request)} (k : Nat) (h : ∀ g : Nat, (ps[g]?).join = none) :
    waitingFrom k ps = [] := by
  induction ps generalizing k with
  | nil => rfl
  | cons p ps ih =>
    have h0 := h 0
    simp only [List.getElem?_cons_zero, Option.join_some] at h0
    subst h0
    exact ih _ fun g => by simpa using h (g + 1)

/-- With one request pending its host waits alone. -/
theorem waitingFrom_set {ps : List (Option Request)} {k i : Nat} {r : Request} (hi : i < ps.length)
    (h : ∀ g : Nat, (ps[g]?).join = none) : waitingFrom k (ps.set i (some r)) = [k + i] := by
  induction ps generalizing k i with
  | nil => simp at hi
  | cons p ps ih =>
    have h0 := h 0
    have hs : ∀ g : Nat, (ps[g]?).join = none := fun g => by simpa using h (g + 1)
    simp only [List.getElem?_cons_zero, Option.join_some] at h0
    subst h0
    cases i with
    | zero => simp [waitingFrom, waitingFrom_none _ hs]
    | succ i =>
      simp only [List.set_cons_succ, waitingFrom]
      rw [ih (by simpa using hi) hs, show k + 1 + i = k + (i + 1) by omega]

/-- Everything the arbiter can do (R265, R268): nothing, or the grant of a host that waits. -/
theorem arbitrate_cases (s : State) : s.arbitrate = s ∨ (s.phase = .ready ∧ s.guard = none ∧
    ∃ h r n, s.pendingOf h = some r ∧ s.arbitrate = ({ s with arbTurn := n } : State).grant h r) := by
  unfold State.arbitrate
  split
  case isFalse => exact .inl rfl
  rename_i hs
  have hall : ∀ h ∈ s.waiting, ∃ r, s.pendingOf h = some r := fun h hh => by
    obtain ⟨i, hi, hj⟩ := waitingFrom_mem hh
    rw [Nat.zero_add] at hi
    subst hi
    exact Option.isSome_iff_exists.1 hj
  split
  · exact .inl rfl
  · rename_i h hw
    obtain ⟨r, hr⟩ := hall h (by simp [hw])
    exact .inr ⟨hs.1, hs.2, h, r, s.arbTurn, hr, by simp [State.grantTo, hr]⟩
  · rename_i h h' rest hw
    obtain ⟨r, hr⟩ := hall ((h :: h' :: rest).getD (Config.arbiterChoice s.arbTurn % (h :: h' :: rest).length) h) (by
      rw [hw, List.getD_eq_getElem _ _ (Nat.mod_lt _ (by simp))]
      exact List.getElem_mem _)
    have hp : State.pendingOf { s with arbTurn := s.arbTurn + 1 } = s.pendingOf := rfl
    exact .inr ⟨hs.1, hs.2, _, r, s.arbTurn + 1, hr, by simp only [State.grantTo, hp, hr]⟩

/-- `RELEASE` (R266). -/
def State.released (s : State) : State :=
  { s with
    guard := none, pending := s.pending.set s.req.host none, phase := .ready, seq := []
    trace := .done s.req.host s.req.op :: .release s.req.host :: s.trace }

/-- A unit that stands at the release makes it and is over. -/
theorem runUnit_release {s : State} (hp : s.phase = .busy) (hs : s.seq = [.host .release]) (fuel : Nat) :
    runUnit (fuel + 1) 0 s = .next s.released := by
  have ho : s.unitOver 0 = false := by simp [State.unitOver, hs, hp]
  have ht : tick s = .next s.released := by
    unfold tick
    simp only [hp, hs]
    rfl
  unfold runUnit
  simp only [ho, ht]
  exact runUnit_over (by simp [State.unitOver, State.released]) fuel

/-- What a request's service leaves, as a unit above its release, the unit with the release goes on from: it is
released (R266), or the core has halted. -/
theorem runUnit_to_release {fuel : Nat} {s t : State} (h : runUnit fuel 1 s = .next t) :
    (t.phase = .busy → t.seq = [.host .release] → runUnit (fuel + 1) 0 s = .next t.released) ∧
    (t.phase = .halted → runUnit (fuel + 1) 0 s = .next t) := by
  have stop : ∀ {u : State}, u.phase = .halted → ∀ n, runUnit n 0 u = .next u := fun hu n =>
    runUnit_over (by simp [State.unitOver, hu]) n
  induction fuel generalizing s with
  | zero =>
    cases h
    exact ⟨fun h1 h2 => runUnit_release h1 h2 0, fun h1 => stop h1 _⟩
  | succ k ih =>
    by_cases ho : s.unitOver 1 = true
    · rw [runUnit_over ho] at h
      cases h
      exact ⟨fun h1 h2 => runUnit_release h1 h2 _, fun h1 => stop h1 _⟩
    · have h0 : s.unitOver 0 = false := by
        simp only [State.unitOver_iff, not_or] at ho
        simp only [Bool.eq_false_iff, ne_eq, State.unitOver_iff, not_or]
        exact ⟨by omega, ho.2⟩
      unfold runUnit at h
      rw [if_neg ho] at h
      have hstep : runUnit (k + 1 + 1) 0 s = match tick s with
          | .next u => runUnit (k + 1) 0 u
          | .fault f => .fault f
          | .refused r => .refused r := by
        conv_lhs => unfold runUnit
        rw [h0]
        rfl
      rw [hstep]
      rcases ht : tick s with u | f | r
      · rw [ht] at h
        exact ih h
      · rw [ht] at h
        cases h
      · rw [ht] at h
        cases h

end Sys2Proof.Machine
end

