-- ==== Sys2Proof/Laws/Bringup.lean ====
section
/-!
SUPPORT. "No rule of this spec reads it before writing it" (R29): no instruction, and no step of a run from reset, comes
to the capacity test of bring-up with no `st.ocr`, so that the fault R29 asks for is never raised there.
-/

namespace Sys2Proof.Machine

/-- Bring-up's capacity test. -/
abbrev capTest : Line := .bringup .capFromOcr

/-- The lines `pre` above a capacity test, the running one first, write `st.ocr` or halt before it is reached: they
end in a step, call or R3 decode of CMD58 with its tests, or in a raise; or the step's test is about to fail. -/
def Shield (ok : Bool) (pre : List Line) : Prop :=
  (∃ q tail, pre = q ++ tail ∧
    ((∃ c, tail = [.bringup (.step .cmd58 c)]) ∨
     (∃ c, tail = [.catalog (.call .cmd58), .bringup (.stepTest .cmd58 c)]) ∨
     (∃ i c, tail = [.decoder (.start .r3 i), .catalog (.accept .cmd58), .bringup (.stepTest .cmd58 c)]) ∨
     (∃ c, tail = [.decoder (.judge .r3), .catalog (.accept .cmd58), .bringup (.stepTest .cmd58 c)]) ∨
     (∃ r, tail = [.halt (.raise r)]))) ∨
  (ok = false ∧ ∃ c, pre = [.bringup (.stepTest .cmd58 c)] ∨
    pre = [.catalog (.accept .cmd58), .bringup (.stepTest .cmd58 c)])

/-- Every capacity test among the lines `up` is shielded by the lines above it. -/
def Shielded (ok : Bool) (up : List Line) : Prop := ∀ pre rest, up = pre ++ capTest :: rest → Shield ok pre

/-- The core has halted, `st.ocr` has a value, or the lines above `base` shield their capacity tests. -/
def OcrReady (base : List Line) (s : State) : Prop :=
  s.phase = .halted ∨ s.ocr.isSome = true ∨ ∃ up, s.seq = up ++ base ∧ Shielded s.dp.ok up

theorem Shielded.of_not_mem {ok : Bool} {up : List Line} (h : capTest ∉ up) : Shielded ok up := by
  rintro pre rest rfl
  simp at h

theorem not_shield_nil (ok : Bool) : ¬ Shield ok [] := by
  simp [Shield]

/-- What a line pushes holds no capacity test, but for the probe, which puts CMD58's step above it; and no line takes
`st.ocr` away (R29, R150) or places an operation word. -/
theorem pushes (l : Line) (s t : State) (h : (l.act s).Gives t) :
    (t.ocr = s.ocr ∨ t.ocr.isSome = true) ∧ t.opWord = s.opWord ∧
    ∃ ls, t.seq = ls ++ s.seq ∧ (capTest ∉ ls ∨ ls = [.bringup (.step .cmd58 .initCmd58), capTest]) := by
  cases l <;> rename_i l <;> cases l
  all_goals (try simp only [Line.act, FramerLine.act, DecoderLine.act, BringupLine.act, TransferLine.act, BlockLine.act,
    HostLine.act, HaltLine.act] at h)
  all_goals (try simp only [CatalogLine.act] at h)
  all_goals (repeat' split at h)
  all_goals (try simp only [Act.Gives, Act.recv] at h)
  all_goals (obtain ⟨b, rfl⟩ := h; (repeat' split))
  all_goals try (obtain ⟨-, rfl⟩ := bufWrite_some (by assumption))
  all_goals refine ⟨?_, rfl, _, by first | rfl | exact (List.nil_append _).symm, ?_⟩
  all_goals first
    | exact Or.inl rfl
    | exact Or.inr rfl
    | (simp; done)
    | (simp [Entry.frameLines]; done)
    | (simp [bringupSteps]; done)
    | (left; unfold dispatchLine; (repeat' split) <;> simp)

/-- A shielded line's step leaves the capacity test shielded, writes `st.ocr`, or halts. -/
theorem Shield.step {l : Line} {s t : State} {ls pre : List Line} (hs : Shield s.dp.ok (l :: pre))
    (h : (l.act s).Gives t) (hls : t.seq = ls ++ s.seq) :
    t.phase = .halted ∨ t.ocr.isSome = true ∨ Shield t.dp.ok (ls ++ pre) := by
  rcases hs with ⟨q, tail, hq, ht⟩ | ⟨hok, c, hc⟩
  · cases q with
    | cons x q =>
      simp only [List.cons_append, List.cons.injEq] at hq
      exact .inr (.inr (.inl ⟨ls ++ q, tail, by rw [hq.2, List.append_assoc], ht⟩))
    | nil =>
      obtain ⟨c, rfl⟩ | ⟨c, rfl⟩ | ⟨i, c, rfl⟩ | ⟨c, rfl⟩ | ⟨r, rfl⟩ := ht <;>
        (simp only [List.nil_append, List.cons.injEq] at hq; obtain ⟨rfl, rfl⟩ := hq)
      · cases h
        obtain rfl := List.append_cancel_right hls
        exact .inr (.inr (.inl ⟨[], _, rfl, .inr (.inl ⟨c, rfl⟩)⟩))
      · cases h
        obtain rfl := List.append_cancel_right hls
        exact .inr (.inr (.inl ⟨[_], _, rfl, .inr (.inr (.inl ⟨_, c, rfl⟩))⟩))
      · cases h
        obtain rfl := List.append_cancel_right hls
        exact .inr (.inr (.inl ⟨[_, _, _, _, _, _, _], _, rfl, .inr (.inr (.inr (.inl ⟨c, rfl⟩)))⟩))
      · cases h
        obtain rfl := List.append_cancel_right (as := []) hls
        cases hg : endBitOk s.dp.trailer
        · exact .inr (.inr (.inr ⟨rfl, c, .inr rfl⟩))
        · exact .inr (.inl rfl)
      · cases h
        exact .inl rfl
  · obtain hc | hc := hc <;> (simp only [List.cons.injEq] at hc; obtain ⟨rfl, rfl⟩ := hc)
    · simp only [Line.act, BringupLine.act, hok, Bool.false_eq_true, if_false] at h
      split at h <;> (cases h; obtain rfl := List.append_cancel_right hls)
      · exact .inr (.inr (.inl ⟨[], _, rfl, .inr (.inl ⟨c, rfl⟩)⟩))
      · exact .inr (.inr (.inl ⟨[], _, rfl, .inr (.inr (.inr (.inr ⟨_, rfl⟩)))⟩))
    · cases h
      obtain rfl := List.append_cancel_right (as := []) hls
      exact .inr (.inr (.inr ⟨hok, c, .inl rfl⟩))

/-- A line's step keeps the capacity tests above `base` shielded. -/
theorem OcrReady.act {l : Line} {rest base : List Line} {s t : State} (hp : s.phase ≠ .halted)
    (hr : OcrReady base s) (hs : s.seq = l :: rest) (hb : base.length ≤ rest.length)
    (h : (l.act { s with seq := rest }).Gives t) : OcrReady base t := by
  obtain ⟨ho, -, ls, hls, hc⟩ := pushes l _ t h
  obtain hr | hr | ⟨up, hup, hsh⟩ := hr
  · exact absurd hr hp
  · exact .inr (.inl (by rcases ho with ho | ho <;> simp [ho, hr]))
  · cases up with
    | nil =>
      rw [hs, List.nil_append] at hup
      simp [← hup] at hb
    | cons x up =>
      rw [hs, List.cons_append, List.cons.injEq] at hup
      obtain ⟨rfl, rfl⟩ := hup
      by_cases hh : t.phase = .halted
      · exact .inl hh
      by_cases hv : t.ocr.isSome = true
      · exact .inr (.inl hv)
      refine .inr (.inr ⟨ls ++ up, by rw [hls, List.append_assoc], ?_⟩)
      have hstep : ∀ pre r, up = pre ++ capTest :: r → Shield t.dp.ok (ls ++ pre) := fun pre r he =>
        ((Shield.step (s := { s with seq := up ++ base }) (hsh (l :: pre) r (by rw [he, List.cons_append])) h
          hls).resolve_left hh).resolve_left hv
      intro pre r he
      rcases List.append_eq_append_iff.1 he with ⟨as, rfl, hu⟩ | ⟨cs, rfl, hu⟩
      · exact hstep as r hu
      · cases cs with
        | nil =>
          simpa using hstep [] r hu.symm
        | cons y cs =>
          simp only [List.cons_append, List.cons.injEq] at hu
          obtain ⟨rfl, -⟩ := hu
          obtain hc | hc := hc
          · simp at hc
          · match pre, hc with
            | [_], hc =>
              simp only [List.cons_append, List.nil_append, List.cons.injEq] at hc
              obtain ⟨rfl, -⟩ := hc
              exact .inl ⟨[], _, rfl, .inl ⟨_, rfl⟩⟩
            | [], hc => simp at hc
            | _ :: _ :: _, hc => simp at hc

/-- Only the capacity test raises the fault of R29, and only with no `st.ocr`. -/
theorem act_ocrNoValue {l : Line} {s : State} (h : l.act s = .stop .ocrNoValue) : l = capTest ∧ s.ocr = none := by
  cases l <;> rename_i l <;> cases l
  case bringup.capFromOcr =>
    simp only [Line.act, BringupLine.act] at h
    split at h
    · exact ⟨rfl, by assumption⟩
    · cases h
  all_goals exfalso
  all_goals (try simp only [Line.act, FramerLine.act, DecoderLine.act, BringupLine.act, TransferLine.act, BlockLine.act,
    HostLine.act, HaltLine.act] at h)
  all_goals (try simp only [CatalogLine.act] at h)
  all_goals (repeat' split at h)
  all_goals cases h

/-- The arbiter pushes no capacity test. -/
theorem OcrReady.arbitrate (s : State) : OcrReady s.seq s.arbitrate := by
  obtain h | ⟨-, -, h, r, n, -, h'⟩ := arbitrate_cases s
  · rw [h]
    exact .inr (.inr ⟨[], rfl, .of_not_mem (by simp)⟩)
  · rw [h']
    exact .inr (.inr ⟨[.host .serve, .host .release], rfl, .of_not_mem (by simp)⟩)

/-- A step of the core above `base` keeps the capacity tests shielded, and never raises the fault of R29. -/
theorem OcrReady.tick {base : List Line} {s : State} (hr : OcrReady base s)
    (hb : base.length < s.seq.length ∨ base = []) :
    Machine.tick s ≠ .fault .ocrNoValue ∧ ∀ t, Machine.tick s = .next t → OcrReady base t := by
  constructor
  · intro h
    unfold Machine.tick at h
    split at h
    · cases h
    · cases h
    all_goals
      rename_i hp
      split at h
      · cases h
      · rename_i l rest hs
        unfold Act.perform at h
        split at h
        · cases h
        · rename_i f ha
          cases h
          obtain ⟨rfl, ho⟩ := act_ocrNoValue ha
          obtain hr | hr | ⟨up, hup, hsh⟩ := hr
          · rw [hp] at hr
            cases hr
          · simp only at ho
            simp [ho] at hr
          · cases up with
            | nil =>
              rw [hs, List.nil_append] at hup
              subst hup
              simp [hs] at hb
            | cons x up =>
              rw [hs, List.cons_append, List.cons.injEq] at hup
              obtain ⟨rfl, -⟩ := hup
              exact not_shield_nil _ (hsh [] up rfl)
        · split at h <;> cases h
  · intro t h
    obtain ⟨hp, rfl⟩ | ⟨-, hs, rfl⟩ | ⟨hrun, l, rest, hs, h⟩ := tick_cases h
    · exact .inr (hr.resolve_left (by rw [hp]; decide))
    · rw [hs] at hb
      obtain hb | rfl := hb
      · simp at hb
      · simpa [hs] using OcrReady.arbitrate s
    · have hlen : base.length ≤ rest.length := by
        rw [hs] at hb
        obtain hb | rfl := hb
        · simp at hb
          omega
        · simp
      obtain h | ⟨o, k, -, -, rfl⟩ | ⟨o, k, i, r, ha, -, rfl⟩ := h
      · exact hr.act hrun.2 hs hlen (by rw [h]; rfl)
      · exact hr
      · exact (hr.act hrun.2 hs hlen (t := k i) (by rw [ha]; exact ⟨i, rfl⟩) : OcrReady base (k i))

/-- No step of the core places an operation word. -/
theorem tick_opWord {s t : State} (h : Machine.tick s = .next t) : t.opWord = s.opWord := by
  obtain ⟨-, rfl⟩ | ⟨-, -, rfl⟩ | ⟨-, l, rest, -, h⟩ := tick_cases h
  · rfl
  · obtain h | ⟨-, -, h, r, n, -, h'⟩ := arbitrate_cases s
    · rw [h]
    · rw [h']
      rfl
  · obtain h | ⟨o, k, -, -, rfl⟩ | ⟨o, k, i, r, ha, -, rfl⟩ := h
    · exact (pushes l { s with seq := rest } t (by rw [h]; rfl)).2.1
    · rfl
    · exact (pushes l { s with seq := rest } (k i) (by rw [ha]; exact ⟨i, rfl⟩)).2.1

/-- A unit never raises the fault of R29. -/
theorem OcrReady.runUnit {base : List Line} {s : State} (fuel : Nat) (hr : OcrReady base s) :
    Machine.runUnit fuel base.length s ≠ .fault .ocrNoValue := by
  induction fuel generalizing s with
  | zero => simp [Machine.runUnit]
  | succ n ih =>
    unfold Machine.runUnit
    split
    · simp
    · rename_i ho
      rw [State.unitOver_iff, not_or] at ho
      obtain ⟨h1, h2⟩ := hr.tick (.inl (by omega))
      split
      · rename_i t ht
        exact ih (h2 t ht)
      · rename_i f hf
        intro h
        cases h
        exact h1 hf
      · simp

/-- No procedure performed as a unit raises the fault of R29. -/
theorem perform_ne_ocrNoValue (s : State) (ls : List Line) (h : capTest ∉ ls) :
    s.perform ls ≠ .fault .ocrNoValue := by
  unfold State.perform
  split <;> first
    | exact OcrReady.runUnit (base := s.seq) _ (.inr (.inr ⟨ls, rfl, .of_not_mem h⟩))
    | simp

/-- No request word raises the fault of R29. -/
theorem request_ne_ocrNoValue (op : Byte) (sector count : Word) (s : State) :
    s.request op sector count ≠ .fault .ocrNoValue := by
  unfold State.request State.requestWord
  repeat' split
  all_goals first
    | exact perform_ne_ocrNoValue _ _ (by simp)
    | exact OcrReady.runUnit _ (OcrReady.arbitrate _)
    | simp

/-- No instruction of the table raises the fault of R29, in any state: bring-up comes to its capacity test only after a
CMD58 that wrote `st.ocr` (R205, R182). -/
theorem exec_ne_ocrNoValue (i : Instr) (s : State) : exec i s ≠ .fault .ocrNoValue := by
  cases i
  case readReq => exact request_ne_ocrNoValue _ _ _ _
  case writeReq => exact request_ne_ocrNoValue _ _ _ _
  case bringup =>
    simp only [exec, execBringup]
    repeat' split
    all_goals first | exact perform_ne_ocrNoValue _ _ (by simp) | simp
  case crc7 => simp only [exec, execCrc7, State.compute]; split <;> simp
  case crc16 => simp only [exec, execCrc16, State.compute]; split <;> simp
  all_goals exact perform_ne_ocrNoValue _ _ (by simp)

/-- The state after reset, whatever the parameters, shields its capacity tests: it holds none. -/
theorem ocrReady_reset (c : Config) : OcrReady [] (State.resetWith c) :=
  .inr (.inr ⟨_, (List.append_nil _).symm, .of_not_mem (by simp [State.resetWith])⟩)

/-- A step of the machine with no operation word placed never raises the fault of R29 from a state whose capacity tests
are shielded, and keeps them so, with no word placed: with `ocrReady_reset`, no run from reset raises it. -/
theorem step_ne_ocrNoValue {s : State} (hr : OcrReady [] s) (ho : s.opWord = none) :
    step s ≠ .fault .ocrNoValue ∧ ∀ t, step s = .next t → OcrReady [] t ∧ t.opWord = none := by
  have hcore : ∀ u : State, u.opWord = none → u.coreTurn = Machine.tick u := by
    intro u hu
    unfold State.coreTurn
    rw [hu]
    split <;> simp_all
  have htick : ∀ u : State, OcrReady [] u → u.opWord = none → u.coreTurn ≠ .fault .ocrNoValue ∧
      ∀ t, u.coreTurn = .next t → OcrReady [] t ∧ t.opWord = none := by
    intro u hu hw
    rw [hcore u hw]
    obtain ⟨h1, h2⟩ := hu.tick (.inr rfl)
    exact ⟨h1, fun t h => ⟨h2 t h, (tick_opWord h).trans hw⟩⟩
  unfold step State.turn
  split
  · exact htick s hr ho
  · split
    · exact ⟨by simp, fun t h => by cases h; exact ⟨hr, ho⟩⟩
    · exact htick _ hr ho
  · refine ⟨by simp, fun t h => ?_⟩
    cases h
    rw [State.submit_frame]
    exact ⟨hr, ho⟩
  · refine ⟨by simp, fun t h => ?_⟩
    cases h
    unfold State.hostWrite
    split <;> exact ⟨hr, ho⟩
  · exact ⟨by simp, fun t h => by cases h; exact ⟨ocrReady_reset s.cfg, rfl⟩⟩

end Sys2Proof.Machine
end

