-- ==== Sys2Proof/Laws/PerInstr.lean ====
section
/-!
SUPPORT. Facts of each instruction as syntax, one lemma per constructor: the length of an encoding is that of the
format its context reads (rules R90, R91, R99 to R102 of spec/30_encoding.md).
-/

namespace Sys2Proof.Laws

/-- The number of bytes a context reads: a frame is six, a request word nine, every token and response one;
bring-up has none, and the checksum units take their input. -/
def contextBytes : Ctx → Nat
  | .frame => 6
  | .requestPort => 9
  | .resetRelease => 0
  | .crc7Unit => crc7InputLen
  | .crc16Unit => crc16InputLen
  | .leadR1 | .leadR7 | .leadR3 | .tokenPoll | .dataResp | .busyPoll | .singleBlock | .multiBlock
  | .streamEnd | .clocking => 1

/-- A well-formed instruction's encoding has the length its context reads. -/
def EncodingLength.Statement (i : Instr) : Prop := i.wf = true → (encode i).length = contextBytes i.ctx

theorem EncodingLength.cmd0 : EncodingLength.Statement .cmd0 := fun _ => rfl
theorem EncodingLength.cmd8 : EncodingLength.Statement .cmd8 := fun _ => rfl
theorem EncodingLength.cmd12 : EncodingLength.Statement .cmd12 := fun _ => rfl
theorem EncodingLength.cmd16 : EncodingLength.Statement .cmd16 := fun _ => rfl
theorem EncodingLength.cmd17 (a : Word) : EncodingLength.Statement (.cmd17 a) := fun _ => rfl
theorem EncodingLength.cmd18 (a : Word) : EncodingLength.Statement (.cmd18 a) := fun _ => rfl
theorem EncodingLength.cmd24 (a : Word) : EncodingLength.Statement (.cmd24 a) := fun _ => rfl
theorem EncodingLength.cmd25 (a : Word) : EncodingLength.Statement (.cmd25 a) := fun _ => rfl
theorem EncodingLength.cmd55 : EncodingLength.Statement .cmd55 := fun _ => rfl
theorem EncodingLength.acmd41 : EncodingLength.Statement .acmd41 := fun _ => rfl
theorem EncodingLength.cmd58 : EncodingLength.Statement .cmd58 := fun _ => rfl
theorem EncodingLength.cmd59 : EncodingLength.Statement .cmd59 := fun _ => rfl
theorem EncodingLength.startTokenRead : EncodingLength.Statement .startTokenRead := fun _ => rfl
theorem EncodingLength.startTokenSingleWrite : EncodingLength.Statement .startTokenSingleWrite := fun _ => rfl
theorem EncodingLength.startTokenMultiWrite : EncodingLength.Statement .startTokenMultiWrite := fun _ => rfl
theorem EncodingLength.stopTokenMultiWrite : EncodingLength.Statement .stopTokenMultiWrite := fun _ => rfl
theorem EncodingLength.dataRespAccepted (v : BitVec 4) : EncodingLength.Statement (.dataRespAccepted v) := fun _ => rfl
theorem EncodingLength.notBusy : EncodingLength.Statement .notBusy := fun _ => rfl
theorem EncodingLength.filler : EncodingLength.Statement .filler := fun _ => rfl
theorem EncodingLength.r1Lead (v : BitVec 6) : EncodingLength.Statement (.r1Lead v) := fun _ => rfl
theorem EncodingLength.r7Lead (v : BitVec 6) : EncodingLength.Statement (.r7Lead v) := fun _ => rfl
theorem EncodingLength.r3Lead (v : BitVec 5) : EncodingLength.Statement (.r3Lead v) := fun _ => rfl
theorem EncodingLength.readReq (s n : Word) : EncodingLength.Statement (.readReq s n) := fun _ => rfl
theorem EncodingLength.writeReq (s n : Word) : EncodingLength.Statement (.writeReq s n) := fun _ => rfl
theorem EncodingLength.bringup : EncodingLength.Statement .bringup := fun _ => rfl
theorem EncodingLength.crc7 (m : List Byte) : EncodingLength.Statement (.crc7 m) := fun h => of_decide_eq_true h
theorem EncodingLength.crc16 (m : List Byte) : EncodingLength.Statement (.crc16 m) := fun h => of_decide_eq_true h

end Sys2Proof.Laws
end

