-- ==== Sys2Proof/Laws/Transfer.lean ====
section
/-!
SUPPORT. What the four transfer procedures reach (spec/44_block_transfer.md), composed from the laws of their
parts: `Kept` says what none of them changes, `Runs` bounds the steps by the bytes received.
-/

namespace Sys2Proof.Machine

/-- From `s` a unit that ends at depth `d` comes to `t`, in at most 64 steps a byte it takes, and `c` more. -/
def Runs (d : Nat) (c : Int) (s t : State) : Prop :=
  ∃ n : Nat, Reaches d n s t ∧ (n : Int) + 64 * t.rx.length ≤ 64 * s.rx.length + c

theorem Runs.trans {d : Nat} {c c' : Int} {s t u : State} (h : Runs d c s t) (h' : Runs d c' t u) :
    Runs d (c + c') s u := by
  obtain ⟨n, hn, hb⟩ := h
  obtain ⟨m, hm, hb'⟩ := h'
  exact ⟨n + m, hn.trans hm, by push_cast; omega⟩

theorem Runs.mono {d : Nat} {c c' : Int} {s t : State} (h : Runs d c s t) (hc : c ≤ c') : Runs d c' s t := by
  obtain ⟨n, hn, hb⟩ := h
  exact ⟨n, hn, by omega⟩

theorem Runs.refl (d : Nat) (s : State) : Runs d 0 s s := ⟨0, Reaches.refl d s, by simp⟩

theorem Reaches.runs {d n : Nat} {c : Int} {s t : State} (h : Reaches d n s t)
    (hc : (n : Int) + 64 * t.rx.length ≤ 64 * s.rx.length + c) : Runs d c s t := ⟨n, h, hc⟩

/-- A unit whose steps its fuel covers. -/
theorem perform_of_runs {s t : State} (h : s.running) {ls : List Line}
    (hr : Runs s.seq.length 64 (s.push ls) t) (hseq : t.seq = s.seq ∨ t.phase = .halted) :
    s.perform ls = .next t := by
  obtain ⟨n, hn, hb⟩ := hr
  exact perform_runs h hn (by simp at hb; omega) hseq

/-- What no part of a transfer changes. -/
structure Kept (s t : State) : Prop where
  cfg : t.cfg = s.cfg
  phase : t.phase = s.phase
  cap : t.cap = s.cap
  blockLen : t.blockLen = s.blockLen
  ready : t.ready = s.ready
  fault : t.fault = s.fault
  guard : t.guard = s.guard
  pending : t.pending = s.pending
  seq : t.seq = s.seq
  inputs : t.inputs = s.inputs
  arbTurn : t.arbTurn = s.arbTurn
  opWord : t.opWord = s.opWord
  port : t.port = s.port
  req : t.req = s.req

theorem Kept.refl (s : State) : Kept s s := ⟨rfl, rfl, rfl, rfl, rfl, rfl, rfl, rfl, rfl, rfl, rfl, rfl, rfl, rfl⟩

theorem Kept.trans {s t u : State} (h : Kept s t) (h' : Kept t u) : Kept s u :=
  ⟨h'.cfg.trans h.cfg, h'.phase.trans h.phase, h'.cap.trans h.cap, h'.blockLen.trans h.blockLen,
   h'.ready.trans h.ready, h'.fault.trans h.fault, h'.guard.trans h.guard, h'.pending.trans h.pending,
   h'.seq.trans h.seq, h'.inputs.trans h.inputs, h'.arbTurn.trans h.arbTurn, h'.opWord.trans h.opWord,
   h'.port.trans h.port, h'.req.trans h.req⟩

theorem Kept.running {s t : State} (h : Kept s t) (hs : s.running) : t.running := by
  unfold State.running
  rw [h.phase]
  exact hs

theorem Kept.depth {s t : State} (h : Kept s t) {d : Nat} (hd : d ≤ s.seq.length) : d ≤ t.seq.length := by
  rw [h.seq]
  exact hd

theorem State.Emits.trans {s t u : State} {es fs : List Event} (h : s.Emits t es) (h' : t.Emits u fs) :
    s.Emits u (es ++ fs) := by
  simp only [State.Emits] at *
  rw [h', h]
  simp

theorem State.Emits.refl (s : State) : s.Emits s [] := rfl

/-! ### A command inside a procedure -/

/-- The row of a command's entry. -/
def entryOf : Instr → Option Entry
  | .cmd0 => some .cmd0
  | .cmd8 => some .cmd8
  | .cmd12 => some .cmd12
  | .cmd16 => some .cmd16
  | .cmd17 a => some (.cmd17 a)
  | .cmd18 a => some (.cmd18 a)
  | .cmd24 a => some (.cmd24 a)
  | .cmd25 a => some (.cmd25 a)
  | .cmd55 => some .cmd55
  | .acmd41 => some .acmd41
  | .cmd58 => some .cmd58
  | .cmd59 => some .cmd59
  | .startTokenRead | .startTokenSingleWrite | .startTokenMultiWrite | .stopTokenMultiWrite
  | .dataRespAccepted _ | .notBusy | .filler | .r1Lead _ | .r7Lead _ | .r3Lead _
  | .readReq _ _ | .writeReq _ _ | .bringup | .crc7 _ | .crc16 _ => none

/-- An entry's frame is its row's encoding, and its shape the row's response. -/
theorem entryOf_frame {i : Instr} {e : Entry} (h : entryOf i = some e) :
    encodeFrame e.idx e.arg = encode i ∧ e.shape = responseOf i := by
  cases i <;> simp only [entryOf, Option.some.injEq, reduceCtorEq] at h <;> subst h <;>
    simp only [encode, Entry.idx, Entry.arg, Entry.shape, responseOf, and_self]

/-- What an answered frame leaves, beside `State.AfterCommand`. -/
structure Answered (s t : State) (i : Instr) (a : Answer) (rest : List Byte) : Prop where
  after : s.AfterCommand t i a rest
  kept : Kept s t
  ok : t.dp.ok = a.accepted i
  mem : t.mem = s.mem
  k : t.dp.k = s.dp.k
  attempt : t.dp.attempt = s.dp.attempt

/-- The bytes of an answer, as the framer and the decoder take them. -/
theorem Answer.bytes_eq (a : Answer) : a.bytes = a.ins ++ (a.pre ++ a.lead :: (a.payload ++ [a.trailer])) := by
  simp [Answer.bytes, Answer.received]

theorem encodeFrame_take (idx : CmdIndex) (arg : Word) :
    (encodeFrame idx arg).take 5 = frameHead idx arg := rfl

/-- The state after a frame and a decoder, the frame's bytes left abstract so that no proof computes them. -/
def State.answeredWith (c : BitVec 7) (fr : Vector Byte 6) (es : List Event) (f : Datapath → Datapath)
    (o : Option Word) (bytes r : List Byte) (s : State) : State :=
  { s with
    csMode := .auto, ocr := o, rx := r
    trace := .setcs .auto :: ((receives bytes).reverse ++ (es.reverse ++ .setcs .hold :: s.trace))
    dp := f { s.dp with crc7acc := c, frame := fr } }

theorem answeredWith_framed (c : BitVec 7) (fr : Vector Byte 6) (es : List Event) (r' : List Byte)
    (f : Datapath → Datapath) (o : Option Word) (bytes r : List Byte) (s : State) (g : Datapath → Datapath) :
    ((((s.setDp fun d => { d with crc7acc := c, frame := fr }).setCs .hold).wire es r').decoded f o bytes
      r).setDp g = s.answeredWith c fr es (fun x => g (f x)) o bytes r := by
  simp only [State.setDp, State.decoded, State.wire, State.setCs, State.answeredWith]

theorem answeredWith_eq (idx : CmdIndex) (arg : Word) (ins r' : List Byte) (f : Datapath → Datapath)
    (o : Option Word) (bytes r : List Byte) (s : State) (g : Datapath → Datapath) :
    ((s.framed idx arg ins r').decoded f o bytes r).setDp g =
      s.answeredWith (crc7 (frameHead idx arg)) (frameBytes idx arg (crc7 (frameHead idx arg)))
        (exchanges (encodeFrame idx arg) ins) (fun x => g (f x)) o bytes r := by
  rw [State.framed, answeredWith_framed]

theorem answered_of {s : State} {i : Instr} {a : Answer} {c : BitVec 7} {fr : Vector Byte 6}
    {r : List Byte} {f : Datapath → Datapath} {o : Option Word}
    (hc : c = crc7 ((encode i).take 5)) (hfr : fr.toList = encode i)
    (hlead : ∀ x, (f x).lead = a.lead) (htr : ∀ x, (f x).trailer = a.trailer)
    (hpoll : ∀ x, (f x).poll = a.pre.length + 1) (hloop : ∀ x : Datapath, x.SameLoop (f x))
    (hframe : ∀ x, (f x).frame = x.frame ∧ (f x).crc7acc = x.crc7acc)
    (hacc : ∀ x, (f x).ok = a.accepted i) :
    Answered s (s.answeredWith c fr (exchanges (encode i) a.ins) f o a.received r) i a r := by
  generalize hes : exchanges (encode i) a.ins = es
  have hl := hloop { s.dp with crc7acc := c, frame := fr }
  refine ⟨⟨?_, rfl, rfl, rfl, ?_, ?_, hlead _, htr _, hpoll _, ?_, hl⟩, ?_, hacc _, rfl, hl.2.2.1, hl.1⟩
  · simp [State.Emits, Answer.events, State.answeredWith, hes]
  · exact (congrArg Vector.toList (hframe _).1).trans hfr
  · exact (hframe _).2.trans hc
  · exact ⟨rfl, rfl, rfl, rfl, rfl, rfl, rfl, rfl, rfl, fun _ => rfl, rfl, rfl, rfl, rfl⟩
  · exact ⟨rfl, rfl, rfl, rfl, rfl, rfl, rfl, rfl, rfl, rfl, rfl, rfl, rfl, rfl⟩

/-- Frame, decoder and acceptance test of a command that is answered with an R1 (R145, R149, R184). -/
theorem answered_r1 {s : State} {d : Nat} {ls : List Line} {i : Instr} {e : Entry} (hi : entryOf i = some e)
    (hsh : responseOf i = .r1 0) (h : s.running) (hd : d ≤ s.seq.length) {a : Answer} {r : List Byte}
    (hf : a.fits s.cfg i) (hrx : s.rx = a.bytes ++ r)
    (hacc : ∀ x : Datapath, e.accepts (x.afterR1 a.pre a.lead a.trailer) = a.accepted i) :
    ∃ t, Runs d (-400) (s.push (e.frameLines ++ ls)) (t.push ls) ∧ Answered s t i a r ∧ t.ocr = s.ocr ∧
      t.dp.ext = [] ∧ t.dp.va = s.dp.va ∧ t.dp.echo = s.dp.echo := by
  obtain ⟨hins, hlead, hpay⟩ := hf
  obtain ⟨henc, hshe⟩ := entryOf_frame hi
  rw [hsh] at hlead hpay hshe
  have hnil : a.payload = [] := List.length_eq_zero_iff.mp hpay
  have hrx' : s.rx = a.ins ++ (a.pre ++ a.lead :: a.trailer :: r) := by
    rw [hrx, a.bytes_eq, hnil]; simp
  have hrec : a.received = a.pre ++ [a.lead, a.trailer] := by simp [Answer.received, hnil]
  have hr := reaches_r1Command (ls := ls) hshe h hd hins hlead hrx'
  rw [← hrec, answeredWith_eq, henc] at hr
  refine ⟨_, hr.runs ?_, answered_of ?_ ?_ ?_ ?_ ?_ ?_ ?_ hacc, rfl, rfl, rfl, rfl⟩
  · simp [hrx', hins, State.answeredWith]; omega
  · rw [← henc, encodeFrame_take]
  · rw [← henc]; exact frameBytes_toList _ _
  · exact fun x => rfl
  · exact fun x => rfl
  · exact fun x => rfl
  · exact fun x => ⟨rfl, rfl, rfl, rfl, rfl, rfl⟩
  · exact fun x => ⟨rfl, rfl⟩

/-- The same for an R3 (R150): the payload is the OCR, and `st.ocr` is written where the end bit is 1. -/
theorem answered_r3 {s : State} {d : Nat} {ls : List Line} {i : Instr} {e : Entry} (hi : entryOf i = some e)
    (hsh : responseOf i = .r3) (h : s.running) (hd : d ≤ s.seq.length) {a : Answer} {r : List Byte}
    (hf : a.fits s.cfg i) (hrx : s.rx = a.bytes ++ r)
    (hacc : ∀ x : Datapath, e.accepts (x.afterR3 a.pre a.lead a.ocr a.trailer) = a.accepted i) :
    ∃ t, Runs d (-400) (s.push (e.frameLines ++ ls)) (t.push ls) ∧ Answered s t i a r ∧
      (t.ocr = if endBitOk a.trailer = true then some a.ocr else s.ocr) ∧
      t.dp.ext = [] ∧ t.dp.va = s.dp.va ∧ t.dp.echo = s.dp.echo := by
  obtain ⟨hins, hlead, hpay⟩ := hf
  obtain ⟨henc, hshe⟩ := entryOf_frame hi
  rw [hsh] at hlead hpay hshe
  obtain ⟨o0, o1, o2, o3, hp⟩ : ∃ o0 o1 o2 o3, a.payload = [o0, o1, o2, o3] := by
    match h : a.payload, hpay with
    | [o0, o1, o2, o3], _ => exact ⟨o0, o1, o2, o3, rfl⟩
  have hrx' : s.rx = a.ins ++ (a.pre ++ a.lead :: o0 :: o1 :: o2 :: o3 :: a.trailer :: r) := by
    rw [hrx, a.bytes_eq, hp]; simp
  have hrec : a.received = a.pre ++ [a.lead, o0, o1, o2, o3, a.trailer] := by simp [Answer.received, hp]
  have hocr : o0 ++ o1 ++ o2 ++ o3 = a.ocr := by simp [Answer.ocr, hp, wordOfBytesBE]
  have hr := reaches_r3Command (ls := ls) hshe h hd hins hlead hrx'
  rw [← hrec, answeredWith_eq, henc, hocr] at hr
  refine ⟨_, hr.runs ?_, answered_of ?_ ?_ ?_ ?_ ?_ ?_ ?_ hacc, rfl, rfl, rfl, rfl⟩
  · simp [hrx', hins, State.answeredWith]; omega
  · rw [← henc, encodeFrame_take]
  · rw [← henc]; exact frameBytes_toList _ _
  · exact fun x => rfl
  · exact fun x => rfl
  · exact fun x => rfl
  · exact fun x => ⟨rfl, rfl, rfl, rfl, rfl, rfl⟩
  · exact fun x => ⟨rfl, rfl⟩

/-- The same for an R7 (R151). -/
theorem answered_r7 {s : State} {d : Nat} {ls : List Line} {i : Instr} {e : Entry} (hi : entryOf i = some e)
    (hsh : responseOf i = .r7) (h : s.running) (hd : d ≤ s.seq.length) {a : Answer} {r : List Byte}
    (hf : a.fits s.cfg i) (hrx : s.rx = a.bytes ++ r) {r0 r1 r2 r3 : Byte} (hp : a.payload = [r0, r1, r2, r3])
    (hacc : ∀ x : Datapath, e.accepts (x.afterR7 a.pre a.lead r2 r3 a.trailer) = a.accepted i) :
    ∃ t, Runs d (-400) (s.push (e.frameLines ++ ls)) (t.push ls) ∧ Answered s t i a r ∧ t.ocr = s.ocr ∧
      t.dp.ext = [] ∧ t.dp.va = r2.truncate 4 ∧ t.dp.echo = r3 := by
  obtain ⟨hins, hlead, hpay⟩ := hf
  obtain ⟨henc, hshe⟩ := entryOf_frame hi
  rw [hsh] at hlead hpay hshe
  have hrx' : s.rx = a.ins ++ (a.pre ++ a.lead :: r0 :: r1 :: r2 :: r3 :: a.trailer :: r) := by
    rw [hrx, a.bytes_eq, hp]; simp
  have hrec : a.received = a.pre ++ [a.lead, r0, r1, r2, r3, a.trailer] := by simp [Answer.received, hp]
  have hr := reaches_r7Command (ls := ls) hshe h hd hins hlead hrx'
  rw [← hrec, answeredWith_eq, henc] at hr
  refine ⟨_, hr.runs ?_, answered_of ?_ ?_ ?_ ?_ ?_ ?_ ?_ hacc, rfl, rfl, rfl, rfl⟩
  · simp [hrx', hins, State.answeredWith]; omega
  · rw [← henc, encodeFrame_take]
  · rw [← henc]; exact frameBytes_toList _ _
  · exact fun x => rfl
  · exact fun x => rfl
  · exact fun x => rfl
  · exact fun x => ⟨rfl, rfl, rfl, rfl, rfl, rfl⟩
  · exact fun x => ⟨rfl, rfl⟩

theorem low_nibble (b : Byte) : b.setWidth 4 = b.extractLsb' 0 4 := by
  revert b; decide

/-- What an answered frame leaves in the response registers, beside `State.AfterCommand`. -/
structure Responded (s t : State) (i : Instr) (a : Answer) : Prop where
  ext : t.dp.ext = []
  ocr : t.ocr = if responseOf i = .r3 ∧ a.trailer[0] = true then some a.ocr else s.ocr
  notR7 : responseOf i ≠ .r7 → t.dp.va = s.dp.va ∧ t.dp.echo = s.dp.echo
  r7 : ∀ r0 r1 r2 r3, responseOf i = .r7 → a.payload = [r0, r1, r2, r3] →
    t.dp.va = r2.extractLsb' 0 4 ∧ t.dp.echo = r3

/-- Frame, decoder and acceptance test of any command's own frame. -/
theorem answered_frame {s : State} {d : Nat} {ls : List Line} {i : Instr} {e : Entry} (hi : entryOf i = some e)
    (h : s.running) (hd : d ≤ s.seq.length) {a : Answer} {r : List Byte} (hf : a.fits s.cfg i)
    (hrx : s.rx = a.bytes ++ r) :
    ∃ t, Runs d (-400) (s.push (e.frameLines ++ ls)) (t.push ls) ∧ Answered s t i a r ∧ Responded s t i a := by
  have hr1 (hsh : responseOf i = .r1 0)
      (hacc : ∀ x : Datapath, e.accepts (x.afterR1 a.pre a.lead a.trailer) = a.accepted i) :
      ∃ t, Runs d (-400) (s.push (e.frameLines ++ ls)) (t.push ls) ∧ Answered s t i a r ∧
        Responded s t i a := by
    obtain ⟨t, h1, h2, h3, h4, h5⟩ := answered_r1 (ls := ls) hi hsh h hd hf hrx hacc
    exact ⟨t, h1, h2, h4, by simp [hsh, h3], fun _ => h5, fun _ _ _ _ h7 => by simp [hsh] at h7⟩
  have hr3 (hsh : responseOf i = .r3)
      (hacc : ∀ x : Datapath, e.accepts (x.afterR3 a.pre a.lead a.ocr a.trailer) = a.accepted i) :
      ∃ t, Runs d (-400) (s.push (e.frameLines ++ ls)) (t.push ls) ∧ Answered s t i a r ∧
        Responded s t i a := by
    obtain ⟨t, h1, h2, h3, h4, h5⟩ := answered_r3 (ls := ls) hi hsh h hd hf hrx hacc
    exact ⟨t, h1, h2, h4, h3.trans (if_congr (by simp [hsh, endBitOk]) rfl rfl), fun _ => h5,
      fun _ _ _ _ h7 => by simp [hsh] at h7⟩
  cases i <;> simp only [entryOf, Option.some.injEq, reduceCtorEq] at hi <;> subst hi
  case cmd8 =>
    obtain ⟨r0, r1, r2, r3, hp⟩ : ∃ r0 r1 r2 r3, a.payload = [r0, r1, r2, r3] := by
      match h : a.payload, hf.2.2 with
      | [r0, r1, r2, r3], _ => exact ⟨r0, r1, r2, r3, rfl⟩
    obtain ⟨t, h1, h2, h3, h4, h5⟩ := answered_r7 (ls := ls) (i := .cmd8) rfl rfl h hd hf hrx hp (by
      intro x
      simp [Entry.accepts, Answer.accepted, Datapath.afterR7, endBitOk, hp, voltageSupported, checkPattern,
        Bool.and_assoc, low_nibble])
    refine ⟨t, h1, h2, h4, by simpa [responseOf] using h3, fun h7 => absurd rfl h7, ?_⟩
    intro _ _ _ _ _ hp'
    rw [hp] at hp'
    cases hp'
    exact h5
  all_goals first
    | exact hr3 rfl (fun x => rfl)
    | exact hr1 rfl (fun x => rfl)

/-- A catalog entry other than ACMD41, called, answered and judged. -/
theorem answered_call {s : State} {d : Nat} {ls : List Line} {i : Instr} {e : Entry} (hi : entryOf i = some e)
    (he : e ≠ .acmd41) (h : s.running) (hd : d ≤ s.seq.length) {a : Answer} {r : List Byte}
    (hf : a.fits s.cfg i) (hrx : s.rx = a.bytes ++ r) :
    ∃ t, Runs d (-300) (s.push (.catalog (.call e) :: ls)) (t.push ls) ∧ Answered s t i a r ∧
      Responded s t i a := by
  obtain ⟨t, h1, h2⟩ := answered_frame (ls := ls) hi h hd hf hrx
  exact ⟨t, (((reaches_call he h hd).runs (c := 1) (by simp; omega)).trans h1).mono (by omega), h2⟩

/-! ### A command without a response -/

theorem afterSilence_of {s u : State} {i : Instr} {idx : CmdIndex} {ins pre rest : List Byte} (es : List Event)
    (hes : es = exchanges (encode i) ins)
    (hu : u.trace = es.reverse ++ .setcs .hold :: s.trace)
    (hocr : u.ocr = s.ocr) (hsame : s.SameAtHalt u) (hmem : u.mem = s.mem) (f : Datapath → Datapath) (ls : List Line) :
    s.AfterSilence (((((u.setDp f).wire (receives pre) rest).setCs .auto).raiseFatal
      { code := .respTimeout, cmd := some idx }).push ls) i idx ins pre rest := by
  subst hes
  refine ⟨rfl, rfl, ?_, rfl, rfl, hocr, hsame, fun a => by simp [hmem, State.wire]⟩
  simp [State.Emits, State.wire, hu]

/-- A command's frame whose response does not come, from the frame to the halt. -/
theorem silent_frame {s : State} {d : Nat} {ls : List Line} {i : Instr} {e : Entry} (hi : entryOf i = some e)
    (h : s.running) (hd : d ≤ s.seq.length) {ins pre r : List Byte} (hlen : ins.length = 6)
    (hl : NoLead s.cfg (responseOf i) pre) (hrx : s.rx = ins ++ pre ++ r) :
    ∃ t, Runs d (-300) (s.push (e.frameLines ++ ls)) t ∧ s.AfterSilence t i e.idx ins pre r := by
  obtain ⟨henc, hshe⟩ := entryOf_frame hi
  rw [← hshe] at hl
  rw [List.append_assoc] at hrx
  obtain ⟨ls', h2⟩ := reaches_noResponse (ls := ls) e h hd hlen hl hrx
  generalize hu : s.framed e.idx e.arg ins (pre ++ r) = u at h2
  refine ⟨_, h2.runs ?_, afterSilence_of (exchanges (encode i) ins) rfl ?_ ?_ ?_ ?_ _ _⟩
  · simp [hrx, hlen, State.wire]; omega
  · rw [← hu, State.framed_trace, henc]
  · rw [← hu, State.framed_ocr]
  · rw [← hu]
    exact ⟨State.framed_guard .., State.framed_pending .., State.framed_cap .., State.framed_ready ..,
      State.framed_cfg .., State.framed_blockLen .., State.framed_req ..⟩
  · rw [← hu, State.framed_mem]

end Sys2Proof.Machine
end

