-- ==== Sys2Proof/Laws/Write.lean ====
section
/-!
SUPPORT. What the write procedures reach (rules R221, R224, R227, R232 of spec/44_block_transfer.md), composed from
the laws of their parts: `Did` says what a part leaves, and its events.
-/

namespace Sys2Proof.Machine

/-- What a part of a transfer leaves: nothing of `Kept` changed, these events, these bytes still to come, and the
OCR and CMD8's registers as they were. -/
structure Did (s t : State) (es : List Event) (r : List Byte) : Prop where
  kept : Kept s t
  emits : s.Emits t es
  rx : t.rx = r
  ocr : t.ocr = s.ocr
  va : t.dp.va = s.dp.va
  echo : t.dp.echo = s.dp.echo

theorem Did.trans {s t u : State} {es fs : List Event} {r r' : List Byte} (h : Did s t es r)
    (h' : Did t u fs r') : Did s u (es ++ fs) r' :=
  ⟨h.kept.trans h'.kept, h.emits.trans h'.emits, h'.rx, h'.ocr.trans h.ocr, h'.va.trans h.va,
   h'.echo.trans h.echo⟩

/-- A change of the datapath alone. -/
theorem did_setDp (s : State) {f : Datapath → Datapath} (hva : (f s.dp).va = s.dp.va)
    (hecho : (f s.dp).echo = s.dp.echo) : Did s (s.setDp f) [] s.rx :=
  ⟨⟨rfl, rfl, rfl, rfl, rfl, rfl, rfl, rfl, rfl, rfl, rfl, rfl, rfl, rfl⟩, rfl, rfl, rfl, hva, hecho⟩

theorem did_setCs (s : State) (m : CsMode) : Did s (s.setCs m) [.setcs m] s.rx :=
  ⟨⟨rfl, rfl, rfl, rfl, rfl, rfl, rfl, rfl, rfl, rfl, rfl, rfl, rfl, rfl⟩, rfl, rfl, rfl, rfl, rfl⟩

theorem did_wire (s : State) (es : List Event) (r : List Byte) : Did s (s.wire es r) es r :=
  ⟨⟨rfl, rfl, rfl, rfl, rfl, rfl, rfl, rfl, rfl, rfl, rfl, rfl, rfl, rfl⟩, rfl, rfl, rfl, rfl, rfl⟩

theorem did_setDp_wire (s : State) {f : Datapath → Datapath} (es : List Event) (r : List Byte)
    (hva : (f s.dp).va = s.dp.va) (hecho : (f s.dp).echo = s.dp.echo) :
    Did s ((s.setDp f).wire es r) es r := (did_setDp s hva hecho).trans (did_wire _ es r)

/-- A line that is an internal action, counted. -/
theorem runs_go {s : State} {d : Nat} (h : s.running) (hd : d ≤ s.seq.length) {l : Line}
    {ls : List Line} {t : State} (ha : l.act (s.push ls) = .go t) (hrx : t.rx = s.rx) :
    Runs d 1 (s.push (l :: ls)) t :=
  (reaches_go h hd ha).runs (by simp [hrx]; omega)

/-- A command with an R1 response inside a transfer. -/
theorem did_command {s : State} {d : Nat} {ls : List Line} {i : Instr} {e : Entry} (hi : entryOf i = some e)
    (hsh : responseOf i = .r1 0) (h : s.running) (hd : d ≤ s.seq.length) {a : Answer} {r : List Byte}
    (hf : a.fits s.cfg i) (hrx : s.rx = a.bytes ++ r) :
    ∃ t, Runs d (-300) (s.push (.catalog (.call e) :: ls)) (t.push ls) ∧ Did s t (a.events i) r ∧
      t.dp.ok = a.accepted i ∧ t.mem = s.mem ∧ t.dp.k = s.dp.k ∧ t.dp.attempt = s.dp.attempt ∧
      t.csMode = .auto := by
  have he : e ≠ .acmd41 := by
    rintro rfl
    have := (entryOf_frame hi).2
    rw [hsh] at this
    exact absurd this (by simp [Entry.shape])
  obtain ⟨t, h1, h2, h3⟩ := answered_call (ls := ls) hi he h hd hf hrx
  have hn := h3.notR7 (by simp [hsh])
  exact ⟨t, h1, ⟨h2.kept, h2.after.1, h2.after.2.1, by simpa [hsh] using h3.ocr, hn.1, hn.2⟩, h2.ok, h2.mem,
    h2.k, h2.attempt, h2.after.2.2.1⟩

theorem eq_of_length_three {n : Nat} {l : List Byte} (h : l.length = n + 3) :
    ∃ a m b c, l = a :: m ++ [b, c] ∧ m.length = n := by
  match l, h with
  | a :: t, h =>
    simp at h
    have h1 : t = t.take n ++ t.drop n := (List.take_append_drop n t).symm
    have h2 : (t.drop n).length = 2 := by simp [h]
    match hd : t.drop n, h2 with
    | [b, c], _ => exact ⟨a, t.take n, b, c, by rw [List.cons_append]; congr 1; rw [← hd]; exact h1, by simp [h]⟩

/-- A block of a write: token, payload and fillers, the data response, the busy wait (R221, R224, R232). -/
theorem did_writtenBlock {s : State} {d : Nat} {ls : List Line} {tok : Byte} {idx : CmdIndex} (h : s.running)
    (hd : d ≤ s.seq.length) {w : WrittenBlock} {r : List Byte} (hf : w.fits s.cfg)
    (hr : blockBytes * s.dp.k.toNat + blockBytes ≤ s.req.buf.len) (hrx : s.rx = w.bytes ++ r) :
    ∃ t, Runs d (-300) (s.push (.block (.writeToken tok) :: .block (.drespStart idx) ::
        .block (.busyStart idx) :: ls)) (t.push ls) ∧
      Did s t (exchanges (blockOut tok (s.sectorData s.dp.k.toNat)) w.ins ++ receives w.received) r ∧
      t.mem = s.mem ∧ t.dp.k = s.dp.k ∧ t.csMode = s.csMode := by
  obtain ⟨hins, hidle, hresp, hacc, hbusy⟩ := hf
  obtain ⟨it, ins, f0, f1, hi, hlen⟩ := eq_of_length_three hins
  have h1 := reaches_writeBlock (tok := tok) (ls := .block (.drespStart idx) :: .block (.busyStart idx) :: ls)
    (it := it) (f0 := f0) (f1 := f1) (r := w.received ++ r) h hd hlen hr (by rw [hrx]; simp [WrittenBlock.bytes, hi])
  rw [← hi] at h1
  generalize hu : (s.setDp fun d => { d with
            data := (s.mem.slice s.sectorBase blockBytes).getLast?.getD d.data, j := blockBytes }).wire
          (exchanges (tok :: s.mem.slice s.sectorBase blockBytes ++ [fillerByte, fillerByte])
            w.ins) (w.received ++ r) = u at h1
  have hdid : Did s u (exchanges (blockOut tok (s.sectorData s.dp.k.toNat)) w.ins) (w.received ++ r) := by
    rw [← hu]
    exact did_setDp_wire s _ _ rfl rfl
  have hrun := hdid.kept.running h
  have hdu := hdid.kept.depth hd
  have hmem : u.mem = s.mem := by rw [← hu]; rfl
  have hk : u.dp.k = s.dp.k := by rw [← hu]; rfl
  have hcs : u.csMode = s.csMode := by rw [← hu]; rfl
  have h2 := reaches_accepted (d := d) (ls := .block (.busyStart idx) :: ls) (idx := idx) (b := w.resp)
    (r := busyBytes w.busy ++ r) w.idle hrun hdu (by rw [hdid.kept.cfg]; exact hidle) hresp
    (by simpa [dataAccepted, low_nibble] using hacc)
    (by rw [hdid.rx]; simp [WrittenBlock.received])
  have h3 := reaches_notBusy (d := d) (ls := ls) (idx := idx) (pre := w.busy) (r := r)
    (s := (u.setDp fun d => { d with poll := w.idle + 1 }).wire
        (receives (List.replicate w.idle 0xFF ++ [w.resp])) (busyBytes w.busy ++ r))
    hrun hdu hbusy.1 (by rw [State.wire_cfg, State.setDp_cfg, hdid.kept.cfg]; exact hbusy.2)
    (by simp [busyBytes])
  refine ⟨_, ((h1.trans h2).trans h3).runs ?_, ?_, hmem, hk, hcs⟩
  · simp [State.wire, hrx, WrittenBlock.bytes, WrittenBlock.received, busyBytes, hins, blockBytes]
    omega
  · have := (hdid.trans (did_setDp_wire u (f := fun d => { d with poll := w.idle + 1 }) (receives (List.replicate w.idle 0xFF ++ [w.resp])) (busyBytes w.busy ++ r) rfl rfl)).trans
      (did_setDp_wire _ (f := fun d => { d with poll := w.busy.length + 1 }) (receives (w.busy ++ [0xFF])) r rfl rfl)
    simpa [WrittenBlock.received, busyBytes, receives] using this

/-- The rejected CMD24s of a single-block write (R227). -/
theorem runs_swriteFails {d : Nat} {ls : List Line} {a : Word} {r : List Byte} (fails : List Answer) :
    ∀ s : State, s.running → d ≤ s.seq.length →
      s.dp.attempt + fails.length ≤ s.cfg.swriteCmdAttempts →
      (∀ f ∈ fails, f.fits s.cfg (.cmd24 a) ∧ f.accepted (.cmd24 a) = false) →
      s.rx = fails.flatMap Answer.bytes ++ r →
      ∃ t, Runs d 0 (s.push (.transfer (.swriteTry a) :: ls)) (t.push (.transfer (.swriteTry a) :: ls)) ∧
        Did s t (fails.flatMap fun f => f.events (.cmd24 a)) r ∧ t.mem = s.mem ∧ t.dp.k = s.dp.k ∧
        t.dp.attempt = s.dp.attempt + fails.length ∧ (s.csMode = .auto → t.csMode = .auto) := by
  induction fails with
  | nil =>
    intro s h hd hat _ hrx
    simp at hrx
    exact ⟨s, Runs.refl _ _, ⟨Kept.refl s, rfl, hrx, rfl, rfl, rfl⟩, rfl, rfl, rfl, id⟩
  | cons f fails ih =>
    intro s h hd hat hf hrx
    obtain ⟨hfit, hacc⟩ := hf f (by simp)
    have h1 := runs_go (d := d) (ls := ls) (s := s) h hd (l := .transfer (.swriteTry a)) rfl rfl
    obtain ⟨u, h2, hdid, hok, hmem, hk, hatt, hcs⟩ := did_command (d := d) (s := s)
      (ls := .transfer (.swriteCmd a) :: ls) (i := .cmd24 a) rfl rfl h hd hfit (r := fails.flatMap Answer.bytes ++ r) (by rw [hrx]; simp)
    simp at hat
    have hrun := hdid.kept.running h
    have hdu := hdid.kept.depth hd
    have h3 := runs_go (d := d) (ls := ls) (s := u) hrun hdu (l := .transfer (.swriteCmd a))
      (t := (u.setDp fun d => { d with attempt := d.attempt + 1 }).push (.transfer (.swriteTry a) :: ls))
      (by
        refine (if_neg ?_).trans ((if_pos ?_).trans rfl)
        · rw [State.push_dp, hok, hacc]; simp
        · rw [State.push_dp, State.push_cfg, hatt, hdid.kept.cfg]; omega) rfl
    obtain ⟨t, h4, hdid', hmem', hk', hatt', hcs'⟩ := ih (u.setDp fun d => { d with attempt := d.attempt + 1 })
      hrun hdu (by simp [hatt, hdid.kept.cfg]; omega)
      (fun g hg => by rw [State.setDp_cfg, hdid.kept.cfg]; exact hf g (by simp [hg])) hdid.rx
    refine ⟨t, ((h1.trans h2).trans (h3.trans h4)).mono (by omega), ?_, hmem'.trans hmem, hk'.trans hk,
      ?_, fun _ => hcs' hcs⟩
    · have := (hdid.trans (did_setDp u (f := fun d => { d with attempt := d.attempt + 1 }) rfl rfl)).trans hdid'
      simpa using this
    · rw [hatt']; simp [hatt]; omega

/-- `SINGLE_WRITE(a)` where the card takes the block (R227). -/
theorem runs_singleWrite {s : State} {d : Nat} {ls : List Line} {a : Word} (h : s.running)
    (hd : d ≤ s.seq.length) {fails : List Answer} {cmd : Answer} {w : WrittenBlock} {r : List Byte}
    (hlen : fails.length < s.cfg.swriteCmdAttempts)
    (hfails : ∀ f ∈ fails, f.fits s.cfg (.cmd24 a) ∧ f.accepted (.cmd24 a) = false)
    (hcmd : cmd.fits s.cfg (.cmd24 a)) (hacc : cmd.accepted (.cmd24 a) = true) (hw : w.fits s.cfg)
    (hr : blockBytes ≤ s.req.buf.len)
    (hrx : s.rx = fails.flatMap Answer.bytes ++ (cmd.bytes ++ (w.bytes ++ r))) :
    ∃ t, Runs d 0 (s.push (.transfer (.singleWrite a) :: ls)) (t.push ls) ∧
      Did s t ((fails.flatMap fun f => f.events (.cmd24 a)) ++ cmd.events (.cmd24 a) ++ [.setcs .hold] ++
        writeEvents s startToken 0 [w] ++ [.setcs .auto]) r ∧ t.mem = s.mem ∧ t.csMode = .auto := by
  have h1 := runs_go (d := d) (ls := ls) (s := s) h hd (l := .transfer (.singleWrite a)) rfl rfl
  obtain ⟨u, h2, hd2, hm2, hk2, ha2, -⟩ := runs_swriteFails (d := d) (ls := ls) (a := a)
    (r := cmd.bytes ++ (w.bytes ++ r)) fails
    (s.setDp fun d => { d with attempt := 1, k := 0 }) h hd (by simp; omega) hfails hrx
  have hc2 : u.cfg = s.cfg := hd2.kept.cfg
  have hr2 := hd2.kept.running h
  have hq2 := hd2.kept.depth hd
  have h3 := runs_go (d := d) (ls := ls) (s := u) hr2 hq2 (l := .transfer (.swriteTry a)) rfl rfl
  obtain ⟨v, h4, hd4, hok, hm4, hk4, ha4, -⟩ := did_command (d := d) (s := u) (ls := .transfer (.swriteCmd a) :: ls)
      (i := .cmd24 a) rfl rfl hr2 hq2 (by rw [hc2]; exact hcmd) (r := w.bytes ++ r) hd2.rx
  have hr4 := hd4.kept.running hr2
  have hq4 := hd4.kept.depth hq2
  have h5 := runs_go (d := d) (ls := ls) (s := v) hr4 hq4 (l := .transfer (.swriteCmd a))
      (t := v.push (.block .hold :: .block (.writeToken startToken) :: .block (.drespStart 24) ::
        .block (.busyStart 24) :: .block .auto :: ls))
      (by
        refine (if_pos ?_).trans rfl
        rw [State.push_dp, hok, hacc]) rfl
  have h6 := (reaches_hold (ls := .block (.writeToken startToken) :: .block (.drespStart 24) ::
        .block (.busyStart 24) :: .block .auto :: ls) hr4 hq4).runs (c := 1) (by simp; omega)
  have hk : (v.setCs .hold).dp.k = 0 := by rw [State.setCs_dp, hk4, hk2]; rfl
  obtain ⟨x, h7, hd7, hm7, hk7, -⟩ := did_writtenBlock (d := d) (ls := .block .auto :: ls) (tok := startToken) (idx := 24)
    (s := v.setCs .hold) hr4 hq4 (w := w) (r := r)
    (by rw [State.setCs_cfg, hd4.kept.cfg, hc2]; exact hw)
    (by rw [hk, State.setCs_req, hd4.kept.req, hd2.kept.req]; simpa using hr) hd4.rx
  have h8 := (reaches_auto (d := d) (ls := ls) (s := x) (hd7.kept.running hr4) (hd7.kept.depth hq4)).runs (c := 1) (by simp; omega)
  refine ⟨_, ((h1.trans (h2.trans (h3.trans h4))).trans ((h5.trans h6).trans (h7.trans h8))).mono (by omega), ?_, ?_, rfl⟩
  · have := (((((did_setDp s (f := fun d => { d with attempt := 1, k := 0 }) rfl rfl).trans hd2).trans hd4).trans
      (did_setCs v .hold)).trans hd7).trans (did_setCs x .auto)
    rw [hd7.rx] at this
    refine Eq.mp ?_ this
    congr 1
    have hs : (v.setCs .hold).sectorData (v.setCs .hold).dp.k.toNat = s.sectorData 0 := by
      rw [hk]
      simp [State.sectorData, hd4.kept.req, hd2.kept.req, hm4, hm2]
    rw [hs]
    simp [writeEvents, WrittenBlock.received]
  · rw [State.setCs_mem, hm7, State.setCs_mem, hm4, hm2]; rfl

/-! ### A multi-block write -/

/-- `writeEvents` reads the request's buffer alone. -/
theorem writeEvents_congr {s t : State} (hm : t.mem = s.mem) (hr : t.req.buf = s.req.buf) (tok : Byte) (k : Nat)
    (ws : List WrittenBlock) : writeEvents t tok k ws = writeEvents s tok k ws := by
  induction ws generalizing k with
  | nil => rfl
  | cons w ws ih => simp [writeEvents, ih, State.sectorData, hm, hr]

theorem toNat_succ {k n : Word} (h : k.toNat < n.toNat) : (k + 1).toNat = k.toNat + 1 := by
  have := n.isLt
  rw [BitVec.toNat_add]
  simp
  omega

/-- The sectors of a multi-block write that the card takes, from sector k on (R228). -/
theorem runs_mwriteBlocks {d : Nat} {ls : List Line} {n : Word} {r : List Byte} (ws : List WrittenBlock) :
    ∀ s : State, s.running → d ≤ s.seq.length → s.dp.k.toNat + ws.length ≤ n.toNat →
      (∀ w ∈ ws, w.fits s.cfg) → blockBytes * n.toNat ≤ s.req.buf.len →
      s.rx = ws.flatMap WrittenBlock.bytes ++ r →
      ∃ t, Runs d 0 (s.push (.transfer (.mwriteLoop n) :: ls)) (t.push (.transfer (.mwriteLoop n) :: ls)) ∧
        Did s t (writeEvents s multiStartToken s.dp.k.toNat ws) r ∧ t.mem = s.mem ∧
        t.dp.k.toNat = s.dp.k.toNat + ws.length := by
  induction ws with
  | nil =>
    intro s h hd _ _ _ hrx
    simp at hrx
    exact ⟨s, Runs.refl _ _, ⟨Kept.refl s, rfl, hrx, rfl, rfl, rfl⟩, rfl, rfl⟩
  | cons w ws ih =>
    intro s h hd hn hf hb hrx
    simp only [List.length_cons] at hn
    have h1 := runs_go (d := d) (ls := ls) (s := s) h hd (l := .transfer (.mwriteLoop n))
      ((if_pos (show s.dp.k.toNat < n.toNat by omega)).trans rfl) rfl
    have h2 := runs_go (d := d) (s := s) (ls := .block (.writeToken multiStartToken) :: .block (.drespStart 25) ::
        .block (.busyStart 25) :: .transfer (.mwriteNext n) :: ls) h hd (l := .block .delay) rfl rfl
    obtain ⟨u, h3, hd3, hm3, hk3, -⟩ := did_writtenBlock (d := d) (ls := .transfer (.mwriteNext n) :: ls)
      (tok := multiStartToken) (idx := 25) (s := s) h hd (w := w) (r := ws.flatMap WrittenBlock.bytes ++ r)
      (hf w (by simp)) (by simp only [blockBytes] at *; omega) (by rw [hrx]; simp)
    have hr3 := hd3.kept.running h
    have hq3 := hd3.kept.depth hd
    have h4 := runs_go (d := d) (ls := ls) (s := u) hr3 hq3 (l := .transfer (.mwriteNext n)) rfl rfl
    have hk : (u.setDp fun d => { d with k := d.k + 1 }).dp.k.toNat = s.dp.k.toNat + 1 := by
      rw [← toNat_succ (n := n) (by omega), ← hk3]; rfl
    obtain ⟨t, h5, hd5, hm5, hk5⟩ := ih (u.setDp fun d => { d with k := d.k + 1 }) hr3 hq3
      (by rw [hk]; omega) (fun x hx => by rw [State.setDp_cfg, hd3.kept.cfg]; exact hf x (by simp [hx]))
      (by rw [State.setDp_req, hd3.kept.req]; exact hb) hd3.rx
    refine ⟨t, ((h1.trans (h2.trans h3)).trans (h4.trans h5)).mono (by omega), ?_,
      hm5.trans hm3, by rw [hk5, hk]; simp; omega⟩
    have := (hd3.trans (did_setDp u (f := fun d => { d with k := d.k + 1 }) rfl rfl)).trans hd5
    rw [hk, writeEvents_congr (t := u.setDp fun d => { d with k := d.k + 1 }) hm3
      (congrArg ReqRegs.buf hd3.kept.req)] at this
    simpa [writeEvents, WrittenBlock.received] using this

/-- `MULTI_WRITE(a, n)` up to its first sector: CMD25, HOLD and the pump (R228). -/
theorem runs_mwriteStart {s : State} {d : Nat} {ls : List Line} {a n : Word} (h : s.running)
    (hd : d ≤ s.seq.length) {cmd : Answer} {pump : Byte} {r : List Byte}
    (hcmd : cmd.fits s.cfg (.cmd25 a)) (hacc : cmd.accepted (.cmd25 a) = true)
    (hrx : s.rx = cmd.bytes ++ pump :: r) :
    ∃ t, Runs d 0 (s.push (.transfer (.multiWrite a n) :: ls)) (t.push (.transfer (.mwriteLoop n) :: ls)) ∧
      Did s t (cmd.events (.cmd25 a) ++ [.setcs .hold, .xchg fillerByte pump]) r ∧ t.mem = s.mem ∧ t.dp.k = 0 := by
  have h1 := runs_go (d := d) (ls := ls) (s := s) h hd (l := .transfer (.multiWrite a n)) rfl rfl
  obtain ⟨u, h2, hd2, hok, hm2, -⟩ := did_command (d := d) (s := s) (ls := .transfer (.mwriteCmd n) :: ls)
    (i := .cmd25 a) rfl rfl h hd hcmd hrx
  have hr2 := hd2.kept.running h
  have hq2 := hd2.kept.depth hd
  have h3 := runs_go (d := d) (ls := ls) (s := u) hr2 hq2 (l := .transfer (.mwriteCmd n))
    (t := (u.setDp fun d => { d with k := 0 }).push (.block .hold :: .block .filler :: .transfer (.mwriteLoop n) :: ls))
    ((if_pos (by rw [State.push_dp, hok, hacc])).trans rfl) rfl
  have h4 := (reaches_hold (d := d) (s := u.setDp fun d => { d with k := 0 })
    (ls := .block .filler :: .transfer (.mwriteLoop n) :: ls) hr2 hq2).runs (c := 1) (by simp; omega)
  have h5 := (reaches_filler (d := d) (s := (u.setDp fun d => { d with k := 0 }).setCs .hold)
    (ls := .transfer (.mwriteLoop n) :: ls) hr2 hq2 hd2.rx).runs (c := 1) (by simp [hd2.rx]; omega)
  refine ⟨_, ((h1.trans h2).trans (h3.trans (h4.trans h5))).mono (by omega), ?_, hm2, rfl⟩
  have := ((hd2.trans (did_setDp u (f := fun d => { d with k := 0 }) rfl rfl)).trans (did_setCs _ .hold)).trans
    (did_wire _ [.xchg fillerByte pump] r)
  simpa using this

/-- The end of a multi-block write: stop token, busy wait, AUTO (R228). -/
theorem runs_mwriteEnd {s : State} {d : Nat} {ls : List Line} {n : Word} (h : s.running) (hd : d ≤ s.seq.length)
    (hk : s.dp.k.toNat = n.toNat) {last : Byte} {busy r : List Byte} (hb : BusyEnds s.cfg busy)
    (hrx : s.rx = last :: (busyBytes busy ++ r)) :
    ∃ t, Runs d 0 (s.push (.transfer (.mwriteLoop n) :: ls)) (t.push ls) ∧
      Did s t ([.xchg stopTokenByte last] ++ receives (busyBytes busy) ++ [.setcs .auto]) r ∧ t.mem = s.mem ∧
      t.csMode = .auto := by
  have h1 := runs_go (d := d) (ls := ls) (s := s) h hd (l := .transfer (.mwriteLoop n))
    ((if_neg (show ¬ s.dp.k.toNat < n.toNat by omega)).trans rfl) rfl
  have h2 := (reaches_stopToken (d := d) (s := s) (ls := .block (.busyStart 25) :: .block .auto :: ls) h hd
    hrx).runs (c := -30) (by simp [hrx]; omega)
  have h3 := (reaches_notBusy (d := d) (ls := .block .auto :: ls) (idx := 25) (pre := busy) (r := r)
    (s := s.wire [.xchg stopTokenByte last] (busyBytes busy ++ r)) h hd hb.1 hb.2
    (by simp [busyBytes])).runs (c := 1) (by simp [busyBytes]; omega)
  have h4 := (reaches_auto (d := d) (ls := ls) (s := ((s.wire [.xchg stopTokenByte last]
    (busyBytes busy ++ r)).setDp fun d => { d with poll := busy.length + 1 }).wire
      (receives (busy ++ [0xFF])) r) h hd).runs (c := 1) (by simp; omega)
  refine ⟨_, (((h1.trans h2).trans h3).trans h4).mono (by omega), ?_, rfl, rfl⟩
  have := (((did_wire s [.xchg stopTokenByte last] (busyBytes busy ++ r)).trans
    (did_setDp_wire _ (f := fun d => { d with poll := busy.length + 1 }) (receives (busy ++ [0xFF])) r rfl rfl)).trans
    (did_setCs _ .auto))
  simpa [busyBytes] using this

/-! ### Serving a request -/

/-- The state in which the procedure a request is dispatched to starts (R262, R263). -/
def State.requested (op : Byte) (sector count : Word) (s : State) : State :=
  { s with req := { s.req with op := op, sector := sector, count := count, addr := cardAddr s.cfg s.cap sector } }

/-- A served request runs the procedure it is dispatched to (R263). -/
theorem serve_of_runs {s t : State} {op : Byte} {sector count : Word} (h : s.Serving op sector count)
    (hr : Runs s.seq.length 62 ((s.requested op sector count).push
      [dispatchLine op count (cardAddr s.cfg s.cap sector)]) t)
    (hseq : t.seq = s.seq ∨ t.phase = .halted) : s.request op sector count = .next t := by
  obtain ⟨hrun, hg, ha⟩ := h
  obtain ⟨-, rfl, rfl, rfl⟩ := id hg
  have h1 := runs_go (d := s.seq.length) (ls := []) hrun (Nat.le_refl _) (l := .host .serve) rfl rfl
  unfold State.request
  rw [if_pos hg, if_pos ha]
  exact perform_of_runs hrun ((h1.trans hr).mono (by omega)) hseq

/-- What a transfer that returns leaves. -/
theorem Did.afterTransfer {s t : State} {op : Byte} {sector count : Word} {es : List Event} {r : List Byte}
    (h : Did (s.requested op sector count) t es r) (hcs : t.csMode = .auto) :
    s.AfterTransfer t op sector count :=
  ⟨h.kept.cfg, h.kept.phase, h.kept.cap, h.kept.blockLen, h.kept.ready, h.kept.fault, h.ocr, h.kept.guard,
   h.kept.pending, h.kept.seq, hcs, h.kept.inputs, h.kept.arbTurn, h.kept.opWord, h.kept.port, h.va, h.echo, h.kept.req⟩

/-- An admitted request's buffer has the length of its sectors (R261). -/
theorem Serving.length {s : State} {op : Byte} {sector count : Word} (h : s.Serving op sector count) :
    s.req.buf.len = blockBytes * count.toNat := by
  have := h.2.2
  simp [State.admits, Request.wf, Request.lengthOk] at this
  exact this.1.2

end Sys2Proof.Machine
end

