-- ==== Sys2Proof/Laws/Read.lean ====
section
/-!
SUPPORT. What the read procedures reach (rules R222, R223, R225, R226 of spec/44_block_transfer.md), composed from
the laws of their parts.
-/

namespace Sys2Proof.Machine

/-- A read's changes of memory: canonical form is kept, and no byte outside the buffer changes. -/
structure InBuffer (s t : State) : Prop where
  wf : s.mem.wf → t.mem.wf
  outside : ∀ x, Buffer.contains s.req.buf x = false → t.mem.read x = s.mem.read x

theorem InBuffer.trans {s t u : State} (h : InBuffer s t) (h' : InBuffer t u) (hreq : t.req = s.req) :
    InBuffer s u :=
  ⟨fun hw => h'.wf (h.wf hw), fun x hx => (h'.outside x (by rw [hreq]; exact hx)).trans (h.outside x hx)⟩

theorem InBuffer.of_eq {s t : State} (h : t.mem = s.mem) : InBuffer s t :=
  ⟨fun hw => h ▸ hw, fun _ _ => by rw [h]⟩

/-- A token poll and a block (R222, R223). -/
theorem did_dataBlock {s : State} {d : Nat} {ls : List Line} (h : s.running) (hd : d ≤ s.seq.length)
    {b : DataBlock} {r : List Byte} (hf : b.fits s.cfg)
    (hr : blockBytes * s.dp.k.toNat + blockBytes ≤ s.req.buf.len) (hrx : s.rx = b.bytes ++ r) {ls₁ ls₂ : List Line}
    (htok : ∀ u : State, u.running → d ≤ u.seq.length → u.dp.ok = true →
      Runs d 2 (u.push (ls₁ ++ ls)) (u.push (.block .readStart :: ls₂ ++ ls))) :
    ∃ t, Runs d (-300) (s.push (.block .tokenStart :: ls₁ ++ ls)) (t.push (ls₂ ++ ls)) ∧
      Did s t (receives b.bytes) r ∧ (t.dp.ok = true ↔ b.good) ∧ t.mem = s.mem.store s.sectorBase b.payload ∧
      t.dp.k = s.dp.k ∧ t.dp.attempt = s.dp.attempt ∧ t.csMode = s.csMode := by
  obtain ⟨hpre, hlt, hlen⟩ := hf
  have h1 := reaches_token (d := d) (ls := ls₁ ++ ls) (pre := b.pre) (r := b.payload ++ b.hi :: b.lo :: r) h hd hpre hlt
    (by rw [hrx]; simp [DataBlock.bytes])
  obtain ⟨u, hu⟩ : ∃ u, u = ((s.setDp fun d => { d with poll := b.pre.length + 1, ok := true }).wire
        (receives (b.pre ++ [startToken])) (b.payload ++ b.hi :: b.lo :: r)) := ⟨_, rfl⟩
  have hdu : Did s u (receives (b.pre ++ [startToken])) (b.payload ++ b.hi :: b.lo :: r) := by
    rw [hu]; exact did_setDp_wire s _ _ rfl rfl
  have hk : u.dp.k = s.dp.k := by rw [hu]; rfl
  have hat : u.dp.attempt = s.dp.attempt := by rw [hu]; rfl
  have hm : u.mem = s.mem := by rw [hu]; rfl
  have hcs : u.csMode = s.csMode := by rw [hu]; rfl
  have hok : u.dp.ok = true := by rw [hu]; rfl
  rw [← hu] at h1
  have hru := hdu.kept.running h
  have hqu := hdu.kept.depth hd
  have h2 := htok u hru hqu hok
  have h3 := reaches_readBlock (d := d) (ls := ls₂ ++ ls) (s := u) (hi := b.hi) (lo := b.lo) (r := r) hru hqu hlen
    (by rw [hk, hdu.kept.req]; exact hr) hdu.rx
  generalize hw : crc16 b.payload = c at h3
  generalize hv : ({ u.wire (receives (b.payload ++ [b.hi, b.lo])) r with
    mem := u.mem.store u.sectorBase b.payload
    dp := { u.dp with
      data := b.payload.getLast?.getD u.dp.data, crc16acc := c, crcRx := b.hi ++ b.lo
      j := blockBytes, ok := c == b.hi ++ b.lo } } : State) = v at h3
  have hdv : Did u v (receives (b.payload ++ [b.hi, b.lo])) r := by
    rw [← hv]
    exact ⟨⟨rfl, rfl, rfl, rfl, rfl, rfl, rfl, rfl, rfl, rfl, rfl, rfl, rfl, rfl⟩, rfl, rfl, rfl, rfl, rfl⟩
  refine ⟨v, ((h1.runs (c := 0) ?_).trans (h2.trans (h3.runs (c := -310) ?_))).mono (by omega), ?_, ?_, ?_,
    ?_, ?_, ?_⟩
  · simp [hrx, hdu.rx, DataBlock.bytes]; omega
  · simp [hdu.rx, hdv.rx, hlen, blockBytes]; omega
  · simpa [DataBlock.bytes, receives] using hdu.trans hdv
  · rw [← hv]; simp [DataBlock.good, hw]
  · rw [← hv]; simp [hm, State.sectorBase, hk, hdu.kept.req]
  · rw [← hv]; exact hk
  · rw [← hv]; exact hat
  · rw [← hv]; exact hcs

/-- Storing one sector of the request's buffer changes nothing outside it. -/
theorem inBuffer_store {s t : State} {bs : List Byte} (hm : t.mem = s.mem.store s.sectorBase bs)
    (hr : blockBytes * s.dp.k.toNat + bs.length ≤ s.req.buf.len) : InBuffer s t := by
  refine ⟨fun hw => by rw [hm]; exact Memory.wf_store hw _ _, fun x hx => ?_⟩
  rw [hm]
  apply Memory.read_store_outside
  simp only [Buffer.contains, Bool.and_eq_false_iff, decide_eq_false_iff_not] at hx
  simp only [State.sectorBase]
  omega

/-! ### A single-block read -/

theorem sreadToken_ok {d : Nat} {ls : List Line} {a : Word} {u : State} (h : u.running) (hd : d ≤ u.seq.length)
    (hok : u.dp.ok = true) :
    Runs d 2 (u.push ([.transfer (.sreadToken a)] ++ ls))
      (u.push (.block .readStart :: [.transfer (.sreadCrc a)] ++ ls)) :=
  (runs_go (d := d) (ls := ls) h hd (l := .transfer (.sreadToken a)) ((if_pos hok).trans rfl) rfl).mono (by omega)

/-- CMD17 accepted, and HOLD (R225). -/
theorem runs_sreadCmd {s : State} {d : Nat} {ls : List Line} {a : Word} (h : s.running) (hd : d ≤ s.seq.length)
    {cmd : Answer} {r : List Byte} (hf : cmd.fits s.cfg (.cmd17 a)) (hacc : cmd.accepted (.cmd17 a) = true)
    (hrx : s.rx = cmd.bytes ++ r) :
    ∃ t, Runs d (-200) (s.push (.transfer (.sreadTry a) :: ls))
        (t.push (.block .tokenStart :: .transfer (.sreadToken a) :: ls)) ∧
      Did s t (cmd.events (.cmd17 a) ++ [.setcs .hold]) r ∧ t.mem = s.mem ∧ t.dp.k = s.dp.k ∧
      t.dp.attempt = s.dp.attempt := by
  have h1 := runs_go (d := d) (ls := ls) (s := s) h hd (l := .transfer (.sreadTry a)) rfl rfl
  obtain ⟨u, h2, hd2, hok, hm2, hk2, ha2, -⟩ := did_command (d := d) (s := s) (ls := .transfer (.sreadCmd a) :: ls)
    (i := .cmd17 a) rfl rfl h hd hf hrx
  have hr2 := hd2.kept.running h
  have hq2 := hd2.kept.depth hd
  have h3 := runs_go (d := d) (ls := ls) (s := u) hr2 hq2 (l := .transfer (.sreadCmd a))
    (t := u.push (.block .hold :: .block .tokenStart :: .transfer (.sreadToken a) :: ls))
    ((if_pos (by rw [State.push_dp, hok, hacc])).trans rfl) rfl
  have h4 := (reaches_hold (d := d) (s := u)
    (ls := .block .tokenStart :: .transfer (.sreadToken a) :: ls) hr2 hq2).runs (c := 1) (by simp; omega)
  refine ⟨_, ((h1.trans h2).trans (h3.trans h4)).mono (by omega), ?_, hm2, hk2, ha2⟩
  have := hd2.trans (did_setCs u .hold)
  rwa [hd2.rx] at this

/-- One failed attempt of a single-block read (R225, R229). -/
theorem runs_sreadFail {s : State} {d : Nat} {ls : List Line} {a : Word} (h : s.running) (hd : d ≤ s.seq.length)
    {p : Answer × ReadFailure} {r : List Byte} (hf : p.1.fits s.cfg (.cmd17 a))
    (hacc : p.1.accepted (.cmd17 a) = true) (hfail : p.2.fits s.cfg) (hk : s.dp.k = 0)
    (hr : blockBytes ≤ s.req.buf.len) (hrx : s.rx = p.1.bytes ++ p.2.bytes ++ r) :
    ∃ t, Runs d (-100) (s.push (.transfer (.sreadTry a) :: ls)) (t.push (.transfer (.sreadNext a p.2.code) :: ls)) ∧
      Did s t (p.1.events (.cmd17 a) ++ [.setcs .hold] ++ receives p.2.bytes ++ [.setcs .auto]) r ∧
      InBuffer s t ∧ t.dp.k = 0 ∧ t.dp.attempt = s.dp.attempt ∧ t.csMode = .auto := by
  obtain ⟨cmd, fl⟩ := p
  obtain ⟨u, h1, hd1, hm1, hk1, ha1⟩ := runs_sreadCmd (d := d) (ls := ls) h hd hf hacc (r := fl.bytes ++ r)
    (by rw [hrx]; simp)
  have hr1 := hd1.kept.running h
  have hq1 := hd1.kept.depth hd
  cases fl with
  | noToken pre =>
    obtain ⟨hpre, hlen⟩ := hfail
    have h2 := (reaches_noToken (d := d) (ls := .transfer (.sreadToken a) :: ls) (s := u) (pre := pre) (r := r)
      hr1 hq1 hpre (by rw [hd1.kept.cfg]; exact hlen) hd1.rx).runs (c := 2)
      (by simp [hd1.rx, ReadFailure.bytes]; omega)
    generalize hv : (u.setDp fun d => { d with poll := pre.length, ok := false }).wire (receives pre) r = v at h2
    have hd2 : Did u v (receives pre) r := by rw [← hv]; exact did_setDp_wire u _ _ rfl rfl
    have hr2 := hd2.kept.running hr1
    have hq2 := hd2.kept.depth hq1
    have h3 := runs_go (d := d) (ls := ls) (s := v) hr2 hq2 (l := .transfer (.sreadToken a))
      (t := v.push (.block .auto :: .transfer (.sreadNext a .sreadToken) :: ls))
      ((if_neg (by rw [← hv]; simp)).trans rfl) rfl
    have h4 := (reaches_auto (d := d) (s := v) (ls := .transfer (.sreadNext a .sreadToken) :: ls) hr2 hq2).runs
      (c := 1) (by simp; omega)
    have hd3 := (hd1.trans hd2).trans (did_setCs v .auto)
    rw [hd2.rx] at hd3
    refine ⟨_, ?_, hd3, InBuffer.of_eq ?_, ?_, ?_, rfl⟩
    · exact (h1.trans (h2.trans (h3.trans h4))).mono (by omega)
    · rw [← hv]; exact hm1
    · rw [← hv]; exact hk1.trans hk
    · rw [← hv]; exact ha1
  | badBlock b =>
    obtain ⟨hfit, hbad⟩ := hfail
    obtain ⟨v, h2, hd2, hok, hm2, hk2, ha2, -⟩ := did_dataBlock (d := d) (ls := ls) (s := u) hr1 hq1 (b := b) (r := r)
      (by rw [hd1.kept.cfg]; exact hfit) (by rw [hk1, hk, hd1.kept.req]; simpa using hr) hd1.rx
      (ls₁ := [.transfer (.sreadToken a)]) (ls₂ := [.transfer (.sreadCrc a)]) (fun u hu hq hok => sreadToken_ok hu hq hok)
    have hr2 := hd2.kept.running hr1
    have hq2 := hd2.kept.depth hq1
    have h3 := runs_go (d := d) (ls := ls) (s := v) hr2 hq2 (l := .transfer (.sreadCrc a))
      (t := v.push (.block .auto :: .transfer (.sreadNext a .sreadCrc) :: ls))
      ((if_neg (fun hv => hbad (hok.mp hv))).trans rfl) rfl
    have h4 := (reaches_auto (d := d) (s := v) (ls := .transfer (.sreadNext a .sreadCrc) :: ls) hr2 hq2).runs
      (c := 1) (by simp; omega)
    have hd3 := (hd1.trans hd2).trans (did_setCs v .auto)
    rw [hd2.rx] at hd3
    refine ⟨_, (h1.trans (h2.trans (h3.trans h4))).mono (by omega), hd3, ?_, hk2.trans (hk1.trans hk),
      ha2.trans ha1, rfl⟩
    refine (InBuffer.of_eq hm1).trans (inBuffer_store (t := v.setCs .auto) hm2 ?_) hd1.kept.req
    rw [hfit.2.2, hk1, hk, hd1.kept.req]
    simpa using hr

/-- The failed attempts of a single-block read that are followed by another (R225, R230). -/
theorem runs_sreadFails {d : Nat} {ls : List Line} {a : Word} {r : List Byte}
    (tries : List (Answer × ReadFailure)) :
    ∀ s : State, s.running → d ≤ s.seq.length → s.dp.attempt + tries.length ≤ sreadAttempts →
      TriesFail s.cfg a tries → s.dp.k = 0 → blockBytes ≤ s.req.buf.len → s.rx = tryBytes tries ++ r →
      ∃ t, Runs d 0 (s.push (.transfer (.sreadTry a) :: ls)) (t.push (.transfer (.sreadTry a) :: ls)) ∧
        Did s t (tryEvents a tries) r ∧ InBuffer s t ∧ t.dp.k = 0 ∧
        t.dp.attempt = s.dp.attempt + tries.length ∧ (s.csMode = .auto → t.csMode = .auto) := by
  induction tries with
  | nil =>
    intro s h hd _ _ hk _ hrx
    exact ⟨s, Runs.refl _ _, ⟨Kept.refl s, rfl, hrx, rfl, rfl, rfl⟩, InBuffer.of_eq rfl, hk, rfl, id⟩
  | cons p tries ih =>
    intro s h hd hat hf hk hb hrx
    simp only [List.length_cons] at hat
    obtain ⟨hfit, hacc, hfail⟩ := hf p (by simp)
    obtain ⟨u, h1, hd1, hi1, hk1, ha1, hcs1⟩ := runs_sreadFail (d := d) (ls := ls) h hd hfit hacc hfail hk hb
      (r := tryBytes tries ++ r) (by rw [hrx]; simp [tryBytes])
    have hr1 := hd1.kept.running h
    have hq1 := hd1.kept.depth hd
    have h2 := runs_go (d := d) (ls := ls) (s := u) hr1 hq1 (l := .transfer (.sreadNext a p.2.code))
      (t := (u.setDp fun d => { d with attempt := d.attempt + 1 }).push (.transfer (.sreadTry a) :: ls))
      ((if_pos (by rw [State.push_dp, ha1]; omega)).trans rfl) rfl
    obtain ⟨t, h3, hd3, hi3, hk3, ha3, hcs3⟩ := ih (u.setDp fun d => { d with attempt := d.attempt + 1 }) hr1 hq1
      (by simp [ha1]; omega) (by rw [State.setDp_cfg, hd1.kept.cfg]; exact fun x hx => hf x (by simp [hx]))
      hk1 (by rw [State.setDp_req, hd1.kept.req]; exact hb) hd1.rx
    refine ⟨t, ?_, ?_, ?_, hk3, ?_, fun _ => hcs3 hcs1⟩
    · exact (h1.trans (h2.trans h3)).mono (by omega)
    · have := (hd1.trans (did_setDp u (f := fun d => { d with attempt := d.attempt + 1 }) rfl rfl)).trans hd3
      simpa [tryEvents] using this
    · exact hi1.trans ⟨hi3.wf, hi3.outside⟩ hd1.kept.req
    · rw [ha3]; simp [ha1]; omega

/-- `SINGLE_READ(a)` where a block passes its check (R225). -/
theorem runs_singleRead {s : State} {d : Nat} {ls : List Line} {a : Word} (h : s.running)
    (hd : d ≤ s.seq.length) {tries : List (Answer × ReadFailure)} {cmd : Answer} {b : DataBlock} {r : List Byte}
    (hlen : tries.length < sreadAttempts) (htries : TriesFail s.cfg a tries)
    (hcmd : cmd.fits s.cfg (.cmd17 a)) (hacc : cmd.accepted (.cmd17 a) = true) (hb : b.fits s.cfg) (hgood : b.good)
    (hr : blockBytes ≤ s.req.buf.len) (hrx : s.rx = tryBytes tries ++ (cmd.bytes ++ (b.bytes ++ r))) :
    ∃ t, Runs d 0 (s.push (.transfer (.singleRead a) :: ls)) (t.push ls) ∧
      Did s t (tryEvents a tries ++ cmd.events (.cmd17 a) ++ [.setcs .hold] ++ receives b.bytes ++
        [.setcs .auto]) r ∧ InBuffer s t ∧ t.csMode = .auto ∧
      ∃ m : Memory, (s.mem.wf → m.wf) ∧ t.mem = m.store s.req.buf.base b.payload := by
  have h1 := runs_go (d := d) (ls := ls) (s := s) h hd (l := .transfer (.singleRead a)) rfl rfl
  obtain ⟨u, h2, hd2, hi2, hk2, -, -⟩ := runs_sreadFails (d := d) (ls := ls) (a := a)
    (r := cmd.bytes ++ (b.bytes ++ r)) tries (s.setDp fun d => { d with attempt := 1, k := 0 }) h hd
    (by simp [sreadAttempts] at *; omega) htries rfl hr hrx
  have hc2 : u.cfg = s.cfg := hd2.kept.cfg
  have hr2 := hd2.kept.running h
  have hq2 := hd2.kept.depth hd
  obtain ⟨v, h3, hd3, hm3, hk3, -⟩ := runs_sreadCmd (d := d) (ls := ls) hr2 hq2 (cmd := cmd) (r := b.bytes ++ r)
    (by rw [hc2]; exact hcmd) hacc hd2.rx
  have hr3 := hd3.kept.running hr2
  have hq3 := hd3.kept.depth hq2
  have hreq : v.req = s.req := hd3.kept.req.trans hd2.kept.req
  obtain ⟨w, h4, hd4, hok, hm4, hk4, -⟩ := did_dataBlock (d := d) (ls := ls) (s := v) hr3 hq3 (b := b) (r := r)
      (by rw [hd3.kept.cfg, hc2]; exact hb) (by rw [hk3, hk2, hreq]; simpa using hr) hd3.rx
      (ls₁ := [.transfer (.sreadToken a)]) (ls₂ := [.transfer (.sreadCrc a)])
      (fun u hu hq hok => sreadToken_ok hu hq hok)
  have hr4 := hd4.kept.running hr3
  have hq4 := hd4.kept.depth hq3
  have h5 := runs_go (d := d) (ls := ls) (s := w) hr4 hq4 (l := .transfer (.sreadCrc a))
      (t := w.push (.block .auto :: ls)) ((if_pos (hok.mpr hgood)).trans rfl) rfl
  have h6 := (reaches_auto (d := d) (s := w) (ls := ls) hr4 hq4).runs (c := 1) (by simp; omega)
  have hbase : v.sectorBase = s.req.buf.base := by simp [State.sectorBase, hk3, hk2, hreq]
  refine ⟨_, (h1.trans (h2.trans (h3.trans (h4.trans (h5.trans h6))))).mono (by omega), ?_, ?_, rfl,
    v.mem, fun hw => by rw [hm3]; exact hi2.wf hw, by rw [State.setCs_mem, hm4, hbase]⟩
  · have := (((did_setDp s (f := fun d => { d with attempt := 1, k := 0 }) rfl rfl).trans hd2).trans
      (hd3.trans hd4)).trans (did_setCs w .auto)
    rw [hd4.rx] at this
    simpa using this
  · refine InBuffer.trans (s := s) ⟨hi2.wf, hi2.outside⟩ ((InBuffer.of_eq hm3).trans
      (inBuffer_store (t := w.setCs .auto) hm4 ?_) hd3.kept.req) hd2.kept.req
    rw [hb.2.2, hk3, hk2, hreq]
    simpa using hr


/-- The bytes stored are the slice read back. -/
theorem Memory.slice_store {m : Memory} (h : m.wf) (a : Nat) (bs : List Byte) :
    (m.store a bs).slice a bs.length = bs := by
  apply List.ext_getElem (by simp)
  intro j h1 h2
  rw [← Memory.read_store h.1 a bs j h2]
  have key : ∀ (n : Nat) (m : Memory) (a j : Nat) (hj : j < (m.slice a n).length), (m.slice a n)[j] = m.read (a + j) := by
    intro n
    induction n with
    | zero => intro m a j hj; simp [Memory.slice] at hj
    | succ n ih =>
      intro m a j hj
      cases j with
      | zero => simp [Memory.slice]
      | succ j =>
        simp only [Memory.slice, List.getElem_cons_succ]
        rw [ih]
        congr 1
        omega
  exact key _ _ _ _ _

/-- A slice that a store does not reach. -/
theorem Memory.slice_store_other (m : Memory) {a a' n : Nat} (bs : List Byte)
    (h : a' + n ≤ a ∨ a + bs.length ≤ a') : (m.store a bs).slice a' n = m.slice a' n := by
  induction n generalizing a' with
  | zero => rfl
  | succ n ih =>
    rw [Memory.slice, Memory.slice, ih (by omega), Memory.read_store_outside _ _ (by omega)]

/-! ### A multi-block read -/

theorem mreadToken_ok {d : Nat} {ls : List Line} {n : Word} {u : State} (h : u.running) (hd : d ≤ u.seq.length)
    (hok : u.dp.ok = true) :
    Runs d 2 (u.push ([.transfer (.mreadToken n)] ++ ls))
      (u.push (.block .readStart :: [.transfer (.mreadCrc n)] ++ ls)) :=
  (runs_go (d := d) (ls := ls) h hd (l := .transfer (.mreadToken n)) ((if_pos hok).trans rfl) rfl).mono (by omega)

/-- The sectors of a multi-block read that pass their checks, from sector k on (R226). -/
theorem runs_mreadBlocks {d : Nat} {ls : List Line} {n : Word} {r : List Byte} (bs : List (DataBlock × Byte)) :
    ∀ s : State, s.running → d ≤ s.seq.length → s.dp.k.toNat + bs.length ≤ n.toNat →
      (∀ p ∈ bs, p.1.fits s.cfg ∧ p.1.good) → blockBytes * n.toNat ≤ s.req.buf.len → s.rx = sectorBytes bs ++ r →
      ∃ t, Runs d 0 (s.push (.transfer (.mreadLoop n) :: ls)) (t.push (.transfer (.mreadLoop n) :: ls)) ∧
        Did s t (receives (sectorBytes bs)) r ∧ InBuffer s t ∧ t.dp.k.toNat = s.dp.k.toNat + bs.length ∧
        (∀ j, j < s.dp.k.toNat → t.sectorData j = s.sectorData j) ∧
        (s.mem.wf → ∀ (j : Nat) (h : j < bs.length), t.sectorData (s.dp.k.toNat + j) = bs[j].1.payload) ∧
        t.csMode = s.csMode := by
  induction bs with
  | nil =>
    intro s h hd _ _ _ hrx
    exact ⟨s, Runs.refl _ _, ⟨Kept.refl s, rfl, hrx, rfl, rfl, rfl⟩, InBuffer.of_eq rfl, rfl, fun _ _ => rfl,
      fun _ _ h => by simp at h, rfl⟩
  | cons p bs ih =>
    intro s h hd hn hf hb hrx
    simp only [List.length_cons] at hn
    obtain ⟨hfit, hgood⟩ := hf p (by simp)
    have h1 := runs_go (d := d) (ls := ls) (s := s) h hd (l := .transfer (.mreadLoop n))
      ((if_pos (show s.dp.k.toNat < n.toNat by omega)).trans rfl) rfl
    have hroom : blockBytes * s.dp.k.toNat + blockBytes ≤ s.req.buf.len := by simp only [blockBytes] at *; omega
    obtain ⟨u, h2, hd2, hok, hm2, hk2, -, hcs2⟩ := did_dataBlock (d := d) (ls := ls) (s := s) h hd (b := p.1)
      (r := p.2 :: (sectorBytes bs ++ r)) hfit hroom (by rw [hrx]; simp [sectorBytes])
      (ls₁ := [.transfer (.mreadToken n)]) (ls₂ := [.transfer (.mreadCrc n)])
      (fun u hu hq hok => mreadToken_ok hu hq hok)
    have hr2 := hd2.kept.running h
    have hq2 := hd2.kept.depth hd
    have h3 := runs_go (d := d) (ls := ls) (s := u) hr2 hq2 (l := .transfer (.mreadCrc n))
      (t := u.push (.block .filler :: .transfer (.mreadNext n) :: ls)) ((if_pos (hok.mpr hgood)).trans rfl) rfl
    have h4 := (reaches_filler (d := d) (s := u) (ls := .transfer (.mreadNext n) :: ls) hr2 hq2 hd2.rx).runs
      (c := 1) (by simp [hd2.rx]; omega)
    have h5 := runs_go (d := d) (ls := ls) (s := u.wire [.xchg fillerByte p.2] (sectorBytes bs ++ r)) hr2 hq2
      (l := .transfer (.mreadNext n)) rfl rfl
    generalize hv : (u.wire [.xchg fillerByte p.2] (sectorBytes bs ++ r)).setDp
      (fun d => { d with k := d.k + 1 }) = v at *
    have h5' : Runs d 1 ((u.wire [.xchg fillerByte p.2] (sectorBytes bs ++ r)).push (.transfer (.mreadNext n) :: ls))
      (v.push (.transfer (.mreadLoop n) :: ls)) := by rw [← hv]; exact h5
    have hdv : Did u v [.xchg fillerByte p.2] (sectorBytes bs ++ r) := by
      rw [← hv]
      simpa using (did_wire u [.xchg fillerByte p.2] (sectorBytes bs ++ r)).trans
        (did_setDp _ (f := fun d => { d with k := d.k + 1 }) rfl rfl)
    have hk : v.dp.k.toNat = s.dp.k.toNat + 1 := by
      rw [← toNat_succ (n := n) (by omega), ← hk2, ← hv]; rfl
    have hmv : v.mem = u.mem := by rw [← hv]; rfl
    have hcv : v.csMode = u.csMode := by rw [← hv]; rfl
    have hdsv := hd2.trans hdv
    obtain ⟨t, h6, hd6, hi6, hk6, hold, hnew, hcs6⟩ := ih v (hdsv.kept.running h) (hdsv.kept.depth hd)
      (by rw [hk]; omega) (fun x hx => by rw [hdsv.kept.cfg]; exact hf x (by simp [hx]))
      (by rw [hdsv.kept.req]; exact hb) hdv.rx
    have hisv : InBuffer s v := inBuffer_store (hmv.trans hm2) (by rw [hfit.2.2]; exact hroom)
    have hsd : ∀ j, v.sectorData j = (s.mem.store s.sectorBase p.1.payload).slice (s.req.buf.base + blockBytes * j) blockBytes := by
      intro j; simp [State.sectorData, hmv, hm2, hdsv.kept.req]
    refine ⟨t, ((h1.trans h2).trans (h3.trans (h4.trans (h5'.trans h6)))).mono (by omega), ?_,
      hisv.trans hi6 hdsv.kept.req, by rw [hk6, hk]; simp; omega, ?_, ?_, by rw [hcs6, hcv, hcs2]⟩
    · have := hdsv.trans hd6
      simpa [sectorBytes, receives] using this
    · intro j hj
      rw [hold j (by omega), hsd, Memory.slice_store_other _ _ (Or.inl (by simp only [State.sectorBase, blockBytes]; omega))]
      rfl
    · intro hw j hj
      cases j with
      | zero =>
        rw [hold _ (by omega), hsd]
        have := Memory.slice_store hw s.sectorBase p.1.payload
        rw [hfit.2.2] at this
        simpa [State.sectorBase] using this
      | succ j =>
        have := hnew (hisv.wf hw) j (by simpa using hj)
        rw [hk] at this
        simpa [Nat.add_assoc, Nat.add_comm 1] using this

/-- `MULTI_READ(a, n)` up to its first sector: CMD18, HOLD and the pump (R226). -/
theorem runs_mreadStart {s : State} {d : Nat} {ls : List Line} {a n : Word} (h : s.running)
    (hd : d ≤ s.seq.length) {cmd : Answer} {pump : Byte} {r : List Byte}
    (hcmd : cmd.fits s.cfg (.cmd18 a)) (hacc : cmd.accepted (.cmd18 a) = true)
    (hrx : s.rx = cmd.bytes ++ pump :: r) :
    ∃ t, Runs d 0 (s.push (.transfer (.multiRead a n) :: ls)) (t.push (.transfer (.mreadLoop n) :: ls)) ∧
      Did s t (cmd.events (.cmd18 a) ++ [.setcs .hold, .xchg fillerByte pump]) r ∧ t.mem = s.mem ∧ t.dp.k = 0 := by
  have h1 := runs_go (d := d) (ls := ls) (s := s) h hd (l := .transfer (.multiRead a n)) rfl rfl
  obtain ⟨u, h2, hd2, hok, hm2, -⟩ := did_command (d := d) (s := s) (ls := .transfer (.mreadCmd n) :: ls)
    (i := .cmd18 a) rfl rfl h hd hcmd hrx
  have hr2 := hd2.kept.running h
  have hq2 := hd2.kept.depth hd
  have h3 := runs_go (d := d) (ls := ls) (s := u) hr2 hq2 (l := .transfer (.mreadCmd n))
    (t := (u.setDp fun d => { d with k := 0 }).push (.block .hold :: .block .filler :: .transfer (.mreadLoop n) :: ls))
    ((if_pos (by rw [State.push_dp, hok, hacc])).trans rfl) rfl
  have h4 := (reaches_hold (d := d) (s := u.setDp fun d => { d with k := 0 })
    (ls := .block .filler :: .transfer (.mreadLoop n) :: ls) hr2 hq2).runs (c := 1) (by simp; omega)
  have h5 := (reaches_filler (d := d) (s := (u.setDp fun d => { d with k := 0 }).setCs .hold)
    (ls := .transfer (.mreadLoop n) :: ls) hr2 hq2 hd2.rx).runs (c := 1) (by simp [hd2.rx]; omega)
  refine ⟨_, ((h1.trans h2).trans (h3.trans (h4.trans h5))).mono (by omega), ?_, hm2, rfl⟩
  have := ((hd2.trans (did_setDp u (f := fun d => { d with k := 0 }) rfl rfl)).trans (did_setCs _ .hold)).trans
    (did_wire _ [.xchg fillerByte pump] r)
  simpa using this

/-- The end of a multi-block read: CMD12, busy wait, AUTO (R226). -/
theorem runs_mreadEnd {s : State} {d : Nat} {ls : List Line} {n : Word} (h : s.running) (hd : d ≤ s.seq.length)
    (hk : s.dp.k.toNat = n.toNat) {stop : Answer} {busy r : List Byte} (hs : stop.fits s.cfg .cmd12)
    (hb : BusyEnds s.cfg busy) (hrx : s.rx = stop.bytes ++ (busyBytes busy ++ r)) :
    ∃ t, Runs d 0 (s.push (.transfer (.mreadLoop n) :: ls)) (t.push ls) ∧
      Did s t (stop.events .cmd12 ++ receives (busyBytes busy) ++ [.setcs .auto]) r ∧ t.mem = s.mem ∧
      t.csMode = .auto := by
  have h1 := runs_go (d := d) (ls := ls) (s := s) h hd (l := .transfer (.mreadLoop n))
    ((if_neg (show ¬ s.dp.k.toNat < n.toNat by omega)).trans rfl) rfl
  obtain ⟨u, h2, hd2, -, hm2, -⟩ := did_command (d := d) (s := s) (ls := .block (.busyStart 12) :: .block .auto :: ls)
    (i := .cmd12) rfl rfl h hd hs hrx
  have hr2 := hd2.kept.running h
  have hq2 := hd2.kept.depth hd
  have h3 := (reaches_notBusy (d := d) (ls := .block .auto :: ls) (idx := 12) (pre := busy) (r := r)
    (s := u) hr2 hq2 hb.1 (by rw [hd2.kept.cfg]; exact hb.2)
    (by simp [busyBytes, hd2.rx])).runs (c := 1) (by simp [busyBytes, hd2.rx]; omega)
  have h4 := (reaches_auto (d := d) (ls := ls) (s := (u.setDp fun d => { d with poll := busy.length + 1 }).wire
      (receives (busy ++ [0xFF])) r) hr2 hq2).runs (c := 1) (by simp; omega)
  refine ⟨_, (((h1.trans h2).trans h3).trans h4).mono (by omega), ?_, hm2, rfl⟩
  have := (hd2.trans
    (did_setDp_wire _ (f := fun d => { d with poll := busy.length + 1 }) (receives (busy ++ [0xFF])) r rfl rfl)).trans
    (did_setCs _ .auto)
  simpa [busyBytes] using this

end Sys2Proof.Machine
end

