-- ==== Sys2Proof/Tests/Slice0.lean ====
section
/-!
SUPPORT. The model's own tests, each on fixed values with its expected result from the spec: the well-formedness
smoke, the words of each family written out from spec/30_encoding.md, one small step a test, and for every
obligation with hypotheses a state and operands that meet them.
-/

namespace Sys2Proof.Tests

open Sys2Proof Sys2Proof.Machine

set_option Elab.async false

/-! ### Helpers -/

/-- The outcome is a next state that passes the check. -/
def nextIs (o : Host.Outcome State Fault Refusal) (p : State → Bool) : Bool :=
  match o with
  | .next t => p t
  | .fault _ | .refused _ => false

/-- The outcome is this fault. -/
def faultIs (o : Host.Outcome State Fault Refusal) (f : Fault) : Bool :=
  match o with
  | .fault g => g == f
  | .next _ | .refused _ => false

/-- The outcome is this refusal. -/
def refusedIs (o : Host.Outcome State Fault Refusal) (r : Refusal) : Bool :=
  match o with
  | .refused q => q == r
  | .next _ | .fault _ => false

/-- READY with nothing pending, the transport about to deliver these bytes. -/
def hearing (bytes : List Byte) : State :=
  { State.reset with phase := .ready, seq := [], ready := true, rx := bytes }

/-- BUSY: host 0's request granted, its buffer from address 0 on (R265). -/
def serving (cap : Capacity) (op : Byte) (sector count : Word) (bytes : List Byte) : State :=
  { hearing bytes with
    cap := cap
    phase := .busy
    seq := [.host .release]
    guard := some 0
    pending := [some { op := op, sector := sector, count := count, buf := ⟨0, 512 * count.toNat⟩ }]
    req := { host := 0, op := op, sector := sector, count := count, buf := ⟨0, 512 * count.toNat⟩, addr := 0 } }

/-- Six bytes received with a frame. -/
def six : List Byte := [0xFF, 0xFF, 0xFF, 0xFF, 0xFF, 0xFF]

/-- Bytes that match no poll. -/
def silence (n : Nat) : List Byte := List.replicate n 0xFF

/-- An answer with an R1 (V5: `FF lead FF`). -/
def r1Answer (lead : Byte) : Answer := ⟨six, [0xFF], lead, [], 0xFF⟩

/-- An answer with an R3 or an R7 (V5: `FF 01 b b b b FF`). -/
def longAnswer (payload : List Byte) : Answer := ⟨six, [0xFF], 0x01, payload, 0xFF⟩

/-- A block of zeros, which passes with trailer `00 00` (V2.2). -/
def zeroBlock : DataBlock := ⟨[], List.replicate blockBytes 0x00, 0x00, 0x00⟩

/-- The same payload with a wrong trailer. -/
def badZeroBlock : DataBlock := ⟨[], List.replicate blockBytes 0x00, 0x00, 0x01⟩

/-- A block written: response `FF E5`, busy `00 00`, then 0xFF (V6.8). -/
def written : WrittenBlock := ⟨List.replicate (blockBytes + 3) 0xFF, 1, 0xE5, [0x00, 0x00]⟩

/-! ### Well-formedness -/

theorem test_wf_crc7_of_four_bytes_refused : (Instr.crc7 [0x40, 0x00, 0x00, 0x00]).wf = false := by decide
theorem test_wf_crc7_of_five_bytes : (Instr.crc7 [0x40, 0x00, 0x00, 0x00, 0x00]).wf = true := by decide
theorem test_wf_crc16_of_one_byte_refused : (Instr.crc16 [0x00]).wf = false := by decide
theorem test_wf_request_op_refused : (Request.mk 0x03 0 1 ⟨0, 512⟩).wf = false := by decide
theorem test_wf_request_length_refused : (Request.mk 0x01 0 1 ⟨0, 511⟩).wf = false := by decide
theorem test_wf_request : (Request.mk 0x01 0x10 2 ⟨0, 1024⟩).wf = true := by decide
theorem test_wf_config_zero_polls_refused : ({ respPollMax := 0 } : Config).wf = false := by decide
theorem test_wf_config_zero_busy_polls_refused : ({ busyPollMax := some 0 } : Config).wf = false := by decide
theorem test_wf_config_defaults : Config.defaults.wf = true := by decide

/-- V3.5 and V3.4: the address of an admitted request is below 2^32. -/
theorem test_admission_address :
    (hearing []).admits ⟨0x01, 0x00800000, 1, ⟨0, 512⟩⟩ = false ∧
    (hearing []).admits ⟨0x01, 0x007FFFFF, 1, ⟨0, 512⟩⟩ = true := by decide

/-- The canonical form refuses a listed blank byte and a repeated address. -/
theorem test_memory_forms : ¬ Memory.wf [(3, 0x00)] ∧ ¬ Memory.wf [(3, 0x01), (3, 0x02)] ∧
    Memory.wf [(3, 0x01), (4, 0x02)] := by decide

/-! ### Decoding: words from the spec -/

/-- R92, bit by bit: 01 and index 0; argument 0; CRC7 1001010 and the end bit (R91 to R93). -/
theorem test_decode_cmd0_bits :
    decodeIn .frame [0b01000000, 0b00000000, 0b00000000, 0b00000000, 0b00000000, 0b10010101] = .ok .cmd0 := by
  decide +kernel

/-- R109: the fixed frames. -/
theorem test_decode_fixed_frames :
    decodeTableWord 48 0x48000001AA87 = some .cmd8 ∧ decodeTableWord 48 0x4C0000000061 = some .cmd12 ∧
    decodeTableWord 48 0x500000020015 = some .cmd16 ∧ decodeTableWord 48 0x770000000065 = some .cmd55 ∧
    decodeTableWord 48 0x694000000077 = some .acmd41 ∧ decodeTableWord 48 0x7A00000000FD = some .cmd58 ∧
    decodeTableWord 48 0x7B0000000183 = some .cmd59 := by decide +kernel

/-- V1.15, V1.19, V1.20 and V1.21: the commands with an address. -/
theorem test_decode_address_frames :
    decodeIn .frame [0x51, 0x00, 0x00, 0x02, 0x00, 0x79] = .ok (.cmd17 0x200) ∧
    decodeIn .frame [0x52, 0x00, 0x00, 0x00, 0x10, 0xD3] = .ok (.cmd18 0x10) ∧
    decodeIn .frame [0x58, 0x00, 0x00, 0x06, 0x00, 0x1B] = .ok (.cmd24 0x600) ∧
    decodeIn .frame [0x59, 0x00, 0x00, 0x01, 0x00, 0x15] = .ok (.cmd25 0x100) := by decide +kernel

/-- V1.23: the largest address. -/
theorem test_decode_largest_address :
    decodeIn .frame [0x51, 0xFF, 0xFF, 0xFF, 0xFF, 0x7F] = .ok (.cmd17 0xFFFFFFFF) := by decide +kernel

/-- R103, R104: CMD59 off is never sent, other indices are reserved, and a wrong CRC7, start or end bit is no frame. -/
theorem test_decode_refused_frames :
    decodeIn .frame [0x7B, 0x00, 0x00, 0x00, 0x00, 0x91] = .error .argument ∧
    decodeIn .frame (encodeFrame 1 0) = .error .reservedIndex ∧
    decodeIn .frame [0x40, 0x00, 0x00, 0x00, 0x00, 0x97] = .error .crc7Mismatch ∧
    decodeIn .frame [0x00, 0x00, 0x00, 0x00, 0x00, 0x95] = .error .startBits ∧
    decodeIn .frame [0x40, 0x00, 0x00, 0x00, 0x00, 0x94] = .error .endBit ∧
    decodeIn .frame [0x40] = .error .length := by decide +kernel

/-- R99, R100, R101, R142: tokens and responses, each in its context. -/
theorem test_decode_tokens :
    decodeIn .tokenPoll [0b11111110] = .ok .startTokenRead ∧
    decodeIn .singleBlock [0b11111110] = .ok .startTokenSingleWrite ∧
    decodeIn .multiBlock [0b11111100] = .ok .startTokenMultiWrite ∧
    decodeIn .streamEnd [0b11111101] = .ok .stopTokenMultiWrite ∧
    decodeIn .dataResp [0b11100101] = .ok (.dataRespAccepted 0b1110) ∧
    decodeIn .busyPoll [0b11111111] = .ok .notBusy ∧ decodeIn .clocking [0b11111111] = .ok .filler := by decide

/-- V4.1 and V4.2: which bytes lead a response; V6's judgement of a data response. -/
theorem test_decode_leads :
    decodeIn .leadR1 [0b00000101] = .ok (.r1Lead 5) ∧ decodeIn .leadR1 [0b01000000] = .error .otherByte ∧
    decodeIn .leadR7 [0b00000001] = .ok (.r7Lead 1) ∧ decodeIn .leadR3 [0b00000011] = .ok (.r3Lead 1) ∧
    decodeIn .leadR3 [0b00000000] = .error .otherByte ∧ decodeIn .dataResp [0x0B] = .error .otherByte := by decide

/-- R102: op, starting sector and count, big-endian; another op is refused. -/
theorem test_decode_requests :
    decodeIn .requestPort [0x01, 0x00, 0x00, 0x00, 0x05, 0x00, 0x00, 0x00, 0x01] = .ok (.readReq 5 1) ∧
    decodeIn .requestPort [0x02, 0x00, 0x00, 0x01, 0x00, 0x00, 0x00, 0x00, 0x03] = .ok (.writeReq 0x100 3) ∧
    decodeIn .requestPort [0x00, 0x00, 0x00, 0x00, 0x05, 0x00, 0x00, 0x00, 0x01] = .error .hostOp := by decide

/-- The rows without an encoding, by their contexts alone (log entry 6). -/
theorem test_decode_rows_without_encoding :
    decodeIn .resetRelease [] = .ok .bringup ∧ decodeIn .crc7Unit [1, 2, 3, 4, 5] = .ok (.crc7 [1, 2, 3, 4, 5]) ∧
    decodeIn .crc7Unit [1] = .error .length ∧ decodeIn .crc16Unit [1] = .error .length := by decide

/-- R125's input of one block decodes to its row. -/
theorem test_decode_crc16 (m : List Byte) (h : m.length = 512) : decodeIn .crc16Unit m = .ok (.crc16 m) := if_pos h

/-- The four rows whose CRC7 bits the table leaves open decode whatever those bits are (log entry 6). -/
theorem test_decode_table_open_crc :
    decodeTableWord 48 0x520000000001 = some (.cmd18 0) ∧ decodeTableWord 48 0x520000000000 = none := by
  decide +kernel

/-! ### Checksums (V1, V2) -/

theorem test_crc7_check_value :
    crc7 [0x31, 0x32, 0x33, 0x34, 0x35, 0x36, 0x37, 0x38, 0x39] = 0x75 := by decide +kernel
theorem test_crc16_check_value :
    crc16 [0x31, 0x32, 0x33, 0x34, 0x35, 0x36, 0x37, 0x38, 0x39] = 0x31C3 := by decide +kernel
theorem test_crc16_one_byte : crc16 [0x41] = 0x58E5 := by decide +kernel

/-! ### One step of each instruction -/

/-- V5.1: CMD0 is OK with R1 0x01; the frame is R109's and the mode is AUTO again. -/
theorem test_cmd0_ok : nextIs (exec .cmd0 (hearing (six ++ [0xFF, 0x01, 0xFF]))) (fun t =>
    t.dp.ok && t.dp.frame.toList == [0x40, 0x00, 0x00, 0x00, 0x00, 0x95] && t.csMode == .auto &&
    t.dp.poll == 2) = true := by decide +kernel

/-- V5.4: a silent card at CMD0. -/
theorem test_cmd0_silent : nextIs (exec .cmd0 (hearing (six ++ silence 8))) (fun t =>
    t.phase == .halted && t.fault == some { code := .respTimeout, cmd := some 0 } && t.trace.length == 17) =
    true := by decide +kernel

/-- V4.15: the reserved bytes and r2's high nibble are ignored. -/
theorem test_cmd8_ok : nextIs (exec .cmd8 (hearing (six ++ [0x01, 0x12, 0x34, 0xF1, 0xAA, 0xFF]))) (fun t =>
    t.dp.ok && t.dp.va == 0x1 && t.dp.echo == 0xAA) = true := by decide +kernel

/-- V4.17: the end bit is 0. -/
theorem test_cmd8_end_bit : nextIs (exec .cmd8 (hearing (six ++ [0x01, 0x00, 0x00, 0x01, 0xAA, 0x00]))) (fun t =>
    !t.dp.ok) = true := by decide +kernel

/-- V5.1: CMD12 is OK whatever comes. -/
theorem test_cmd12_ok : nextIs (exec .cmd12 (hearing (six ++ [0x3F, 0x00]))) (fun t => t.dp.ok) = true := by
  decide +kernel

/-- V5.1: CMD16 rejects an R1 above idle. -/
theorem test_cmd16_above_idle : nextIs (exec .cmd16 (hearing (six ++ [0x04, 0xFF]))) (fun t =>
    !t.dp.ok && t.dp.lead == 0x04) = true := by decide +kernel

theorem test_cmd17_ready : nextIs (exec (.cmd17 5) (hearing (six ++ [0x00, 0xFF]))) (fun t =>
    t.dp.ok && t.dp.frame.toList == [0x51, 0x00, 0x00, 0x00, 0x05, 0x0F]) = true := by decide +kernel

/-- V5.1: idle is no success of a data command. -/
theorem test_cmd18_idle : nextIs (exec (.cmd18 0x10) (hearing (six ++ [0x01, 0xFF]))) (fun t =>
    !t.dp.ok && t.dp.frame.toList == [0x52, 0x00, 0x00, 0x00, 0x10, 0xD3]) = true := by decide +kernel

theorem test_cmd24_ready : nextIs (exec (.cmd24 0x600) (hearing (six ++ [0x00, 0xFF]))) (fun t =>
    t.dp.ok && t.dp.frame.toList == [0x58, 0x00, 0x00, 0x06, 0x00, 0x1B]) = true := by decide +kernel

theorem test_cmd25_ready : nextIs (exec (.cmd25 0x100) (hearing (six ++ [0x00, 0xFF]))) (fun t =>
    t.dp.ok && t.dp.frame.toList == [0x59, 0x00, 0x00, 0x01, 0x00, 0x15]) = true := by decide +kernel

theorem test_cmd55_illegal : nextIs (exec .cmd55 (hearing (six ++ [0x05, 0xFF]))) (fun t => !t.dp.ok) = true := by
  decide +kernel

/-- V5.1: the busy bit of the OCR fails ACMD41, which has written `st.ocr` (V4.11). -/
theorem test_acmd41_busy : nextIs (exec .acmd41 (hearing (six ++ [0x01, 0xFF] ++ six ++
    [0x01, 0x80, 0xFF, 0x80, 0x00, 0xFF]))) (fun t => !t.dp.ok && t.ocr == some 0x80FF8000) = true := by
  decide +kernel

/-- V5.1: a CMD55 that fails sends no CMD41. -/
theorem test_acmd41_prefix_fails : nextIs (exec .acmd41 (hearing (six ++ [0x05, 0xFF, 0x77]))) (fun t =>
    !t.dp.ok && t.rx == [0x77] && t.ocr == none) = true := by decide +kernel

/-- V4.10 and V4.13: `st.ocr` is big-endian, and is written where the end bit is 1 only. -/
theorem test_cmd58_ocr : nextIs (exec .cmd58 (hearing (six ++ [0x01, 0x40, 0xFF, 0x80, 0x00, 0xFF]))) (fun t =>
    t.dp.ok && t.ocr == some 0x40FF8000) = true := by decide +kernel
theorem test_cmd58_end_bit : nextIs (exec .cmd58 (hearing (six ++ [0x01, 0x00, 0xFF, 0x80, 0x00, 0x00]))) (fun t =>
    !t.dp.ok && t.ocr == none && t.dp.ocrIn == 0x00FF8000) = true := by decide +kernel

theorem test_cmd59_ok : nextIs (exec .cmd59 (hearing (six ++ [0x01, 0xFF]))) (fun t =>
    t.dp.ok && t.dp.frame.toList == [0x7B, 0x00, 0x00, 0x00, 0x01, 0x83]) = true := by decide +kernel

theorem test_startTokenRead : nextIs (exec .startTokenRead (hearing [0x03])) (fun t =>
    t.dp.ok && t.rx == [0x03] && t.trace == [.xchg 0xFF 0xFE]) = true := by decide +kernel

/-- R60, R62: the block reader stops where the buffer has no such byte. -/
theorem test_single_write_token_range : faultIs (exec .startTokenSingleWrite
    (serving .high 0x02 0 0 (silence 4))) .bufferRange = true := by decide +kernel

/-- The transport delivers the token's byte only: the core waits at the first payload byte (R144). -/
theorem test_multi_write_token_waits : nextIs (exec .startTokenMultiWrite
    { serving .high 0x02 0 2 [0xFF] with mem := [(0, 0xA5)] }) (fun t =>
    t.trace == [.xchg 0xFC 0xFF] && t.dp.data == 0xA5 &&
    t.seq == [.block .sendByte, .host .release]) = true := by decide +kernel

theorem test_stopToken : nextIs (exec .stopTokenMultiWrite (hearing [0x00])) (fun t =>
    t.trace == [.xchg 0xFD 0x00] && t.rx == []) = true := by decide +kernel

theorem test_dataResp : nextIs (exec (.dataRespAccepted 0x1) (hearing [])) (fun t =>
    t.trace == [.xchg 0xFF 0x15] && t.phase == .ready) = true := by decide +kernel

theorem test_notBusy : nextIs (exec .notBusy (hearing [0x00])) (fun t =>
    t.trace == [.xchg 0xFF 0xFF] && t.rx == [0x00]) = true := by decide +kernel

theorem test_filler : nextIs (exec .filler (hearing [0x5A])) (fun t =>
    t.trace == [.xchg 0xFF 0x5A] && t.dp.data == 0x5A) = true := by decide +kernel

/-- V4.4: the trailer's end bit is 0. -/
theorem test_r1Lead : nextIs (exec (.r1Lead 0) (hearing [0xFE])) (fun t =>
    !t.dp.ok && t.dp.lead == 0x00 && t.dp.trailer == 0xFE) = true := by decide +kernel

/-- V4.14. -/
theorem test_r7Lead : nextIs (exec (.r7Lead 1) (hearing [0x00, 0x00, 0x01, 0xAA, 0xFF])) (fun t =>
    t.dp.ok && t.dp.va == 0x1 && t.dp.echo == 0xAA) = true := by decide +kernel

/-- V4.11: `v` = 0 stands for the byte 0x01. -/
theorem test_r3Lead : nextIs (exec (.r3Lead 0) (hearing [0x80, 0xFF, 0x80, 0x00, 0xFF])) (fun t =>
    t.dp.lead == 0x01 && t.ocr == some 0x80FF8000) = true := by decide +kernel

/-- V6.18: READ(0, 0) is 20 exchanges and 5 chip-select changes, and writes nothing. -/
theorem test_read_zero_sectors : nextIs (exec (.readReq 0 0) (serving .high 0x01 0 0
    (six ++ [0xFF, 0x00, 0xFF] ++ [0xFF] ++ six ++ [0xFF, 0x00, 0xFF] ++ [0xFF]))) (fun t =>
    t.trace.length == 26 && t.mem == [] && t.seq == [.host .release]) = true := by decide +kernel

/-- V6.2: a rejected CMD17. -/
theorem test_read_rejected : nextIs (exec (.readReq 5 1) (serving .high 0x01 5 1 (six ++ [0xFF, 0x04, 0xFF])))
    (fun t => t.fault == some { code := .sreadCmd, cmd := some 17, attempt := some (attemptNo 1) } &&
      t.guard == some 0) = true := by decide +kernel

/-- V6.19: WRITE(0, 0), its trace as the spec writes it, newest event first. -/
theorem test_write_zero_sectors : nextIs (exec (.writeReq 0 0) (serving .high 0x02 0 0
    (six ++ [0xFF, 0x00, 0xFF] ++ [0xFF, 0xFF, 0xFF]))) (fun t =>
    t.trace.take 5 == [.setcs .auto, .xchg 0xFF 0xFF, .xchg 0xFD 0xFF, .xchg 0xFF 0xFF, .setcs .hold]) = true := by
  decide +kernel

/-- V6.21. -/
theorem test_write_rejected : nextIs (exec (.writeReq 0 2) (serving .high 0x02 0 2 (six ++ [0xFF, 0x04, 0xFF])))
    (fun t => t.fault == some { code := .mwriteCmd, cmd := some 25 }) = true := by decide +kernel

/-- V5.2: bring-up of a high-capacity card is 66 exchanges and 12 chip-select changes. -/
theorem test_bringup_high : nextIs (exec .bringup { State.reset with rx :=
    six ++ [0xFF, 0x01, 0xFF] ++ (six ++ [0xFF, 0x01, 0x00, 0x00, 0x01, 0xAA, 0xFF]) ++
    (six ++ [0xFF, 0x01, 0xFF]) ++ (six ++ [0xFF, 0x01, 0xFF]) ++
    (six ++ [0xFF, 0x01, 0x00, 0xFF, 0x80, 0x00, 0xFF]) ++ (six ++ [0xFF, 0x01, 0x40, 0xFF, 0x80, 0x00, 0xFF]) })
    (fun t => t.phase == .ready && t.cap == .high && t.ocr == some 0x40FF8000 && t.ready &&
      t.trace.length == 78 && t.rx == []) = true := by decide +kernel

/-- V5.8: a silent CMD59 is fatal, although CMD59 is best effort. -/
theorem test_bringup_silent_cmd59 : nextIs (exec .bringup { State.reset with rx :=
    six ++ [0xFF, 0x01, 0xFF] ++ (six ++ [0xFF, 0x01, 0x00, 0x00, 0x01, 0xAA, 0xFF]) ++ (six ++ silence 8) })
    (fun t => t.phase == .halted && t.fault == some { code := .respTimeout, cmd := some 59 } && !t.ready &&
      t.trace.length == 43) = true := by decide +kernel

theorem test_crc7_unit : nextIs (exec (.crc7 [0x48, 0x00, 0x00, 0x01, 0xAA]) (hearing [])) (fun t =>
    t.dp.crc7acc == 0x43 && t.trace == []) = true := by decide +kernel

theorem test_crc16_unit : nextIs (exec (.crc16 [0x41]) (hearing [])) (fun t =>
    t.dp.crc16acc == 0x58E5 && t.dp.crc7acc == 0) = true := by decide +kernel

/-! ### Steps, reset, façade -/

/-- A table word after reset is performed by the very next step. -/
theorem test_step_runs_word : nextIs (step (State.reset.withFetchWord 8 0xFE)) (fun t =>
    t.dp.ok && t.trace == [.xchg 0xFF 0xFE]) = true := by decide +kernel

/-- Bytes that are no instruction are refused by name. -/
theorem test_step_refuses_word : refusedIs (step (State.reset.withFetchWord 48 0x400000000093))
    (.illegalWord .crc7Mismatch) = true := by decide +kernel

/-- R340: the release of reset. -/
theorem test_reset_released : nextIs (step State.reset) (fun t =>
    t.phase == .bringup && t.seq == [.bringup .start] && t.trace == []) = true := by decide +kernel

/-- V7.6: a host may submit while HALTED. -/
theorem test_submit_in_halted : nextIs (step { hearing [] with
    phase := .halted, inputs := [.submit 0 ⟨0x01, 5, 1, ⟨0, 512⟩⟩] }) (fun t =>
    (t.pendingOf 0).isSome && t.phase == .halted && t.trace == []) = true := by decide +kernel

/-- V3.10: a request of the wrong length is refused and leaves no trace. -/
theorem test_submit_wrong_length : nextIs (step { hearing [] with
    inputs := [.submit 0 ⟨0x01, 5, 1, ⟨0, 511⟩⟩] }) (fun t => t.pendingOf 0 == none) = true := by decide +kernel

/-- R265: the grant of the one waiting host. -/
theorem test_grant : nextIs (step { hearing [] with
    pending := [some ⟨0x02, 0, 0, ⟨0, 0⟩⟩] }) (fun t =>
    t.guard == some 0 && t.phase == .busy && t.trace == [.grant 0] &&
    t.seq == [.host .serve, .host .release]) = true := by decide +kernel

/-- R266: RELEASE, then DONE (V7.5). -/
theorem test_release : nextIs (step (serving .high 0x01 5 1 [])) (fun t =>
    t.trace == [.done 0 0x01, .release 0] && t.guard == none && t.phase == .ready && t.pending == [none]) =
    true := by decide +kernel

/-- R80: a host does not write into a pending request's buffer. -/
theorem test_host_write : nextIs (step { serving .high 0x01 5 1 [] with inputs := [.hostWrite 511 0x77] })
      (fun t => t.mem == []) = true ∧
    nextIs (step { serving .high 0x01 5 1 [] with inputs := [.hostWrite 512 0x77] })
      (fun t => t.mem == [(512, 0x77)]) = true := by decide +kernel

/-- R303: in HALTED the core has no step, and no operation runs. -/
theorem test_halted : faultIs (step { hearing [] with phase := .halted }) .halted = true ∧
    faultIs (exec .filler { hearing [0xFF] with phase := .halted }) .halted = true := by decide +kernel

/-- R340: no operation runs while reset is asserted. -/
theorem test_in_reset : faultIs (exec .filler State.reset) .inReset = true := by decide +kernel

/-- R343: bring-up runs out of reset only. -/
theorem test_bringup_refused : refusedIs (exec .bringup (hearing [])) .bringupOnlyFromReset = true := by
  decide +kernel

/-- R29: the OCR is not read before it has a value. -/
theorem test_ocr_no_value : faultIs (tick { hearing [] with seq := [.bringup .capFromOcr] }) .ocrNoValue =
    true := by decide +kernel

/-! ### Reset meets the invariants -/

theorem test_reset_inv : State.reset.Inv := by decide

theorem test_reset_disciplined : State.reset.Disciplined := ⟨rfl, rfl, rfl, rfl⟩

theorem test_serving_inv : (serving .high 0x01 5 1 []).Inv := by decide

theorem test_serving_disciplined : (serving .high 0x01 5 1 []).Disciplined := ⟨rfl, rfl, rfl, rfl, rfl⟩

/-! ### Witnesses: a state and operands that meet each obligation's hypotheses -/

theorem witness_DecodeOfEncode : (Instr.cmd17 5).wf = true ∧ (Instr.crc7 [0, 0, 0, 0, 0]).wf = true := by decide

theorem witness_EncodeOfDecode : decodeIn .frame [0x51, 0x00, 0x00, 0x00, 0x05, 0x0F] = .ok (.cmd17 5) := by
  decide +kernel

theorem witness_ReservedEncodingsRefused :
    ((60 : CmdIndex) ∉ ([0, 8, 12, 16, 17, 18, 24, 25, 41, 55, 58, 59] : List CmdIndex)) ∧
    (0x00 : Byte) ≠ 0x01 ∧ (0x00 : Byte) ≠ 0x02 := by decide

theorem witness_Crc7IsRemainder : ∃ a b : List Byte, a.length = b.length ∧ a ≠ b := ⟨[0x80], [0x01], by decide⟩

theorem witness_Crc16IsRemainder : ∃ a b : List Byte, a.length = b.length ∧ a ≠ b := ⟨[0x80], [0x01], by decide⟩

theorem witness_BlockErrorsDetected :
    (∃ (m : List Byte) (i j : Nat), i < m.length ∧ m.length = blockBytes ∧ i = 511 ∧ j < 8) ∧
    ∃ m m' : List Byte, m.length = m'.length ∧
      (m.flatMap bitsMsbFirst).foldl xor false ≠ (m'.flatMap bitsMsbFirst).foldl xor false :=
  ⟨⟨List.replicate blockBytes 0, 511, 7, by rw [List.length_replicate]; decide, List.length_replicate, rfl, by decide⟩,
   [0x01], [0x00], rfl, by decide⟩

theorem witness_ChecksumUnitsRun : (hearing []).running := by decide

theorem witness_SendCommand : (hearing six).running ∧ six.length = 6 ∧ (hearing six).rx = six ++ [] := by decide

/-- The lead byte at the last read of the poll, and a poll that is exhausted (V4.7, V4.8). -/
theorem witness_LeadPoll :
    ((hearing (silence 7 ++ [0x00])).running ∧ (hearing (silence 7 ++ [0x00])).dp.poll = 0 ∧
      LeadArrives Config.defaults (.r1 0) (silence 7) 0x00 ∧
      (hearing (silence 7 ++ [0x00])).rx = silence 7 ++ [0x00] ++ []) ∧
    ((hearing (silence 8)).running ∧ (hearing (silence 8)).dp.poll = 0 ∧
      NoLead Config.defaults .r3 (silence 8) ∧ (hearing (silence 8)).rx = silence 8 ++ []) :=
  ⟨⟨by decide, rfl, ⟨by decide, by decide, by decide⟩, rfl⟩, by decide, rfl, ⟨by decide, rfl⟩, rfl⟩

/-- V4.6 (n = 4) and V4.3 (n = 0). -/
theorem witness_DecodeR1 :
    (LeadArrives Config.defaults (.r1 4) [] 0x00 ∧ ([0x11, 0x22, 0x33, 0x44] : List Byte).length = 4 ∧
      (hearing [0x00, 0x11, 0x22, 0x33, 0x44, 0xFF]).rx = [] ++ [0x00] ++ [0x11, 0x22, 0x33, 0x44] ++ [0xFF] ++ []) ∧
    (LeadArrives Config.defaults (.r1 0) [0xFF] 0x01 ∧ ([] : List Byte).length = 0 ∧
      (hearing [0xFF, 0x01, 0xFF]).rx = [0xFF] ++ [0x01] ++ [] ++ [0xFF] ++ []) ∧
    (NoLead Config.defaults (.r1 0) (silence 8) ∧ (hearing (silence 8)).rx = silence 8 ++ []) :=
  ⟨⟨⟨by decide, by decide, by decide⟩, rfl, rfl⟩, ⟨⟨by decide, by decide, by decide⟩, rfl, rfl⟩,
   ⟨by decide, rfl⟩, rfl⟩

/-- V4.10, and V4.12: 0x00 never ends an R3's poll. -/
theorem witness_DecodeR3 :
    (LeadArrives Config.defaults .r3 [0xFF] 0x01 ∧ (hearing [0xFF, 0x01, 0x40, 0xFF, 0x80, 0x00, 0xFF]).rx =
      [0xFF] ++ [0x01, 0x40, 0xFF, 0x80, 0x00, 0xFF] ++ []) ∧
    NoLead Config.defaults .r3 [0xFF, 0x00, 0xFF, 0xFF, 0xFF, 0xFF, 0xFF, 0xFF] :=
  ⟨⟨⟨by decide, by decide, by decide⟩, rfl⟩, by decide, rfl⟩

/-- V4.15. -/
theorem witness_DecodeR7 :
    (LeadArrives Config.defaults .r7 [] 0x01 ∧ (hearing [0x01, 0x12, 0x34, 0xF1, 0xAA, 0xFF]).rx =
      [] ++ [0x01, 0x12, 0x34, 0xF1, 0xAA, 0xFF] ++ []) ∧ NoLead Config.defaults .r7 (silence 8) :=
  ⟨⟨⟨by decide, by decide, by decide⟩, rfl⟩, by decide, rfl⟩

theorem witness_LeadRowsRun :
    (hearing [0xFF]).running ∧ LeadArrives Config.defaults (.r1 0) [] (r1LeadByte 0x3F) ∧
    LeadArrives Config.defaults .r7 [] (r1LeadByte 0x3F) ∧ LeadArrives Config.defaults .r3 [] (r3LeadByte 0x1F) :=
  ⟨by decide, ⟨by decide, by decide, by decide⟩, ⟨by decide, by decide, by decide⟩,
   by decide, by decide, by decide⟩

/-- An R1 answer fits any command that has an R1. -/
theorem r1Answer_fits (i : Instr) (lead : Byte) (hi : responseOf i = .r1 0) (hl : lead.toNat < 0x40) :
    (r1Answer lead).fits Config.defaults i := by
  refine ⟨rfl, ?_, by rw [hi]; rfl⟩
  rw [hi]
  refine ⟨(by decide : ∀ b ∈ ([0xFF] : List Byte), leadMatches Config.defaults (.r1 0) b = false), ?_,
    (by decide : 1 < 8)⟩
  change leadMatches Config.defaults (.r1 0) lead = true
  revert lead
  decide

/-- An R3 or R7 answer fits a command that has one. -/
theorem longAnswer_fits (i : Instr) (p : List Byte) (hi : responseOf i = .r3 ∨ responseOf i = .r7)
    (hp : p.length = 4) : (longAnswer p).fits Config.defaults i := by
  rcases hi with hi | hi
  · refine ⟨rfl, ?_, by rw [hi]; exact hp⟩
    rw [hi]
    exact (⟨by decide, by decide, by decide⟩ : LeadArrives Config.defaults .r3 [0xFF] 0x01)
  · refine ⟨rfl, ?_, by rw [hi]; exact hp⟩
    rw [hi]
    exact (⟨by decide, by decide, by decide⟩ : LeadArrives Config.defaults .r7 [0xFF] 0x01)

/-- The hypotheses of an answered command, and of a silent one. -/
theorem witness_Cmd0Runs : (hearing ((r1Answer 0x01).bytes ++ [])).running ∧
    (r1Answer 0x01).fits Config.defaults .cmd0 ∧
    NoLead Config.defaults (responseOf .cmd0) (silence 8) ∧
    (hearing (six ++ silence 8 ++ [])).rx = six ++ silence 8 ++ [] :=
  ⟨⟨by decide, by decide⟩, r1Answer_fits _ _ rfl (by decide), ⟨by decide, rfl⟩, rfl⟩

theorem witness_Cmd8Runs : (longAnswer [0x00, 0x00, 0x01, 0xAA]).fits Config.defaults .cmd8 ∧
    (longAnswer [0x00, 0x00, 0x01, 0xAA]).payload = [0x00, 0x00, 0x01, 0xAA] ∧
    (hearing (longAnswer [0x00, 0x00, 0x01, 0xAA]).bytes).running ∧
    NoLead Config.defaults (responseOf .cmd8) (silence 8) :=
  ⟨longAnswer_fits _ _ (.inr rfl) rfl, rfl, ⟨by decide, by decide⟩, by decide, rfl⟩

theorem witness_Cmd12Runs : (r1Answer 0x3F).fits Config.defaults .cmd12 ∧
    NoLead Config.defaults (responseOf .cmd12) (silence 8) :=
  ⟨r1Answer_fits _ _ rfl (by decide), by decide, rfl⟩

theorem witness_IdleOrReadyCommandsRun :
    (∀ i ∈ ([.cmd16, .cmd55, .cmd59] : List Instr), (r1Answer 0x01).fits Config.defaults i) ∧
    NoLead Config.defaults (responseOf .cmd59) (silence 8) := by
  refine ⟨fun i hi => ?_, by decide, rfl⟩
  simp only [List.mem_cons, List.not_mem_nil, or_false] at hi
  rcases hi with rfl | rfl | rfl <;> exact r1Answer_fits _ _ rfl (by decide)

theorem witness_DataCommandsRun (x : Word) :
    (∀ i ∈ ([.cmd17 x, .cmd18 x, .cmd24 x, .cmd25 x] : List Instr), (r1Answer 0x00).fits Config.defaults i) ∧
    NoLead Config.defaults (responseOf (.cmd25 x)) (silence 8) := by
  refine ⟨fun i hi => ?_, (⟨by decide, rfl⟩ : NoLead Config.defaults (.r1 0) (silence 8))⟩
  simp only [List.mem_cons, List.not_mem_nil, or_false] at hi
  rcases hi with rfl | rfl | rfl | rfl <;> exact r1Answer_fits _ _ rfl (by decide)

/-- CMD55 accepted at R1 0x01, refused at 0x02, and each frame with a silent card. -/
theorem witness_Acmd41Runs :
    (r1Answer 0x01).fits Config.defaults .cmd55 ∧ (r1Answer 0x01).accepted .cmd55 = true ∧
    (r1Answer 0x02).fits Config.defaults .cmd55 ∧ (r1Answer 0x02).accepted .cmd55 = false ∧
    (longAnswer [0x00, 0xFF, 0x80, 0x00]).fits Config.defaults .acmd41 ∧
    (longAnswer [0x00, 0xFF, 0x80, 0x00]).accepted .acmd41 = true ∧
    NoLead Config.defaults (.r1 0) (silence 8) ∧ NoLead Config.defaults .r3 (silence 8) :=
  ⟨r1Answer_fits _ _ rfl (by decide), by decide, r1Answer_fits _ _ rfl (by decide), by decide,
   longAnswer_fits _ _ (.inl rfl) rfl, by decide, ⟨by decide, rfl⟩, by decide, rfl⟩

theorem witness_Cmd58Runs : (longAnswer [0x40, 0xFF, 0x80, 0x00]).fits Config.defaults .cmd58 ∧
    (longAnswer [0x40, 0xFF, 0x80, 0x00]).payload = [0x40, 0xFF, 0x80, 0x00] ∧
    NoLead Config.defaults (responseOf .cmd58) (silence 8) :=
  ⟨longAnswer_fits _ _ (.inl rfl) rfl, rfl, by decide, rfl⟩

/-! Bring-up: the base script of V5 on a high-capacity card. -/

/-- One accepted attempt each. -/
def okCmd0 : List (Instr × Answer) := [(.cmd0, r1Answer 0x01)]
/-- One accepted attempt of CMD8. -/
def okCmd8 : List (Instr × Answer) := [(.cmd8, longAnswer [0x00, 0x00, 0x01, 0xAA])]
/-- A busy ACMD41 and a ready one (P1). -/
def okAcmd41 : List (Instr × Answer) :=
  [(.cmd55, r1Answer 0x01), (.acmd41, longAnswer [0x80, 0xFF, 0x80, 0x00])] ++
  [(.cmd55, r1Answer 0x01), (.acmd41, longAnswer [0x00, 0xFF, 0x80, 0x00])]
/-- One accepted attempt of CMD58, the capacity bit set. -/
def okCmd58 : List (Instr × Answer) := [(.cmd58, longAnswer [0x40, 0xFF, 0x80, 0x00])]

theorem okCmd0_step : StepScript .cmd0 okCmd0 := ⟨[], okCmd0, rfl, by decide, by simp, by decide⟩

theorem okCmd8_step : StepScript .cmd8 okCmd8 := ⟨[], okCmd8, rfl, by decide, by simp, by decide⟩

theorem okAcmd41_step : StepScript .acmd41 okAcmd41 :=
  ⟨[[(.cmd55, r1Answer 0x01), (.acmd41, longAnswer [0x80, 0xFF, 0x80, 0x00])]],
   [(.cmd55, r1Answer 0x01), (.acmd41, longAnswer [0x00, 0xFF, 0x80, 0x00])], rfl, by decide,
   by simp only [List.mem_singleton]; rintro f rfl; decide, by decide⟩

theorem okCmd58_step : StepScript .cmd58 okCmd58 := ⟨[], okCmd58, rfl, by decide, by simp, by decide⟩

/-- The whole script. -/
def okScript : List (Instr × Answer) :=
  okCmd0 ++ okCmd8 ++ [(.cmd59, r1Answer 0x01)] ++ okAcmd41 ++ okCmd58 ++ []

/-- It fits the default parameters. -/
theorem okScript_fits : scriptFits Config.defaults okScript := by
  intro p hp
  simp only [okScript, okCmd0, okCmd8, okAcmd41, okCmd58, List.mem_append, List.mem_cons, List.not_mem_nil, or_false,
    or_assoc] at hp
  rcases hp with rfl | rfl | rfl | rfl | rfl | rfl | rfl | rfl
  all_goals first
    | exact r1Answer_fits _ _ rfl (by decide)
    | exact longAnswer_fits _ _ (.inl rfl) rfl
    | exact longAnswer_fits _ _ (.inr rfl) rfl

/-- Ten busy ACMD41s exhaust their step (V5.12); one accepted CMD0 passes its own. -/
theorem witness_StepRetries :
    StepExhausted .acmd41 (List.replicate 10
      [(Instr.cmd55, r1Answer 0x01), (.acmd41, longAnswer [0x80, 0xFF, 0x80, 0x00])]).flatten ∧
    StepScript .cmd0 okCmd0 ∧ scriptFits Config.defaults okCmd0 := by
  refine ⟨⟨_, rfl, by decide, ?_⟩, okCmd0_step, ?_⟩
  · intro f hf
    rw [(List.mem_replicate.mp hf).2]
    decide
  · intro p hp
    rw [List.mem_singleton.mp hp]
    exact r1Answer_fits _ _ rfl (by decide)

theorem witness_BringupReachesReady : ∃ (s : State) (rest : List Byte),
    s.atBringupStart = true ∧ StepScript .cmd0 okCmd0 ∧ StepScript .cmd8 okCmd8 ∧ StepScript .acmd41 okAcmd41 ∧
    (s.cfg.ocrProbe = true → StepScript .cmd58 okCmd58 ∧
      ∃ p, okCmd58.getLast? = some p ∧ Capacity.high = if p.2.ocr[30] then .high else .standard) ∧
    (s.cfg.ocrProbe = true ∧ Capacity.high ≠ .standard) ∧
    scriptFits s.cfg (okCmd0 ++ okCmd8 ++ [(.cmd59, r1Answer 0x01)] ++ okAcmd41 ++ okCmd58 ++ []) ∧
    s.rx = scriptBytes (okCmd0 ++ okCmd8 ++ [(.cmd59, r1Answer 0x01)] ++ okAcmd41 ++ okCmd58 ++ []) ++ rest :=
  ⟨{ State.reset with rx := scriptBytes okScript ++ [] }, [],
    by decide, okCmd0_step, okCmd8_step, okAcmd41_step, fun _ => ⟨okCmd58_step, _, rfl, by decide⟩,
    ⟨rfl, by decide⟩, okScript_fits, rfl⟩

/-- One accepted attempt of CMD16. -/
def okCmd16 : List (Instr × Answer) := [(.cmd16, r1Answer 0x00)]

/-- The parameters of a build without the OCR probe. -/
def noProbe : Config := { Config.defaults with ocrProbe := false }

/-- A standard card with the OCR probe off, CMD16 accepted (P1c). -/
theorem witness_BringupReachesReady_standard : ∃ s : State,
    s.atBringupStart = true ∧ StepScript .cmd0 okCmd0 ∧ StepScript .cmd8 okCmd8 ∧ StepScript .acmd41 okAcmd41 ∧
    s.cfg.ocrProbe = false ∧ StepScript .cmd16 okCmd16 ∧
    scriptFits s.cfg (okCmd0 ++ okCmd8 ++ [(.cmd59, r1Answer 0x01)] ++ okAcmd41 ++ [] ++ okCmd16) ∧
    s.rx = scriptBytes (okCmd0 ++ okCmd8 ++ [(.cmd59, r1Answer 0x01)] ++ okAcmd41 ++ [] ++ okCmd16) ++ [] := by
  refine ⟨{ State.resetWith noProbe with
      rx := scriptBytes (okCmd0 ++ okCmd8 ++ [(.cmd59, r1Answer 0x01)] ++ okAcmd41 ++ [] ++ okCmd16) ++ [] },
    by decide, okCmd0_step, okCmd8_step, okAcmd41_step, rfl, ⟨[], okCmd16, rfl, by decide, by simp, by decide⟩, ?_, rfl⟩
  intro p hp
  rcases List.mem_append.mp hp with h | h
  · exact okScript_fits p (by simp only [okScript, List.mem_append] at h ⊢; tauto)
  · have hp16 : p = (.cmd16, r1Answer 0x00) := List.mem_singleton.mp h
    have hf : (r1Answer 0x00).fits Config.defaults .cmd16 := r1Answer_fits _ _ rfl (by decide)
    rw [hp16]
    exact hf

theorem witness_SilentCmd59Halts : ∃ (s : State) (ins pre rest : List Byte),
    s.atBringupStart = true ∧ StepScript .cmd0 okCmd0 ∧ StepScript .cmd8 okCmd8 ∧
    scriptFits s.cfg (okCmd0 ++ okCmd8) ∧ ins.length = 6 ∧ NoLead s.cfg (.r1 0) pre ∧
    s.rx = scriptBytes (okCmd0 ++ okCmd8) ++ ins ++ pre ++ rest :=
  ⟨{ State.reset with rx := scriptBytes (okCmd0 ++ okCmd8) ++ six ++ silence 8 ++ [] }, six, silence 8, [],
    by decide, okCmd0_step, okCmd8_step,
    fun p hp => okScript_fits p (by simp only [okScript, List.mem_append] at hp ⊢; tauto), rfl, ⟨by decide, rfl⟩, rfl⟩

/-- Two bring-ups after different histories, against the same silent card. -/
theorem witness_BringupDependsOnAnswersOnly : (hearing [0x12]).cfg = State.reset.cfg ∧
    nextIs (exec .bringup { (hearing [0x12]).assertReset with rx := six ++ silence 8 }) (fun t =>
      t.phase == .halted) = true := by decide +kernel

theorem witness_SessionImmutable : (serving .high 0x01 5 1 []).Disciplined ∧
    (serving .high 0x01 5 1 []).phase ≠ .reset ∧ (serving .high 0x01 5 1 []).phase ≠ .bringup ∧
    nextIs (step (serving .high 0x01 5 1 [])) (fun t => t.phase != .reset) = true :=
  ⟨test_serving_disciplined, by decide, by decide, by decide +kernel⟩

/-- The token at the last read of the poll, and the poll exhausted. -/
theorem witness_TokenPoll :
    ((∀ b ∈ silence 19, b ≠ 0xFE) ∧ (silence 19).length < Config.defaults.tokenPollMax ∧
      (hearing (silence 19 ++ [0xFE])).rx = silence 19 ++ [0xFE] ++ []) ∧
    ((∀ b ∈ silence 20, b ≠ 0xFE) ∧ (silence 20).length = Config.defaults.tokenPollMax) :=
  ⟨⟨by decide, by decide, rfl⟩, by decide, rfl⟩

/-- CRC16 of zeros is zero (V2.2). -/
theorem crc16_zeros (n : Nat) : crc16 (List.replicate n 0x00) = 0 := by
  induction n with
  | zero => rfl
  | succ n ih =>
    have h : crc16Byte 0#16 0x00 = 0#16 := by decide
    rw [List.replicate_succ, crc16, List.foldl_cons, h]
    exact ih

/-- The last sector of a two-sector buffer. -/
theorem witness_ReadDataBlock : ∃ (s : State) (payload : List Byte), s.running ∧ s.mem.wf ∧
    payload.length = blockBytes ∧ s.dp.k = 1 ∧ blockBytes * s.dp.k.toNat + blockBytes ≤ s.req.buf.len ∧
    s.rx = payload ++ [0x00, 0x00] ++ [] :=
  ⟨{ serving .high 0x01 0 2 (zeroBlock.payload ++ [0x00, 0x00] ++ []) with
      dp := { Datapath.reset with k := 1 } }, zeroBlock.payload,
    ⟨by simp [serving, hearing], by simp [serving, hearing]⟩, by decide, List.length_replicate, rfl, by decide, rfl⟩

theorem witness_WriteTokenRowsRun : ∃ (s : State) (ins : List Byte), s.running ∧ ins.length = blockBytes + 3 ∧
    blockBytes ≤ s.req.buf.len ∧ blockBytes * s.dp.k.toNat + blockBytes ≤ s.req.buf.len ∧ s.rx = ins ++ [] :=
  ⟨serving .high 0x02 0 1 (written.ins ++ []), written.ins,
    ⟨by simp [serving, hearing], by simp [serving, hearing]⟩, List.length_replicate, by decide, by decide, rfl⟩

/-- The response at the last read (V6's judgement of 0xE5 and 0x0B), and none at all. -/
theorem witness_DataResponsePoll : 9 < Config.defaults.drespPollMax ∧ (0xE5 : Byte) ≠ 0xFF ∧
    (0xE5 : Byte).extractLsb' 0 4 = 0b0101#4 ∧ (0x0B : Byte) ≠ 0xFF ∧ (0x0B : Byte).extractLsb' 0 4 ≠ 0b0101#4 ∧
    (hearing (List.replicate 9 0xFF ++ [0xE5])).rx = List.replicate 9 0xFF ++ [0xE5] ++ [] ∧
    (hearing (silence 10)).rx = List.replicate Config.defaults.drespPollMax 0xFF ++ [] := by decide

/-- V6.13 and V6.14: a bound of 4 is enough for three busy bytes, a bound of 3 is not; and a wait without bound. -/
theorem witness_BusyWait :
    BusyEnds { Config.defaults with busyPollMax := some 4 } [0x00, 0x00, 0x00] ∧
    ((∀ b ∈ ([0x00, 0x00, 0x00] : List Byte), b ≠ 0xFF) ∧
      ({ Config.defaults with busyPollMax := some 3 }).busyPollMax = some ([0x00, 0x00, 0x00] : List Byte).length) ∧
    ((∀ b ∈ (hearing [0x00, 0x00]).rx, b ≠ 0xFF) ∧ (hearing [0x00, 0x00]).cfg.busyPollMax = none) :=
  ⟨⟨by decide, by intro m hm; cases hm; decide⟩, ⟨by decide, rfl⟩, by decide, rfl⟩

theorem witness_OneByteRowsRun : (hearing [0x5A]).running ∧ 1 ≤ (hearing [0x5A]).cfg.tokenPollMax ∧
    1 ≤ (hearing [0x5A]).cfg.drespPollMax ∧ (hearing [0x5A]).cfg.busyPollMax = none ∧
    (hearing [0x5A]).rx = 0x5A :: [] := by decide

/-! Transfers. -/

/-- A granted request of few enough sectors' address is being served (R261, R263). -/
theorem serving_serves (cap : Capacity) {op : Byte} {sector : Word} (count : Word) (bytes : List Byte)
    (hop : op = opRead ∨ op = opWrite) (hs : sector.toNat < 2 ^ 23) :
    (serving cap op sector count bytes).Serving op sector count := by
  refine ⟨⟨by simp [serving, hearing], by simp [serving, hearing]⟩, ⟨rfl, rfl, rfl, rfl⟩, ?_⟩
  have ha : addrExact Config.defaults cap sector < 2 ^ 32 := by
    unfold addrExact blockBytes
    split <;> omega
  simpa [State.admits, Request.wf, Request.opOk, Request.lengthOk, serving, hearing, blockBytes] using ⟨hop, decide_eq_true ha⟩

theorem zeroBlock_fits : zeroBlock.fits Config.defaults ∧ zeroBlock.good :=
  ⟨⟨by decide, by decide, List.length_replicate⟩, crc16_zeros _⟩

theorem badZeroBlock_fails : badZeroBlock.fits Config.defaults ∧ ¬ badZeroBlock.good := by
  refine ⟨⟨by decide, by decide, List.length_replicate⟩, fun h => ?_⟩
  rw [DataBlock.good, show badZeroBlock.payload = List.replicate blockBytes 0x00 from rfl, crc16_zeros] at h
  exact absurd h (by decide)

theorem noToken_silence : NoToken Config.defaults (silence 20) := ⟨by decide, rfl⟩

theorem written_fits : written.fits Config.defaults :=
  ⟨List.length_replicate, by decide, by decide, by decide, by decide, by intro m hm; cases hm⟩

/-- A failed attempt of each kind (V6.4). -/
theorem tries_fail : TriesFail Config.defaults 5
    [(r1Answer 0x00, .noToken (silence 20)), (r1Answer 0x00, .badBlock badZeroBlock)] := by
  intro p hp
  simp only [List.mem_cons, List.not_mem_nil, or_false] at hp
  rcases hp with rfl | rfl
  · exact ⟨r1Answer_fits _ _ rfl (by decide), by decide, noToken_silence⟩
  · exact ⟨r1Answer_fits _ _ rfl (by decide), by decide, badZeroBlock_fails⟩

/-- V6.4: a token timeout, a bad block, then a good one. -/
theorem witness_SingleReadSucceeds : ∃ (s : State) (tries : List (Answer × ReadFailure)) (cmd : Answer)
    (b : DataBlock), s.Serving opRead 5 1 ∧ s.mem.wf ∧ (5 : Word) = cardAddr s.cfg s.cap 5 ∧
    tries.length < sreadAttempts ∧ TriesFail s.cfg 5 tries ∧ cmd.fits s.cfg (.cmd17 5) ∧
    cmd.accepted (.cmd17 5) = true ∧ b.fits s.cfg ∧ b.good ∧
    s.rx = tryBytes tries ++ cmd.bytes ++ b.bytes ++ [] :=
  ⟨serving .high 0x01 5 1 (tryBytes [(r1Answer 0x00, .noToken (silence 20)), (r1Answer 0x00, .badBlock badZeroBlock)]
      ++ (r1Answer 0x00).bytes ++ zeroBlock.bytes ++ []), _, r1Answer 0x00, zeroBlock,
    serving_serves _ _ _ (by decide) (by decide), by decide, by decide, by decide, tries_fail, r1Answer_fits _ _ rfl (by decide),
    by decide, zeroBlock_fits.1, zeroBlock_fits.2, rfl⟩

/-- V6.6: five attempts without a token; V6.2: a rejected CMD17 at the first attempt. -/
theorem witness_SingleReadHalts :
    (∃ (s : State) (tries : List (Answer × ReadFailure)) (last : Answer × ReadFailure),
      s.Serving opRead 5 1 ∧ s.mem.wf ∧ (5 : Word) = cardAddr s.cfg s.cap 5 ∧ tries.length = 4 ∧
      TriesFail s.cfg 5 (tries ++ [last]) ∧ s.rx = tryBytes (tries ++ [last]) ++ []) ∧
    ∃ (s : State) (cmd : Answer), s.Serving opRead 5 1 ∧ s.mem.wf ∧ (5 : Word) = cardAddr s.cfg s.cap 5 ∧
      TriesFail s.cfg 5 [] ∧ cmd.fits s.cfg (.cmd17 5) ∧ cmd.accepted (.cmd17 5) = false ∧
      s.rx = tryBytes [] ++ cmd.bytes ++ [] := by
  refine ⟨⟨serving .high 0x01 5 1 (tryBytes (List.replicate 4 (r1Answer 0x00, .noToken (silence 20)) ++
      [(r1Answer 0x00, .noToken (silence 20))]) ++ []), List.replicate 4 (r1Answer 0x00, .noToken (silence 20)),
      (r1Answer 0x00, .noToken (silence 20)), serving_serves _ _ _ (by decide) (by decide), by decide, by decide, by decide, ?_, rfl⟩,
    serving .high 0x01 5 1 ((r1Answer 0x04).bytes ++ []), r1Answer 0x04, serving_serves _ _ _ (by decide) (by decide), by decide,
    by decide, fun p hp => by simp at hp, r1Answer_fits _ _ rfl (by decide), by decide, rfl⟩
  intro p hp
  have : p = (r1Answer 0x00, .noToken (silence 20)) := by
    rcases List.mem_append.mp hp with h | h
    · exact (List.mem_replicate.mp h).2
    · exact List.mem_singleton.mp h
  rw [this]
  exact ⟨r1Answer_fits _ _ rfl (by decide), by decide, noToken_silence⟩

/-- Two sectors, and none (V6.18). -/
theorem witness_MultiReadSucceeds :
    (∃ (s : State) (cmd stop : Answer) (blocks : List (DataBlock × Byte)), s.Serving opRead 5 2 ∧ s.mem.wf ∧
      (5 : Word) = cardAddr s.cfg s.cap 5 ∧ (2 : Word) ≠ 1 ∧ (2 : Word).toNat = blocks.length ∧
      cmd.fits s.cfg (.cmd18 5) ∧ cmd.accepted (.cmd18 5) = true ∧ (∀ p ∈ blocks, p.1.fits s.cfg ∧ p.1.good) ∧
      stop.fits s.cfg .cmd12 ∧ BusyEnds s.cfg [0x00] ∧
      s.rx = cmd.bytes ++ [0xFF] ++ sectorBytes blocks ++ stop.bytes ++ busyBytes [0x00] ++ []) ∧
    (serving .high 0x01 0 0 []).Serving opRead 0 0 ∧ (0 : Word) ≠ 1 ∧
      (0 : Word).toNat = ([] : List (DataBlock × Byte)).length := by
  refine ⟨⟨serving .high 0x01 5 2 ((r1Answer 0x00).bytes ++ [0xFF] ++
      sectorBytes [(zeroBlock, 0xFF), (zeroBlock, 0xFF)] ++ (r1Answer 0x00).bytes ++ busyBytes [0x00] ++ []),
      r1Answer 0x00, r1Answer 0x00, [(zeroBlock, 0xFF), (zeroBlock, 0xFF)], serving_serves _ _ _ (by decide) (by decide), by decide,
      by decide, by decide, by decide, r1Answer_fits _ _ rfl (by decide), by decide, ?_,
      r1Answer_fits _ _ rfl (by decide), ⟨by decide, by intro m hm; cases hm⟩, rfl⟩,
    serving_serves _ _ _ (by decide) (by decide), by decide, rfl⟩
  intro p hp
  simp only [List.mem_cons, List.not_mem_nil, or_false, or_self] at hp
  rw [hp]
  exact zeroBlock_fits

/-- A rejected CMD18 (V6.17); no token at sector 0 (V6.15); a bad block at sector 1 (P4). -/
theorem witness_MultiReadHalts :
    (serving .high 0x01 5 2 []).Serving opRead 5 2 ∧ (r1Answer 0x04).fits Config.defaults (.cmd18 5) ∧
    (r1Answer 0x04).accepted (.cmd18 5) = false ∧ (r1Answer 0x00).fits Config.defaults (.cmd18 5) ∧
    (r1Answer 0x00).accepted (.cmd18 5) = true ∧ ([] : List (DataBlock × Byte)).length < (2 : Word).toNat ∧
    [(zeroBlock, (0xFF : Byte))].length < (2 : Word).toNat ∧ NoToken Config.defaults (silence 20) ∧
    zeroBlock.fits Config.defaults ∧ zeroBlock.good ∧ badZeroBlock.fits Config.defaults ∧ ¬ badZeroBlock.good :=
  ⟨serving_serves _ _ _ (by decide) (by decide), r1Answer_fits _ _ rfl (by decide), by decide, r1Answer_fits _ _ rfl (by decide),
   by decide, by decide, by decide, noToken_silence, zeroBlock_fits.1, zeroBlock_fits.2, badZeroBlock_fails.1,
   badZeroBlock_fails.2⟩

/-- V6.8: two rejected CMD24s, then an accepted one; a standard-capacity card, so the address is 3 · 512. -/
theorem witness_SingleWriteSucceeds : ∃ (s : State) (fails : List Answer) (cmd : Answer) (w : WrittenBlock),
    s.Serving opWrite 3 1 ∧ (0x600 : Word) = cardAddr s.cfg s.cap 3 ∧ fails.length < s.cfg.swriteCmdAttempts ∧
    (∀ f ∈ fails, f.fits s.cfg (.cmd24 0x600) ∧ f.accepted (.cmd24 0x600) = false) ∧
    cmd.fits s.cfg (.cmd24 0x600) ∧ cmd.accepted (.cmd24 0x600) = true ∧ w.fits s.cfg ∧
    s.rx = fails.flatMap Answer.bytes ++ cmd.bytes ++ w.bytes ++ [] :=
  ⟨serving .standard 0x02 3 1 ([r1Answer 0x04, r1Answer 0x04].flatMap Answer.bytes ++ (r1Answer 0x00).bytes ++
      written.bytes ++ []), [r1Answer 0x04, r1Answer 0x04], r1Answer 0x00, written, serving_serves _ _ _ (by decide) (by decide),
    by decide, by decide, fun f hf => by
      simp only [List.mem_cons, List.not_mem_nil, or_false, or_self] at hf
      rw [hf]
      exact ⟨r1Answer_fits _ _ rfl (by decide), by decide⟩,
    r1Answer_fits _ _ rfl (by decide), by decide, written_fits, rfl⟩

/-- V6.9: ten rejected CMD24s; V6.10: the data response 0x0B. -/
theorem witness_SingleWriteHalts :
    (∃ (s : State) (fails : List Answer), s.Serving opWrite 3 1 ∧ (0x600 : Word) = cardAddr s.cfg s.cap 3 ∧
      1 ≤ s.cfg.swriteCmdAttempts ∧ fails.length = s.cfg.swriteCmdAttempts ∧
      (∀ f ∈ fails, f.fits s.cfg (.cmd24 0x600) ∧ f.accepted (.cmd24 0x600) = false) ∧
      s.rx = fails.flatMap Answer.bytes ++ []) ∧
    ∃ (s : State) (cmd : Answer) (ins : List Byte), s.Serving opWrite 3 1 ∧ cmd.fits s.cfg (.cmd24 0x600) ∧
      cmd.accepted (.cmd24 0x600) = true ∧ ins.length = blockBytes + 3 ∧ 1 < s.cfg.drespPollMax ∧
      (0x0B : Byte) ≠ 0xFF ∧ (0x0B : Byte).extractLsb' 0 4 ≠ 0b0101#4 ∧
      s.rx = cmd.bytes ++ ins ++ List.replicate 1 0xFF ++ [0x0B] ++ [] :=
  ⟨⟨serving .standard 0x02 3 1 ((List.replicate 10 (r1Answer 0x04)).flatMap Answer.bytes ++ []),
      List.replicate 10 (r1Answer 0x04), serving_serves _ _ _ (by decide) (by decide), by decide, by decide, rfl, fun f hf => by
        rw [(List.mem_replicate.mp hf).2]
        exact ⟨r1Answer_fits _ _ rfl (by decide), by decide⟩, rfl⟩,
    serving .standard 0x02 3 1 ((r1Answer 0x00).bytes ++ written.ins ++ List.replicate 1 0xFF ++ [0x0B] ++ []),
    r1Answer 0x00, written.ins, serving_serves _ _ _ (by decide) (by decide), r1Answer_fits _ _ rfl (by decide), by decide,
    List.length_replicate, by decide, by decide, by decide, rfl⟩

/-- Two sectors, and none (V6.19). -/
theorem witness_MultiWriteSucceeds :
    (∃ (s : State) (cmd : Answer) (blocks : List WrittenBlock), s.Serving opWrite 3 2 ∧
      (3 : Word) = cardAddr s.cfg s.cap 3 ∧ (2 : Word) ≠ 1 ∧ (2 : Word).toNat = blocks.length ∧
      cmd.fits s.cfg (.cmd25 3) ∧ cmd.accepted (.cmd25 3) = true ∧ (∀ w ∈ blocks, w.fits s.cfg) ∧
      BusyEnds s.cfg [] ∧ s.rx = cmd.bytes ++ [0xFF] ++ blocks.flatMap WrittenBlock.bytes ++ [0xFF] ++
        busyBytes [] ++ []) ∧
    (serving .high 0x02 0 0 []).Serving opWrite 0 0 ∧ (0 : Word).toNat = ([] : List WrittenBlock).length :=
  ⟨⟨serving .high 0x02 3 2 ((r1Answer 0x00).bytes ++ [0xFF] ++ [written, written].flatMap WrittenBlock.bytes ++
      [0xFF] ++ busyBytes [] ++ []), r1Answer 0x00, [written, written], serving_serves _ _ _ (by decide) (by decide), by decide,
      by decide, by decide, r1Answer_fits _ _ rfl (by decide), by decide, fun w hw => by
        simp only [List.mem_cons, List.not_mem_nil, or_false, or_self] at hw
        rw [hw]
        exact written_fits,
      ⟨by decide, by intro m hm; cases hm⟩, rfl⟩,
    serving_serves _ _ _ (by decide) (by decide), rfl⟩

/-- V6.21 and V6.20: a rejected CMD25, and a rejected second sector. -/
theorem witness_MultiWriteHalts :
    (serving .high 0x02 3 2 []).Serving opWrite 3 2 ∧ (r1Answer 0x04).fits Config.defaults (.cmd25 3) ∧
    (r1Answer 0x04).accepted (.cmd25 3) = false ∧ (r1Answer 0x00).fits Config.defaults (.cmd25 3) ∧
    (r1Answer 0x00).accepted (.cmd25 3) = true ∧ [written].length < (2 : Word).toNat ∧
    written.fits Config.defaults ∧ written.ins.length = blockBytes + 3 ∧ 0 < Config.defaults.drespPollMax ∧
    (0x0D : Byte) ≠ 0xFF ∧ (0x0D : Byte).extractLsb' 0 4 ≠ 0b0101#4 :=
  ⟨serving_serves _ _ _ (by decide) (by decide), r1Answer_fits _ _ rfl (by decide), by decide, r1Answer_fits _ _ rfl (by decide),
   by decide, by decide, written_fits, List.length_replicate, by decide, by decide, by decide⟩

/-! Façade, faults and steps. -/

/-- The request of V3.4, admitted; V3.5 refused for its address; the wrong op and the wrong length (V3.10); a host with
a request pending; a host that does not exist. -/
theorem witness_SubmitStep :
    (0 < (hearing []).pending.length ∧ (hearing []).pendingOf 0 = none ∧ ((0x01 : Byte) = 0x01 ∨ (0x01 : Byte) = 0x02) ∧
      512 = 512 * (1 : Word).toNat ∧
      (if (hearing []).cap = .standard ∧ (hearing []).cfg.scaleStandard = true then (0x007FFFFF : Word).toNat * 512
        else (0x007FFFFF : Word).toNat) < 2 ^ 32) ∧
    ¬ ((if (hearing []).cap = .standard ∧ (hearing []).cfg.scaleStandard = true then (0x00800000 : Word).toNat * 512
        else (0x00800000 : Word).toNat) < 2 ^ 32) ∧
    ¬ ((0x03 : Byte) = 0x01 ∨ (0x03 : Byte) = 0x02) ∧ ¬ 511 = 512 * (1 : Word).toNat ∧
    (serving .high 0x01 5 1 []).pendingOf 0 ≠ none ∧ ¬ 1 < (hearing []).pending.length := by decide

theorem witness_GrantStep : ∃ s : State, s.phase = .ready ∧ s.guard = none ∧ s.seq = [] ∧ s.inputs = [] ∧
    s.opWord = none ∧ (s.pendingOf 0).isSome = true :=
  ⟨{ hearing [] with pending := [some ⟨0x01, 5, 1, ⟨0, 512⟩⟩] }, by decide⟩

theorem witness_GrantStep_idle : (hearing []).phase = .ready ∧ (hearing []).guard = none ∧
    ∀ h, (hearing []).pendingOf h = none := by
  refine ⟨rfl, rfl, fun h => ?_⟩
  match h with
  | 0 => rfl
  | h + 1 => rfl

theorem witness_ServeDispatches : ∃ s : State, s.running ∧ s.inputs = [] ∧ s.opWord = none ∧
    s.seq = .host .serve :: [.host .release] :=
  ⟨(serving .high 0x01 5 1 []).push [.host .serve], by decide⟩

theorem witness_ReleaseStep : (serving .high 0x01 5 1 []).running ∧ (serving .high 0x01 5 1 []).inputs = [] ∧
    (serving .high 0x01 5 1 []).opWord = none ∧ (serving .high 0x01 5 1 []).seq = .host .release :: [] := by decide

/-- A served READ of no sectors that returns (V6.18). -/
theorem witness_ServedRequestIsReleased : ∃ s : State, s.phase = .busy ∧ s.seq = [.host .release] ∧
    nextIs (s.perform [.host .serve]) (fun t => t.phase == .busy && t.seq == [.host .release]) = true :=
  ⟨serving .high 0x01 0 0 (six ++ [0xFF, 0x00, 0xFF] ++ [0xFF] ++ six ++ [0xFF, 0x00, 0xFF] ++ [0xFF]),
   rfl, rfl, by decide +kernel⟩

/-- A grant, and an exchange while the guard is held. -/
theorem witness_GuardExclusive :
    nextIs (step { hearing [] with pending := [some ⟨0x01, 5, 1, ⟨0, 512⟩⟩] }) (fun t => t.trace == [.grant 0]) =
      true ∧
    ((serving .high 0x01 5 1 [0xFF]).push [.block .filler]).Disciplined ∧
    nextIs (step ((serving .high 0x01 5 1 [0xFF]).push [.block .filler])) (fun t =>
      t.trace == [.xchg 0xFF 0xFF]) = true :=
  ⟨by decide +kernel, ⟨rfl, rfl, rfl, rfl, rfl⟩, by decide +kernel⟩

/-- The first address beyond 2^32 (V3.5), with the guard free and of the granted request; a granted request of another
length. -/
theorem witness_UnservableRefused :
    2 ^ 32 ≤ addrExact (hearing []).cfg (hearing []).cap 0x00800000 ∧ ¬ (hearing []).isGranted 0x01 0x00800000 1 ∧
    2 ^ 32 ≤ addrExact Config.defaults (serving .standard 0x01 0x00800000 1 []).cap 0x00800000 ∧
    (serving .standard 0x01 0x00800000 1 []).isGranted 0x01 0x00800000 1 ∧
    ∃ s : State, s.isGranted 0x02 5 2 ∧ s.req.buf.len ≠ 512 * (2 : Word).toNat :=
  ⟨by decide, by decide, by decide, by decide, { hearing [] with
    guard := some 0, req := { host := 0, op := 0x02, sector := 5, count := 2, buf := ⟨0, 512⟩, addr := 5 } }, by decide⟩

/-- The block reader's byte changes the buffer's first byte, and a host writes beside it. -/
theorem witness_MemoryIsolation :
    (((serving .high 0x01 5 1 []).setDp fun d => { d with data := 0x77 }).push [.block .storeByte]).Disciplined ∧
    nextIs (tick (((serving .high 0x01 5 1 []).setDp fun d => { d with data := 0x77 }).push [.block .storeByte]))
      (fun t => t.mem == [(0, 0x77)]) = true ∧
    (serving .high 0x01 5 1 []).inPendingBuffer 511 = true ∧
    (serving .high 0x01 5 1 []).inPendingBuffer 512 = false :=
  ⟨⟨rfl, rfl, rfl, rfl, rfl⟩, by decide +kernel, by decide, by decide⟩

theorem witness_RaiseFatal : ∃ s : State, s.running ∧ s.inputs = [] ∧ s.opWord = none ∧
    s.seq = .halt (.raise { code := .busyTimeout }) :: [] :=
  ⟨(hearing []).push [.halt (.raise { code := .busyTimeout })], by decide⟩

/-- V7.6: the one word with an effect in HALTED is a host's request, with the guard free, and with the guard left held
by the halt (R316) where another host submits. -/
theorem witness_HaltedIsSticky : ({ hearing [] with phase := .halted } : State).phase = .halted ∧
    nextIs (exec (.readReq 5 1) { hearing [] with phase := .halted }) (fun t =>
      (t.pendingOf 0).isSome && t.phase == .halted && t.trace == []) = true ∧
    nextIs (exec (.readReq 5 1) { serving .high 0x01 5 1 [] with
        phase := .halted, pending := [none, none], port := ⟨1, 0⟩ }) (fun t =>
      (t.pendingOf 1).isSome && t.phase == .halted && t.guard == some 0) = true :=
  ⟨rfl, by decide +kernel, by decide +kernel⟩

theorem witness_ResetState : ∃ s : State, s.inputs = .assertReset :: [] ∧ s.phase = .halted ∧
    nextIs (step s) (fun t => t.phase == .reset && t.fault == none) = true :=
  ⟨{ hearing [] with phase := .halted, inputs := [.assertReset] }, rfl, rfl, by decide +kernel⟩

theorem witness_StepKeepsInv : (serving .high 0x01 5 1 []).Inv ∧
    nextIs (step (serving .high 0x01 5 1 [])) (fun t => t.phase == .ready) = true :=
  ⟨test_serving_inv, by decide +kernel⟩

theorem witness_StepKeepsDisciplined : (serving .high 0x01 5 1 []).Disciplined ∧
    nextIs (step (serving .high 0x01 5 1 [])) (fun t => t.guard == none) = true :=
  ⟨test_serving_disciplined, by decide +kernel⟩

/-- A step that exchanges, one that changes the mode, and one that waits for a byte. -/
theorem witness_OneExchangePerStep :
    nextIs (tick ((hearing [0x01]).push [.block .filler])) (fun t => t.trace == [.xchg 0xFF 0x01]) = true ∧
    nextIs (tick ((hearing []).push [.block .hold])) (fun t => t.trace == [.setcs .hold]) = true ∧
    nextIs (tick ((hearing []).push [.block .filler])) (fun t => t.trace == []) = true := by decide +kernel

theorem witness_UnitIsARunOfSteps :
    nextIs ((hearing [0x01]).perform [.block .filler]) (fun t => t.rx == []) = true := by decide +kernel

theorem witness_StepRunsDecoded :
    (∃ s : State, s.running ∧ s.inputs = [] ∧ s.opWord = some ⟨.tokenPoll, [0xFE]⟩ ∧
      decodeIn .tokenPoll [0xFE] = .ok .startTokenRead) ∧
    decodeIn .tokenPoll [0x00] = .error .otherByte ∧ decodeTableWord 48 0x400000000095 = some .cmd0 :=
  ⟨⟨{ hearing [] with opWord := some ⟨.tokenPoll, [0xFE]⟩ }, by decide⟩, by decide, by decide +kernel⟩

/-- V7.1: a request word in bring-up waits. V6.18: READ(0, 0) in READY is granted, served and released. A host with a
request pending is blocked, the one that holds the guard for another request too. A second host waits while the guard is
held. A host that does not exist submits nothing. -/
theorem witness_RequestWordSubmits :
    nextIs (exec (.readReq 5 1) { hearing [] with phase := .bringup }) (fun t =>
      t.pending == [some ⟨0x01, 5, 1, ⟨0, 512⟩⟩] && t.trace == []) = true ∧
    nextIs (exec (.readReq 0 0) { hearing (six ++ [0xFF, 0x00, 0xFF] ++ [0xFF] ++ six ++ [0xFF, 0x00, 0xFF] ++ [0xFF])
      with cap := .high }) (fun t => t.phase == .ready && t.guard == none && t.pending == [none] && t.seq == [] &&
      t.trace.take 2 == [.done 0 0x01, .release 0] && t.trace.getLast? == some (.grant 0) &&
      t.trace.length == 29) = true ∧
    nextIs (exec (.writeReq 0 0) { hearing [] with pending := [some ⟨0x01, 5, 1, ⟨0, 512⟩⟩] }) (fun t =>
      t.pending == [some ⟨0x01, 5, 1, ⟨0, 512⟩⟩] && t.trace == []) = true ∧
    nextIs (exec (.readReq 6 1) (serving .high 0x01 5 1 [])) (fun t =>
      t.pending == [some ⟨0x01, 5, 1, ⟨0, 512⟩⟩] && t.req.sector == 5 && t.seq == [.host .release]) = true ∧
    nextIs (exec (.writeReq 6 1) { serving .high 0x01 5 1 [] with
        pending := [some ⟨0x01, 5, 1, ⟨0, 512⟩⟩, none], port := ⟨1, 512⟩ }) (fun t =>
      t.pendingOf 1 == some ⟨0x02, 6, 1, ⟨512, 512⟩⟩ && t.guard == some 0 && t.req.sector == 5) = true ∧
    nextIs (exec (.readReq 5 1) { hearing [] with port := ⟨1, 0⟩ }) (fun t => t.pending == [none]) = true ∧
    ¬ (hearing []).isGranted 0x01 5 1 ∧ addrExact (hearing []).cfg (hearing []).cap 5 < 2 ^ 32 ∧
    (hearing []).port.host < (hearing []).pending.length ∧ (∀ g, (hearing []).pendingOf g = none) := by
  refine ⟨by decide +kernel, by decide +kernel, by decide +kernel, by decide +kernel, by decide +kernel,
    by decide +kernel, by decide, by decide, by decide, fun g => ?_⟩
  match g with
  | 0 => rfl
  | g + 1 => rfl

end Sys2Proof.Tests
end

/-!
PROOF. The scope's two statements (spec/00_scope.md): a unit is a run of single steps, and how a step takes a placed
operation word.
-/

namespace Sys2Proof.Machine

/-! ### A unit as a run of single steps -/

/-- A single step, then `n` more. -/
theorem ticks_succ {s s' : State} (h : tick s = .next s') (n : Nat) : ticks (n + 1) s = ticks n s' := by
  simp only [ticks, h]

/-- The steps a unit makes, whatever its fuel, are steps of the core. -/
theorem exists_ticks_of_runUnit {fuel depth : Nat} {s t : State} (h : runUnit fuel depth s = .next t) :
    ∃ n, ticks n s = .next t := by
  induction fuel generalizing s with
  | zero => exact ⟨0, h⟩
  | succ fuel ih =>
    unfold runUnit at h
    split at h
    · exact ⟨0, h⟩
    · split at h
      · next s' hs =>
        obtain ⟨n, hn⟩ := ih h
        exact ⟨n + 1, (ticks_succ hs n).trans hn⟩
      · cases h
      · cases h

/-- A procedure that answers a next state has run as a unit: in HALTED and in RESET it is a fault (R303, R340). -/
theorem runUnit_of_perform {s t : State} {ls : List Line} (h : s.perform ls = .next t) :
    runUnit (unitFuel s) s.seq.length (s.push ls) = .next t := by
  unfold State.perform at h
  split at h
  · cases h
  · cases h
  all_goals exact h

/-! ### A turn of the core -/

/-- With nothing scheduled the step is the core's turn. -/
theorem step_of_no_inputs {s : State} (h : s.inputs = []) : step s = s.coreTurn := by
  simp only [step, State.turn, h]

/-- With no word placed the core's turn is the sequencer's step, in every phase. -/
theorem coreTurn_of_no_word {s : State} (h : s.opWord = none) : s.coreTurn = tick s := by
  unfold State.coreTurn
  rw [h]
  cases s.phase <;> rfl

/-- In a running state a placed word that decodes is performed with the word taken off. -/
theorem coreTurn_of_decoded {s : State} {w : OpWord} {i : Instr} (hr : s.running) (hw : s.opWord = some w)
    (hd : decodeIn w.ctx w.bytes = .ok i) : s.coreTurn = exec i { s with opWord := none } := by
  obtain ⟨hreset, hhalted⟩ := hr
  unfold State.coreTurn
  rw [hw]
  cases hp : s.phase
  case reset | halted => contradiction
  all_goals simp only [hd]

/-- In a running state a placed word that decodes to no instruction is refused by its reason. -/
theorem coreTurn_of_rejected {s : State} {w : OpWord} {r : Reject} (hr : s.running) (hw : s.opWord = some w)
    (hd : decodeIn w.ctx w.bytes = .error r) : s.coreTurn = .refused (.illegalWord r) := by
  obtain ⟨hreset, hhalted⟩ := hr
  unfold State.coreTurn
  rw [hw]
  cases hp : s.phase
  case reset | halted => contradiction
  all_goals simp only [hd]

/-! ### A table word placed after reset -/

theorem decodeTableWord_eq_some_iff {nbits w : Nat} {i : Instr} :
    decodeTableWord nbits w = some i ↔ decodeIn (tableCtx nbits w) (tableBytes nbits w) = .ok i := by
  unfold decodeTableWord
  split <;> simp_all

/-- What the operands of a word change: a request word's are host 0's granted request, bring-up's an empty sequencer,
and no other word has any. -/
theorem State.placeOperands_cases (d : Except Reject Instr) (s : State) :
    (∃ op sector count, s.placeOperands d = s.placeRequest op sector count) ∨
    s.placeOperands d = { s with seq := [] } ∨ s.placeOperands d = s := by
  cases d with
  | error r => exact .inr (.inr rfl)
  | ok i =>
    cases i
    case readReq sector count => exact .inl ⟨opRead, sector, count, rfl⟩
    case writeReq sector count => exact .inl ⟨opWrite, sector, count, rfl⟩
    case bringup => exact .inr (.inl rfl)
    all_goals exact .inr (.inr rfl)

@[simp] theorem State.placeOperands_inputs (d : Except Reject Instr) (s : State) :
    (s.placeOperands d).inputs = s.inputs := by
  obtain ⟨_, _, _, h⟩ | h | h := s.placeOperands_cases d <;> simp [h, State.placeRequest]

@[simp] theorem State.placeOperands_opWord (d : Except Reject Instr) (s : State) :
    (s.placeOperands d).opWord = s.opWord := by
  obtain ⟨_, _, _, h⟩ | h | h := s.placeOperands_cases d <;> simp [h, State.placeRequest]

/-- A request word's operands bring the core to BUSY; no others change the phase. -/
theorem State.placeOperands_running {s : State} (h : s.running) (d : Except Reject Instr) :
    (s.placeOperands d).running := by
  obtain ⟨_, _, _, hd⟩ | hd | hd := s.placeOperands_cases d <;> rw [hd]
  · exact ⟨nofun, nofun⟩
  · exact h
  · exact h

@[simp] theorem State.withFetchWord_inputs (s : State) (nbits w : Nat) : (s.withFetchWord nbits w).inputs = [] := by
  simp [State.withFetchWord, State.placeTableWord, State.placeWord]

@[simp] theorem State.withFetchWord_opWord (s : State) (nbits w : Nat) :
    (s.withFetchWord nbits w).opWord = some ⟨tableCtx nbits w, tableBytes nbits w⟩ := by
  simp [State.withFetchWord, State.placeTableWord, State.placeWord]

/-- Placing a word releases reset, so that only a halted core is not running then. -/
theorem State.withFetchWord_running {s : State} (h : s.phase ≠ .halted) (nbits w : Nat) :
    (s.withFetchWord nbits w).running := by
  refine State.placeOperands_running ?_ _
  rw [State.running, State.placeWord]
  cases hp : s.phase <;> simp_all

end Sys2Proof.Machine

/-! ### The obligations -/

namespace Sys2Proof.Proofs

open Sys2Proof Sys2Proof.Machine

/-- Settles O58: by induction on the unit's fuel, each of its steps is a step of the core. -/
theorem unitIsARunOfSteps : Obligations.UnitIsARunOfSteps :=
  fun _ _ _ h => exists_ticks_of_runUnit (runUnit_of_perform h)

/-- Settles O59: one case of the core's turn each, the last for the word that `withFetchWord` leaves placed. -/
theorem stepRunsDecoded : Obligations.StepRunsDecoded := by
  refine ⟨fun s w i hr hin hw hd => ?_, fun s w r hr hin hw hd => ?_, fun s hin hw => ?_, fun nbits w i hd => ?_⟩
  · rw [step_of_no_inputs hin, coreTurn_of_decoded hr hw hd]
  · rw [step_of_no_inputs hin, coreTurn_of_rejected hr hw hd]
  · rw [step_of_no_inputs hin, coreTurn_of_no_word hw]
  · have hr : (State.reset.withFetchWord nbits w).running := State.withFetchWord_running (by decide) nbits w
    refine ⟨?_, hr⟩
    rw [step_of_no_inputs (State.withFetchWord_inputs ..),
      coreTurn_of_decoded hr (State.withFetchWord_opWord ..) (decodeTableWord_eq_some_iff.mp hd)]

end Sys2Proof.Proofs

/-!
PROOF. The state's statements (spec/10_state.md): what every step keeps of the data and of the control invariant, of the
session state and of the hosts' memory, and the state that reset leaves.
-/

namespace Sys2Proof.Machine

/-! ### What a step can do -/

/-- Every line is plain, or one of the three that end bring-up, a granted request, or the run. -/
theorem Line.plain_cases (l : Line) :
    l.plain = true ∨ l = .bringup .finish ∨ l = .host .release ∨ ∃ r, l = .halt (.raise r) := by
  cases l
  case bringup l => cases l <;> simp [Line.plain]
  case host l => cases l <;> simp [Line.plain]
  case halt l => cases l <;> simp [Line.plain]
  all_goals exact .inl rfl

/-- A property that recording an exchange does not touch, and that holds already, holds after a step of the core, if the
release of reset, the arbiter and the current line each bring it about. -/
theorem tick_keeps {P : State → Prop} {s t : State} (h : tick s = .next t) (hs : P s)
    (hexchanged : ∀ u o i r, P u → P (u.exchanged o i r))
    (hreset : s.phase = .reset → P s.releaseReset)
    (harbitrate : s.running → s.seq = [] → P s.arbitrate)
    (hline : ∀ l rest u, s.running → s.seq = l :: rest → (l.act { s with seq := rest }).Gives u → P u) : P t := by
  obtain ⟨hp, rfl⟩ | ⟨hr, hseq, rfl⟩ | ⟨hr, l, rest, hseq, hact⟩ := tick_cases h
  · exact hreset hp
  · exact harbitrate hr hseq
  · obtain ha | ⟨o, k, -, -, rfl⟩ | ⟨o, k, i, r, ha, -, rfl⟩ := hact
    · exact hline l rest t hr hseq (by rw [ha]; rfl)
    · exact hs
    · exact hexchanged (k i) o i r (hline l rest (k i) hr hseq (by rw [ha]; exact ⟨i, rfl⟩))

/-- What every step of the core keeps, a unit keeps. -/
theorem runUnit_keeps {P : State → Prop} (hP : ∀ s t, P s → tick s = .next t → P t) {fuel depth : Nat} {s t : State}
    (hs : P s) (h : runUnit fuel depth s = .next t) : P t := by
  induction fuel generalizing s with
  | zero => cases h; exact hs
  | succ fuel ih =>
    unfold runUnit at h
    split at h
    · cases h; exact hs
    · split at h
      · next s' hs' => exact ih (hP s s' hs hs') h
      · cases h
      · cases h

/-- A turn of the core is the sequencer's step, or performs the placed word that decodes. -/
theorem coreTurn_cases {s t : State} (h : s.coreTurn = .next t) :
    tick s = .next t ∨
    ∃ w i, s.running ∧ s.opWord = some w ∧ decodeIn w.ctx w.bytes = .ok i ∧ exec i { s with opWord := none } = .next t := by
  by_cases hr : s.running
  · cases hw : s.opWord with
    | none => exact .inl (coreTurn_of_no_word hw ▸ h)
    | some w =>
      cases hd : decodeIn w.ctx w.bytes with
      | error r => rw [coreTurn_of_rejected hr hw hd] at h; cases h
      | ok i => exact .inr ⟨w, i, hr, rfl, hd, coreTurn_of_decoded hr hw hd ▸ h⟩
  · unfold State.coreTurn at h
    cases hp : s.phase
    case reset | halted => rw [hp] at h; exact .inl h
    all_goals simp [State.running, hp] at hr

/-- A step is a turn of the core, its turn passing in HALTED, or a step from outside (R305). -/
theorem step_cases {s t : State} (h : step s = .next t) :
    (∃ is, ((s.inputs = [] ∧ is = []) ∨ s.inputs = .core :: is) ∧ ({ s with inputs := is } : State).coreTurn = .next t) ∨
    (∃ is, s.inputs = .core :: is ∧ s.phase = .halted ∧ t = { s with inputs := is }) ∨
    (∃ g r is, s.inputs = .submit g r :: is ∧ t = ({ s with inputs := is } : State).submit g r) ∨
    (∃ a b is, s.inputs = .hostWrite a b :: is ∧ t = ({ s with inputs := is } : State).hostWrite a b) ∨
    (∃ is, s.inputs = .assertReset :: is ∧ t = ({ s with inputs := is } : State).assertReset) := by
  unfold step State.turn at h
  split at h
  · next hin => exact .inl ⟨[], .inl ⟨hin, rfl⟩, by rw [← hin]; exact h⟩
  · next is hin =>
    split at h
    · next hp => cases h; exact .inr (.inl ⟨is, hin, hp, rfl⟩)
    · exact .inl ⟨is, .inr hin, h⟩
  · next g r is hin => cases h; exact .inr (.inr (.inl ⟨g, r, is, hin, rfl⟩))
  · next a b is hin => cases h; exact .inr (.inr (.inr (.inl ⟨a, b, is, hin, rfl⟩)))
  · next is hin => cases h; exact .inr (.inr (.inr (.inr ⟨is, hin, rfl⟩)))

theorem step_of_hostWrite {s : State} {a : Nat} {b : Byte} {is : List Input} (h : s.inputs = .hostWrite a b :: is) :
    step s = .next (({ s with inputs := is } : State).hostWrite a b) := by
  simp only [step, State.turn, h]

theorem step_of_assertReset {s : State} {is : List Input} (h : s.inputs = .assertReset :: is) :
    step s = .next ({ s with inputs := is } : State).assertReset := by
  simp only [step, State.turn, h]

/-- While reset is asserted the step of the core is its release (R340). -/
theorem tick_of_reset {s : State} (h : s.phase = .reset) : tick s = .next s.releaseReset := by
  simp only [tick, h]

/-- A host's write changes nothing but memory. -/
theorem State.hostWrite_frame (s : State) (a : Nat) (b : Byte) :
    s.hostWrite a b = { s with mem := (s.hostWrite a b).mem } := by
  unfold State.hostWrite
  split <;> rfl

/-- Every instruction is a procedure performed as a unit, the datapath registers and the bytes to come prepared for it; or
a request word, bring-up, or a checksum. -/
theorem exec_cases (i : Instr) (s : State) :
    (∃ dp rx ls, exec i s = ({ s with dp := dp, rx := rx } : State).perform ls) ∨
    (∃ op sector count, exec i s = s.request op sector count) ∨
    exec i s = execBringup s ∨ ∃ f, exec i s = s.compute f := by
  cases i
  case readReq sector count => exact .inr (.inl ⟨opRead, sector, count, rfl⟩)
  case writeReq sector count => exact .inr (.inl ⟨opWrite, sector, count, rfl⟩)
  case bringup => exact .inr (.inr (.inl rfl))
  case crc7 | crc16 => exact .inr (.inr (.inr ⟨_, rfl⟩))
  all_goals exact .inl ⟨_, _, _, rfl⟩

/-! ### The data invariant -/

/-- The data invariant reads the fault, whether the phase is HALTED, and four more fields: what leaves all of these keeps
it. -/
theorem State.Inv.of_fields {s t : State} (hi : s.Inv) (hphase : t.phase = .halted ↔ s.phase = .halted)
    (hmem : s.mem.wf → t.mem.wf := by exact id) (hblock : t.blockLen = s.blockLen := by rfl)
    (hfault : t.fault = s.fault := by rfl) (hpending : t.pending.length = s.pending.length := by rfl)
    (hcfg : t.cfg = s.cfg := by rfl) (hcs : s.csMode ≠ .disabled → t.csMode ≠ .disabled := by exact id) : t.Inv := by
  obtain ⟨hm, hb, hf, hp, hc⟩ := hi
  exact ⟨hmem hm, hblock.trans hb, by rw [hphase, hfault]; exact hf, by rw [hpending, hcfg]; exact hp, hcs hc⟩

theorem Acted.mem_wf {l : Line} {s t : State} (h : Acted l s t) (hm : s.mem.wf) : t.mem.wf := by
  obtain hmem | ⟨-, a, v, -, -, hmem⟩ := h.mem <;> rw [hmem]
  · exact hm
  · exact Memory.wf_write hm a v

theorem Acted.csMode_ne_disabled {l : Line} {s t : State} (h : Acted l s t) (hc : s.csMode ≠ .disabled) :
    t.csMode ≠ .disabled := by
  obtain hcs | hcs | hcs := h.csMode <;> rw [hcs]
  · exact hc
  · decide
  · decide

/-- A line that is performed keeps the data invariant: the end of bring-up and the release come to a phase that is not
HALTED, and a raise records its fault with HALTED (R300). -/
theorem State.Inv.line {l : Line} {rest : List Line} {s u : State} (hi : s.Inv) (hr : s.running)
    (h : (l.act { s with seq := rest }).Gives u) : u.Inv := by
  obtain hl | rfl | rfl | ⟨r, rfl⟩ := l.plain_cases
  · have ha := acted l _ u hl h
    exact hi.of_fields (by rw [ha.phase]) ha.mem_wf ha.blockLen ha.fault (by rw [ha.pending]) ha.cfg ha.csMode_ne_disabled
  · cases h
    exact hi.of_fields (by simp [hr.2])
  · cases h
    exact hi.of_fields (by simp [hr.2]) (hpending := by simp)
  · cases h
    obtain ⟨hmem, hblock, -, hpending, hcs⟩ := hi
    exact ⟨hmem, hblock, by simp, hpending, hcs⟩

/-- A grant comes from READY to BUSY. -/
theorem State.Inv.arbitrate {s : State} (hi : s.Inv) : s.arbitrate.Inv := by
  obtain h | ⟨hp, -, g, r, n, -, h⟩ := arbitrate_cases s <;> rw [h]
  · exact hi
  · exact hi.of_fields (by simp [State.grant, hp])

theorem State.Inv.tick {s t : State} (hi : s.Inv) (h : tick s = .next t) : t.Inv := by
  exact tick_keeps h hi (fun _ _ _ _ hu => hu) (fun hp => hi.of_fields (by simp [hp])) (fun _ _ => hi.arbitrate)
    fun l rest u hr _ hu => hi.line hr hu

theorem State.Inv.runUnit {s t : State} {fuel depth : Nat} (hi : s.Inv) (h : runUnit fuel depth s = .next t) : t.Inv :=
  runUnit_keeps (fun _ _ => State.Inv.tick) hi h

theorem State.Inv.perform {s t : State} {ls : List Line} (hi : s.Inv) (h : s.perform ls = .next t) : t.Inv :=
  State.Inv.runUnit (s := s.push ls) hi (runUnit_of_perform h)

theorem State.Inv.submit {s : State} (hi : s.Inv) (g : Nat) (r : Request) : (s.submit g r).Inv := by
  unfold State.submit
  split
  · exact hi.of_fields Iff.rfl (hpending := by simp)
  · exact hi

/-- Wherever a host writes, memory stays canonical. -/
theorem State.hostWrite_mem_wf {s : State} (hm : s.mem.wf) (a : Nat) (b : Byte) : (s.hostWrite a b).mem.wf := by
  unfold State.hostWrite
  split
  · exact hm
  · exact Memory.wf_write hm a b

theorem State.Inv.hostWrite {s : State} (hi : s.Inv) (a : Nat) (b : Byte) : (s.hostWrite a b).Inv := by
  rw [s.hostWrite_frame]
  exact hi.of_fields Iff.rfl fun hm => State.hostWrite_mem_wf hm a b

/-- Reset sets what the data invariant reads; memory and the parameters it keeps. -/
theorem State.inv_assertReset {s : State} (hm : s.mem.wf) : s.assertReset.Inv :=
  ⟨hm, rfl, by simp, by simp, by simp⟩

/-- A request word serves, waits, or is granted and served: each by submissions, the arbiter and units. -/
theorem State.Inv.request {s t : State} {op : Byte} {sector count : Word} (hi : s.Inv)
    (h : s.request op sector count = .next t) : t.Inv := by
  unfold State.request at h
  split at h
  · split at h
    · exact hi.perform h
    · cases h
  · split at h
    · unfold State.requestWord at h
      split at h
      · split at h
        · exact (hi.submit _ _).arbitrate.runUnit h
        · cases h; exact hi.submit _ _
      · cases h; exact hi
    · cases h

/-- Bring-up starts where the phase is not HALTED, in BRINGUP. -/
theorem State.Inv.execBringup {s t : State} (hi : s.Inv) (h : execBringup s = .next t) : t.Inv := by
  unfold Machine.execBringup at h
  split at h
  · cases h
  · next hp =>
    split at h
    · exact State.Inv.perform (s := { s with phase := .bringup, seq := [] }) (hi.of_fields (by simp [hp])) h
    · cases h

theorem State.Inv.compute {s t : State} {f : Datapath → Datapath} (hi : s.Inv) (h : s.compute f = .next t) : t.Inv := by
  unfold State.compute at h
  split at h
  · cases h
  · cases h
  all_goals cases h; exact hi

theorem State.Inv.exec {s t : State} {i : Instr} (hi : s.Inv) (h : exec i s = .next t) : t.Inv := by
  obtain ⟨dp, rx, ls, he⟩ | ⟨op, sector, count, he⟩ | he | ⟨f, he⟩ := exec_cases i s <;> rw [he] at h
  · exact State.Inv.perform (s := { s with dp := dp, rx := rx }) hi h
  · exact hi.request h
  · exact hi.execBringup h
  · exact hi.compute h

/-! ### The control invariant, phase by phase -/

theorem State.disciplined_bringup_iff {s : State} (hp : s.phase = .bringup) : s.Disciplined ↔ s.opWord = none ∧
    (s.seq = [.bringup .start] ∨ endsIn Line.ofBringup (.bringup .finish) s.seq = true) ∧ s.guard = none ∧
    s.ready = false := by
  simp only [State.Disciplined, hp]

theorem State.disciplined_ready_iff {s : State} (hp : s.phase = .ready) :
    s.Disciplined ↔ s.opWord = none ∧ s.seq = [] ∧ s.guard = none ∧ s.ready = true := by
  simp only [State.Disciplined, hp]

theorem State.disciplined_busy_iff {s : State} (hp : s.phase = .busy) : s.Disciplined ↔ s.opWord = none ∧
    endsIn Line.ofServe (.host .release) s.seq = true ∧ s.guard = some s.req.host ∧
    (s.pendingOf s.req.host).isSome = true ∧ s.ready = true := by
  simp only [State.Disciplined, hp]

theorem State.disciplined_reset_iff {s : State} (hp : s.phase = .reset) :
    s.Disciplined ↔ s.opWord = none ∧ s.seq = [.bringup .start] ∧ s.guard = none ∧ s.ready = false := by
  simp only [State.Disciplined, hp]

theorem State.disciplined_halted_iff {s : State} (hp : s.phase = .halted) : s.Disciplined ↔ s.opWord = none := by
  simp only [State.Disciplined, hp, and_true]

/-- The current line of a disciplined state: in bring-up its first line, its last, or one above the last; in BUSY the
release or a line above it. -/
theorem State.Disciplined.current {s : State} {l : Line} {rest : List Line} (hd : s.Disciplined) (hr : s.running)
    (hs : s.seq = l :: rest) :
    (s.phase = .bringup ∧ ((l = .bringup .start ∧ rest = []) ∨ (l = .bringup .finish ∧ rest = []) ∨
      (l.ofBringup = true ∧ endsIn Line.ofBringup (.bringup .finish) rest = true))) ∨
    (s.phase = .busy ∧ ((l = .host .release ∧ rest = []) ∨
      (l.ofServe = true ∧ endsIn Line.ofServe (.host .release) rest = true))) := by
  cases hp : s.phase
  case reset => exact absurd hp hr.1
  case halted => exact absurd hp hr.2
  case ready =>
    obtain ⟨-, hseq, -⟩ := (State.disciplined_ready_iff hp).1 hd
    rw [hs] at hseq
    cases hseq
  case bringup =>
    obtain ⟨-, hseq | hseq, -⟩ := (State.disciplined_bringup_iff hp).1 hd
    · rw [hs, List.cons.injEq] at hseq
      exact .inl ⟨rfl, .inl hseq⟩
    · exact .inl ⟨rfl, .inr (endsIn_cons (hs ▸ hseq))⟩
  case busy =>
    obtain ⟨-, hseq, -⟩ := (State.disciplined_busy_iff hp).1 hd
    exact .inr ⟨rfl, endsIn_cons (hs ▸ hseq)⟩

/-- A disciplined core with no line to perform is in READY. -/
theorem State.Disciplined.ready_of_seq_nil {s : State} (hd : s.Disciplined) (hr : s.running) (hs : s.seq = []) :
    s.phase = .ready := by
  cases hp : s.phase
  case ready => rfl
  case reset => exact absurd hp hr.1
  case halted => exact absurd hp hr.2
  case bringup => simp [State.disciplined_bringup_iff hp, hs, endsIn] at hd
  case busy => simp [State.disciplined_busy_iff hp, hs, endsIn] at hd

/-- Among the lines above the end of bring-up, only a raise is not plain. -/
theorem Line.plain_of_ofBringup {l : Line} (h : l.ofBringup = true) : l.plain = true ∨ ∃ r, l = .halt (.raise r) := by
  obtain hl | rfl | rfl | hl := l.plain_cases
  · exact .inl hl
  · cases h
  · cases h
  · exact .inr hl

/-- Among the lines above the release, only a raise is not plain. -/
theorem Line.plain_of_ofServe {l : Line} (h : l.ofServe = true) : l.plain = true ∨ ∃ r, l = .halt (.raise r) := by
  obtain hl | rfl | rfl | hl := l.plain_cases
  · exact .inl hl
  · cases h
  · cases h
  · exact .inr hl

/-! ### The control invariant is kept -/

/-- A line of bring-up keeps the control invariant: its first pushes the steps, its last comes to READY, and one between
pushes lines that may stand between, or halts. -/
theorem State.Disciplined.bringupLine {l : Line} {rest : List Line} {s u : State} (hd : s.Disciplined)
    (hp : s.phase = .bringup) (h : (l.act { s with seq := rest }).Gives u)
    (hl : (l = .bringup .start ∧ rest = []) ∨ (l = .bringup .finish ∧ rest = []) ∨
      (l.ofBringup = true ∧ endsIn Line.ofBringup (.bringup .finish) rest = true)) : u.Disciplined := by
  obtain ⟨hword, -, hguard, hready⟩ := (State.disciplined_bringup_iff hp).1 hd
  obtain ⟨rfl, rfl⟩ | ⟨rfl, rfl⟩ | ⟨hof, hends⟩ := hl
  · have hu : u.phase = .bringup := by cases h; exact hp
    cases h
    exact (State.disciplined_bringup_iff hu).2 ⟨hword, .inr rfl, hguard, hready⟩
  · cases h
    exact (State.disciplined_ready_iff rfl).2 ⟨hword, rfl, hguard, rfl⟩
  · obtain hplain | ⟨r, rfl⟩ := Line.plain_of_ofBringup hof
    · have ha := acted l _ u hplain h
      obtain ⟨ls, hseq, hls, -⟩ := ha.seq
      refine (State.disciplined_bringup_iff (ha.phase.trans hp)).2
        ⟨ha.opWord.trans hword, .inr ?_, ha.guard.trans hguard, ha.ready.trans hready⟩
      rw [hseq]
      exact endsIn_append (hls hof) hends
    · cases h
      exact (State.disciplined_halted_iff rfl).2 hword

/-- A line of a request's service keeps the control invariant: the release comes to READY, and a line above it pushes
lines that may stand there, or halts. -/
theorem State.Disciplined.serveLine {l : Line} {rest : List Line} {s u : State} (hd : s.Disciplined)
    (hp : s.phase = .busy) (h : (l.act { s with seq := rest }).Gives u)
    (hl : (l = .host .release ∧ rest = []) ∨
      (l.ofServe = true ∧ endsIn Line.ofServe (.host .release) rest = true)) : u.Disciplined := by
  obtain ⟨hword, -, hguard, hpending, hready⟩ := (State.disciplined_busy_iff hp).1 hd
  obtain ⟨rfl, rfl⟩ | ⟨hof, hends⟩ := hl
  · cases h
    exact (State.disciplined_ready_iff rfl).2 ⟨hword, rfl, rfl, hready⟩
  · obtain hplain | ⟨r, rfl⟩ := Line.plain_of_ofServe hof
    · have ha := acted l _ u hplain h
      obtain ⟨ls, hseq, -, hls⟩ := ha.seq
      refine (State.disciplined_busy_iff (ha.phase.trans hp)).2
        ⟨ha.opWord.trans hword, ?_, ?_, ?_, ha.ready.trans hready⟩
      · rw [hseq]
        exact endsIn_append (hls hof) hends
      · rw [ha.guard, ha.host]
        exact hguard
      · rw [State.pendingOf, ha.pending, ha.host]
        exact hpending
    · cases h
      exact (State.disciplined_halted_iff rfl).2 hword

/-- The grant of a pending request meets the control invariant of BUSY (R265). -/
theorem State.Disciplined.arbitrate {s : State} (hd : s.Disciplined) : s.arbitrate.Disciplined := by
  obtain h | ⟨hp, -, g, r, n, hpending, h⟩ := arbitrate_cases s <;> rw [h]
  · exact hd
  · obtain ⟨hword, hseq, -, hready⟩ := (State.disciplined_ready_iff hp).1 hd
    refine (State.disciplined_busy_iff rfl).2 ⟨hword, ?_, rfl, Option.isSome_of_eq_some hpending, hready⟩
    simp [State.grant, hseq, endsIn, Line.ofServe]

theorem State.Disciplined.tick {s t : State} (hd : s.Disciplined) (h : tick s = .next t) : t.Disciplined := by
  refine tick_keeps h hd (fun _ _ _ _ hu => hu) (fun hp => ?_) (fun _ _ => hd.arbitrate) fun l rest u hr hs hu => ?_
  · obtain ⟨hword, hseq, hrest⟩ := (State.disciplined_reset_iff hp).1 hd
    exact (State.disciplined_bringup_iff rfl).2 ⟨hword, .inl hseq, hrest⟩
  · obtain ⟨hp, hl⟩ | ⟨hp, hl⟩ := hd.current hr hs
    · exact hd.bringupLine hp hu hl
    · exact hd.serveLine hp hu hl

/-- A submission takes no pending request away (R264, R32). -/
theorem State.pendingOf_submit_isSome {s : State} {g : Nat} (hg : (s.pendingOf g).isSome = true) (k : Nat)
    (r : Request) : ((s.submit k r).pendingOf g).isSome = true := by
  unfold State.submit
  split
  · next hk =>
    have hne : k ≠ g := by
      rintro rfl
      simp [hk.2.1] at hg
    simpa [State.pendingOf, List.getElem?_set_ne hne] using hg
  · exact hg

/-- The control invariant reads of the pending requests only whether the granted host has one. -/
theorem State.Disciplined.of_pending {s : State} (hd : s.Disciplined) {ps : List (Option Request)}
    (hps : (s.pendingOf s.req.host).isSome = true → (ps[s.req.host]?.join).isSome = true) :
    ({ s with pending := ps } : State).Disciplined := by
  obtain ⟨hword, hphase⟩ := hd
  refine ⟨hword, ?_⟩
  cases hp : s.phase <;> rw [hp] at hphase
  case busy =>
    obtain ⟨hseq, hguard, hhost, hready⟩ := hphase
    exact ⟨hseq, hguard, hps hhost, hready⟩
  all_goals exact hphase

theorem State.Disciplined.submit {s : State} (hd : s.Disciplined) (g : Nat) (r : Request) :
    (s.submit g r).Disciplined := by
  rw [s.submit_frame]
  exact hd.of_pending fun h => State.pendingOf_submit_isSome h g r

theorem State.Disciplined.hostWrite {s : State} (hd : s.Disciplined) (a : Nat) (b : Byte) :
    (s.hostWrite a b).Disciplined := by
  rw [s.hostWrite_frame]
  exact hd

theorem State.disciplined_assertReset (s : State) : s.assertReset.Disciplined :=
  (State.disciplined_reset_iff rfl).2 ⟨rfl, rfl, rfl, rfl⟩

/-- A disciplined core has no word placed, so its turn is the sequencer's step. -/
theorem State.Disciplined.tick_of_coreTurn {s t : State} {is : List Input} (hd : s.Disciplined)
    (h : ({ s with inputs := is } : State).coreTurn = .next t) : Machine.tick { s with inputs := is } = .next t :=
  coreTurn_of_no_word (s := { s with inputs := is }) hd.1 ▸ h

/-! ### The session state -/

/-- The capacity class, the readiness flag and the block length (R23 to R25) are those of `s`. -/
def State.SameSession (s t : State) : Prop := t.cap = s.cap ∧ t.ready = s.ready ∧ t.blockLen = s.blockLen

theorem State.SameSession.refl (s : State) : s.SameSession s := ⟨rfl, rfl, rfl⟩

/-- The capacity class is written by lines of bring-up only, and none of those runs in BUSY. -/
theorem Acted.sameSession {l : Line} {s t : State} (h : Acted l s t) (hl : l.ofServe = true) : s.SameSession t := by
  refine ⟨h.cap ?_, h.ready, h.blockLen⟩
  rintro b rfl
  cases hl

theorem sameSession_arbitrate (s : State) : s.SameSession s.arbitrate := by
  obtain h | ⟨-, -, g, r, n, -, h⟩ := arbitrate_cases s <;> rw [h] <;> exact ⟨rfl, rfl, rfl⟩

/-- A step of the core outside RESET and BRINGUP leaves the session state. -/
theorem State.Disciplined.tick_sameSession {s t : State} (hd : s.Disciplined) (hreset : s.phase ≠ .reset)
    (hbringup : s.phase ≠ .bringup) (h : Machine.tick s = .next t) : s.SameSession t := by
  refine tick_keeps h (.refl s) (fun _ _ _ _ hu => hu) (fun hp => absurd hp hreset)
    (fun _ _ => sameSession_arbitrate s) fun l rest u hr hs hu => ?_
  obtain ⟨hp, -⟩ | ⟨-, ⟨rfl, -⟩ | ⟨hl, -⟩⟩ := hd.current hr hs
  · exact absurd hp hbringup
  · cases hu; exact .refl s
  · obtain hplain | ⟨r, rfl⟩ := Line.plain_of_ofServe hl
    · exact (acted l _ u hplain hu).sameSession hl
    · cases hu; exact .refl s

/-! ### The hosts' memory -/

/-- `t` has the memory of `s`, or in it one byte of the granted request's buffer written, in BUSY with the guard held by
its host. -/
def State.WritesGranted (s t : State) : Prop :=
  t.mem = s.mem ∨ (s.phase = .busy ∧ s.guard = some s.req.host ∧
    ∃ a v, Buffer.contains s.req.buf a = true ∧ t.mem = s.mem.write a v)

/-- Only a block's line writes memory, and it runs in BUSY only. -/
theorem State.Disciplined.line_writesGranted {l : Line} {rest : List Line} {s u : State} (hd : s.Disciplined)
    (hr : s.running) (hs : s.seq = l :: rest) (h : (l.act { s with seq := rest }).Gives u) : s.WritesGranted u := by
  obtain hl | rfl | rfl | ⟨r, rfl⟩ := l.plain_cases
  case inl =>
    obtain hmem | ⟨b, a, v, rfl, hbuf, hmem⟩ := (acted l _ u hl h).mem
    · exact .inl hmem
    · obtain ⟨-, hc⟩ | ⟨hp, -⟩ := hd.current hr hs
      · obtain ⟨hc, -⟩ | ⟨hc, -⟩ | ⟨hc, -⟩ := hc <;> cases hc
      · obtain ⟨-, -, hguard, -⟩ := (State.disciplined_busy_iff hp).1 hd
        exact .inr ⟨hp, hguard, a, v, hbuf, hmem⟩
  all_goals cases h; exact .inl rfl

theorem State.Disciplined.tick_writesGranted {s t : State} (hd : s.Disciplined) (h : Machine.tick s = .next t) :
    s.WritesGranted t := by
  refine tick_keeps h (.inl rfl) (fun _ _ _ _ hu => hu) (fun _ => .inl rfl) (fun _ _ => ?_)
    fun l rest u hr hs hu => hd.line_writesGranted hr hs hu
  obtain h | ⟨-, -, g, r, n, -, h⟩ := arbitrate_cases s <;> rw [h] <;> exact .inl rfl

theorem State.WritesGranted.read_ne {s t : State} (h : s.WritesGranted t) {x : Nat}
    (hx : t.mem.read x ≠ s.mem.read x) :
    Buffer.contains s.req.buf x = true ∧ s.phase = .busy ∧ s.guard = some s.req.host := by
  obtain hmem | ⟨hp, hguard, a, v, hbuf, hmem⟩ := h <;> rw [hmem] at hx
  · exact absurd rfl hx
  · obtain rfl : x = a := by
      by_contra hne
      exact hx (Memory.read_write_other s.mem v hne)
    exact ⟨hbuf, hp, hguard⟩

theorem State.hostWrite_of_inPendingBuffer {s : State} {a : Nat} (h : s.inPendingBuffer a = true) (b : Byte) :
    s.hostWrite a b = s := if_pos h

theorem State.hostWrite_of_not_inPendingBuffer {s : State} {a : Nat} (h : s.inPendingBuffer a = false) (b : Byte) :
    s.hostWrite a b = { s with mem := s.mem.write a b } := if_neg (by simp [h])

/-! ### Reset -/

theorem State.assertReset_pendingOf (s : State) (g : Nat) : s.assertReset.pendingOf g = none := by
  simp only [State.pendingOf, State.assertReset_pending, List.getElem?_replicate]
  split <;> rfl

/-- Power-up is a reset of the machine after reset: it adds nothing. -/
theorem State.reset_eq_assertReset : State.reset = State.reset.assertReset := rfl

end Sys2Proof.Machine

/-! ### The obligations of the state -/

namespace Sys2Proof.Proofs

open Sys2Proof Sys2Proof.Machine

/-- Settles O55: each kind of step keeps the invariant, a placed word by the units it runs. -/
theorem stepKeepsInv : Obligations.StepKeepsInv := by
  intro s t hi h
  obtain ⟨is, -, h⟩ | ⟨is, -, -, rfl⟩ | ⟨g, r, is, -, rfl⟩ | ⟨a, b, is, -, rfl⟩ | ⟨is, -, rfl⟩ := step_cases h
  · obtain h | ⟨w, i, -, -, -, h⟩ := coreTurn_cases h
    · exact State.Inv.tick (s := { s with inputs := is }) hi h
    · exact State.Inv.exec (s := { s with inputs := is, opWord := none }) hi h
  · exact hi
  · exact State.Inv.submit (s := { s with inputs := is }) hi g r
  · exact State.Inv.hostWrite (s := { s with inputs := is }) hi a b
  · exact State.inv_assertReset (s := { s with inputs := is }) hi.1

/-- Settles O56: each kind of step keeps the invariant; no word is placed, so the core's turn is the sequencer's step. -/
theorem stepKeepsDisciplined : Obligations.StepKeepsDisciplined := by
  intro s t hd h
  obtain ⟨is, -, h⟩ | ⟨is, -, -, rfl⟩ | ⟨g, r, is, -, rfl⟩ | ⟨a, b, is, -, rfl⟩ | ⟨is, -, rfl⟩ := step_cases h
  · exact State.Disciplined.tick (s := { s with inputs := is }) hd (hd.tick_of_coreTurn h)
  · exact hd
  · exact State.Disciplined.submit (s := { s with inputs := is }) hd g r
  · exact State.Disciplined.hostWrite (s := { s with inputs := is }) hd a b
  · exact State.disciplined_assertReset _

/-- Settles O28: from READY on no line of bring-up runs, and only such lines write the session state. -/
theorem sessionImmutable : Obligations.SessionImmutable := by
  intro s t hd hreset hbringup h ht
  obtain ⟨is, -, h⟩ | ⟨is, -, -, rfl⟩ | ⟨g, r, is, -, rfl⟩ | ⟨a, b, is, -, rfl⟩ | ⟨is, -, rfl⟩ := step_cases h
  · exact State.Disciplined.tick_sameSession (s := { s with inputs := is }) hd hreset hbringup (hd.tick_of_coreTurn h)
  · exact State.SameSession.refl s
  · rw [State.submit_frame]
    exact State.SameSession.refl s
  · rw [State.hostWrite_frame]
    exact State.SameSession.refl s
  · exact absurd rfl ht

/-- Settles O50: the core writes through the block lines alone, which run in BUSY only. -/
theorem memoryIsolation : Obligations.MemoryIsolation := by
  refine ⟨fun s t hd h x hx => (hd.tick_writesGranted h).read_ne hx, fun s a v is hm hin => ?_⟩
  rw [step_of_hostWrite hin, State.hostWrite_frame]
  refine ⟨_, rfl, State.hostWrite_mem_wf (s := { s with inputs := is }) hm a v, fun hb => ?_, fun hb => ?_⟩
  · rw [State.hostWrite_of_inPendingBuffer (s := { s with inputs := is }) hb]
  · rw [State.hostWrite_of_not_inPendingBuffer (s := { s with inputs := is }) hb]
    exact ⟨Memory.read_write_same hm.1 a v, fun x hx => Memory.read_write_other s.mem v hx⟩

/-- Settles O53: every field named is a reset value of `assertReset`, power-up included. -/
theorem resetState : Obligations.ResetState := by
  refine ⟨fun t ht => ?_, fun s is hin => ⟨_, step_of_assertReset hin, rfl, rfl, rfl⟩, fun s hp hin => ?_⟩
  · obtain ⟨s, rfl⟩ : ∃ s : State, t = s.assertReset := by
      obtain rfl | ⟨s, is, hin, h⟩ := ht
      · exact ⟨_, State.reset_eq_assertReset⟩
      · rw [step_of_assertReset hin] at h
        cases h
        exact ⟨_, rfl⟩
    exact ⟨rfl, rfl, rfl, rfl, rfl, rfl, rfl, rfl, rfl, s.assertReset_pendingOf⟩
  · rw [step_of_no_inputs hin, State.coreTurn, hp]
    exact tick_of_reset hp

/-- Settles O54: a reset meets both, and power-up is one. -/
theorem resetMeetsInvariants : Obligations.ResetMeetsInvariants := by
  rw [Obligations.ResetMeetsInvariants, State.reset_eq_assertReset]
  exact ⟨State.inv_assertReset ⟨.nil, nofun⟩, State.disciplined_assertReset _,
    fun s hi => ⟨State.inv_assertReset hi.1, s.disciplined_assertReset⟩⟩

end Sys2Proof.Proofs

/-!
PROOF. The memory's statements (spec/20_memory.md): what one step of the core adds to the trace and takes from the
transport, and how a served request's steps come to its release.
-/

namespace Sys2Proof.Machine

/-! ### The events of a step -/

/-- From `s` to `t` no byte is received (R69): no event added is an exchange, and at most one is a chip-select change. -/
def State.NoExchange (s t : State) : Prop :=
  ∃ es : List Event, t.trace = es ++ s.trace ∧ t.rx = s.rx ∧ (∀ o i, Event.xchg o i ∉ es) ∧
    (es.filter Event.isTransport).length ≤ 1

theorem State.NoExchange.of_same_trace {s t : State} (ht : t.trace = s.trace) (hrx : t.rx = s.rx) : s.NoExchange t :=
  ⟨[], ht, hrx, nofun, Nat.zero_le 1⟩

theorem State.NoExchange.of_one_event {s t : State} {e : Event} (ht : t.trace = e :: s.trace) (hrx : t.rx = s.rx)
    (he : ∀ o i, e ≠ .xchg o i) : s.NoExchange t :=
  ⟨[e], ht, hrx, fun o i hm => he o i (List.mem_singleton.mp hm).symm, List.length_filter_le ..⟩

/-- The release emits two events (R266), neither of them of the transport. -/
theorem State.NoExchange.of_release {s t : State} {h : Nat} {op : Byte}
    (ht : t.trace = .done h op :: .release h :: s.trace) (hrx : t.rx = s.rx) : s.NoExchange t :=
  ⟨[.done h op, .release h], ht, hrx, by simp, Nat.zero_le 1⟩

/-- The arbiter emits nothing, or a grant (R265). -/
theorem State.noExchange_arbitrate (s : State) : s.NoExchange s.arbitrate := by
  obtain ha | ⟨-, -, h, r, n, -, ha⟩ := arbitrate_cases s <;> rw [ha]
  · exact .of_same_trace rfl rfl
  · exact .of_one_event (e := .grant h) rfl rfl nofun

/-- An internal action emits nothing, a chip-select change or a diagnostic, or what the end of a request or of the run
emits (R266, R300). -/
theorem Line.noExchange_of_go {l : Line} {s t : State} (h : l.act s = .go t) : s.NoExchange t := by
  obtain hl | rfl | rfl | ⟨r, rfl⟩ := l.plain_cases
  · have hacted : Acted l s t := acted l s t hl (by rw [h]; rfl)
    obtain ht | ⟨m, ht⟩ | ⟨c, ht⟩ := hacted.trace
    · exact .of_same_trace ht hacted.rx
    · exact .of_one_event ht hacted.rx nofun
    · exact .of_one_event ht hacted.rx nofun
  · cases h
    exact .of_same_trace rfl rfl
  · cases h
    exact .of_release rfl rfl
  · cases h
    exact .of_one_event (e := .halt r) rfl rfl nofun

/-! ### The lines that exchange a byte -/

theorem FramerLine.trace_of_exchange {l : FramerLine} {s : State} {o : Byte} {k : Byte → State}
    (h : l.act s = .exchange o k) (b : Byte) : (k b).trace = s.trace := by
  cases l <;> simp only [FramerLine.act] at h
  case issue => split at h <;> cases h
  case hold => cases h
  case send => cases h; dsimp only; split <;> rfl

theorem DecoderLine.trace_of_exchange {l : DecoderLine} {s : State} {o : Byte} {k : Byte → State}
    (h : l.act s = .exchange o k) (b : Byte) : (k b).trace = s.trace := by
  cases l <;> simp only [DecoderLine.act, Act.recv] at h
  case start | auto | judge => cases h
  case poll => split at h <;> cases h; dsimp only; split <;> rfl
  case payload | trailer => cases h; rfl

theorem BlockLine.trace_of_exchange {l : BlockLine} {s : State} {o : Byte} {k : Byte → State}
    (h : l.act s = .exchange o k) (b : Byte) : (k b).trace = s.trace := by
  cases l <;> simp only [BlockLine.act, Act.recv] at h
  case hold | auto | delay | tokenStart | readStart | crcTest | drespStart | busyStart => cases h
  case storeByte | fetchByte => split at h <;> cases h
  case filler | receive | stopToken | readByte | crcHi | crcLo | writeToken | sendByte => cases h; rfl
  case tokenPoll | busy => split at h <;> cases h; dsimp only; split <;> rfl
  case dresp =>
    split at h <;> cases h
    dsimp only
    split
    · rfl
    · split <;> rfl

/-! Frames, decoders and blocks alone talk to the card: a line of the catalog, of bring-up or of a transfer only calls
them and tests what they return. -/

theorem CatalogLine.act_ne_exchange (l : CatalogLine) (s : State) (o : Byte) (k : Byte → State) :
    l.act s ≠ .exchange o k := by
  unfold CatalogLine.act
  repeat' split
  all_goals exact nofun

theorem BringupLine.act_ne_exchange (l : BringupLine) (s : State) (o : Byte) (k : Byte → State) :
    l.act s ≠ .exchange o k := by
  unfold BringupLine.act
  repeat' split
  all_goals exact nofun

theorem TransferLine.act_ne_exchange (l : TransferLine) (s : State) (o : Byte) (k : Byte → State) :
    l.act s ≠ .exchange o k := by
  unfold TransferLine.act
  repeat' split
  all_goals exact nofun

/-- What a received byte leads to emits nothing besides the exchange itself (R140). -/
theorem Line.trace_of_exchange {l : Line} {s : State} {o : Byte} {k : Byte → State}
    (h : l.act s = .exchange o k) (b : Byte) : (k b).trace = s.trace := by
  cases l
  case framer l => exact FramerLine.trace_of_exchange h b
  case decoder l => exact DecoderLine.trace_of_exchange h b
  case block l => exact BlockLine.trace_of_exchange h b
  case catalog l => exact absurd h (l.act_ne_exchange s o k)
  case bringup l => exact absurd h (l.act_ne_exchange s o k)
  case transfer l => exact absurd h (l.act_ne_exchange s o k)
  case host l => cases l <;> cases h
  case halt l => cases l <;> cases h

end Sys2Proof.Machine

/-! ### The obligations of the memory -/

namespace Sys2Proof.Proofs

open Sys2Proof Sys2Proof.Machine

/-- Settles O47: the unit that serves the request, with the release as its last line, goes on to the release, and a unit
is a run of single steps. -/
theorem servedRequestIsReleased : Obligations.ServedRequestIsReleased := by
  intro s t _ hseq hserve hphase ht
  have hunit : runUnit (unitFuel s) 1 (s.push [.host .serve]) = .next t := by
    simpa [hseq] using runUnit_of_perform hserve
  exact exists_ticks_of_runUnit ((runUnit_to_release hunit).1 hphase ht)

/-- Settles O57: of the ways to make a step only an exchange takes a byte, and its line emits nothing else. -/
theorem oneExchangePerStep : Obligations.OneExchangePerStep := by
  intro s t h
  obtain ⟨-, rfl⟩ | ⟨-, -, rfl⟩ | ⟨-, l, rest, -, ha | ⟨o, k, -, -, rfl⟩ | ⟨o, k, i, r, ha, hrx, rfl⟩⟩ := tick_cases h
  · exact .inl (State.NoExchange.of_same_trace rfl rfl)
  · exact .inl s.noExchange_arbitrate
  · exact .inl (Line.noExchange_of_go (s := { s with seq := rest }) ha)
  · exact .inl (State.NoExchange.of_same_trace rfl rfl)
  · exact .inr ⟨o, i, hrx, congrArg (Event.xchg o i :: ·) (Line.trace_of_exchange ha i)⟩

end Sys2Proof.Proofs

/-!
PROOF. The encoding's statements (spec/30_encoding.md): decoder and encoder are each other's inverse, the layout of a
frame and the fixed frames, what stands for no instruction, and the rows that are a byte or ACMD41's two frames.
-/

namespace Sys2Proof

open Machine

/-! ### The fields of a word (R63, R92) -/

theorem wordOfBytesBE_extractLsb' (w : Word) :
    wordOfBytesBE (w.extractLsb' 24 8) (w.extractLsb' 16 8) (w.extractLsb' 8 8) (w.extractLsb' 0 8) = w := by
  apply BitVec.eq_of_getLsbD_eq
  intro i hi
  refine (append4_getLsbD _ _ _ _ i).trans ?_
  simp only [BitVec.getLsbD_extractLsb']
  split_ifs <;> grind

theorem wordBytesBE_wordOfBytesBE (b3 b2 b1 b0 : Byte) :
    wordBytesBE (wordOfBytesBE b3 b2 b1 b0) = [b3, b2, b1, b0] := by
  have hbits (i : Nat) := append4_getLsbD b3 b2 b1 b0 i
  simp only [wordBytesBE, List.cons.injEq, and_true]
  refine ⟨?_, ?_, ?_, ?_⟩ <;>
  · apply BitVec.eq_of_getLsbD_eq
    intro i hi
    rw [BitVec.getLsbD_extractLsb']
    refine (congrArg _ (hbits _)).trans ?_
    grind

/-! ### The first and the last byte of a frame (R91 to R93) -/

theorem frameStart_startBits : ∀ idx : CmdIndex, (0x40#8 ||| idx.zeroExtend 8).extractLsb' 6 2 = 0b01#2 := by decide

theorem frameStart_index : ∀ idx : CmdIndex, (0x40#8 ||| idx.zeroExtend 8).extractLsb' 0 6 = idx := by decide

theorem frameStart_toNat : ∀ idx : CmdIndex, (0x40#8 ||| idx.zeroExtend 8).toNat = 0x40 + idx.toNat := by decide

theorem eq_frameStart : ∀ f : Byte, f.extractLsb' 6 2 = 0b01#2 →
    f = 0x40#8 ||| (f.extractLsb' 0 6).zeroExtend 8 := by decide

theorem frameTail_crc : ∀ c : BitVec 7, (frameTail c).extractLsb' 1 7 = c := by decide

theorem frameTail_endBit : ∀ c : BitVec 7, (frameTail c).extractLsb' 0 1 = 1#1 := by decide

theorem frameTail_toNat : ∀ c : BitVec 7, (frameTail c).toNat = 2 * c.toNat + 1 := by decide

theorem eq_frameTail : ∀ f : Byte, f.extractLsb' 0 1 = 1#1 → f = frameTail (f.extractLsb' 1 7) := by decide

/-! ### Frames -/

/-- A frame that is well made is judged by its index and argument alone. -/
theorem decodeIn_encodeFrame (idx : CmdIndex) (arg : Word) :
    decodeIn .frame (encodeFrame idx arg) = decodeCommand idx arg := by
  change decodeFrame [_, _, _, _, _, _] = _
  rw [decodeFrame, if_neg (not_not.mpr (frameStart_startBits idx)), if_neg (not_not.mpr (frameTail_endBit _)),
    if_neg (not_not.mpr ?_), frameStart_index, wordOfBytesBE_extractLsb']
  exact frameTail_crc (crc7 (frameHead idx arg))

/-- The frame whose first five bytes are `head`, from their CRC7 (R93, R109). -/
theorem encodeFrame_of_head {idx : CmdIndex} {arg : Word} {head frame : List Byte} {c : BitVec 7}
    (hhead : frameHead idx arg = head) (hcrc : crc7 head = c) (hframe : head ++ [frameTail c] = frame) :
    encodeFrame idx arg = frame ∧ crc7 head = c := by
  rw [encodeFrame, hhead, hcrc]
  exact ⟨hframe, rfl⟩

/-- Bytes that decode as a frame are the frame of their index and argument. -/
theorem exists_encodeFrame_of_decodeFrame {bytes : List Byte} {i : Instr} (h : decodeFrame bytes = .ok i) :
    ∃ idx arg, encodeFrame idx arg = bytes ∧ decodeCommand idx arg = .ok i := by
  unfold decodeFrame at h
  split at h
  case h_2 => cases h
  case h_1 f0 f1 f2 f3 f4 f5 =>
    split_ifs at h with hstart hend hcrc
    refine ⟨_, _, ?_, h⟩
    have hhead : frameHead (f0.extractLsb' 0 6) (wordOfBytesBE f1 f2 f3 f4) = [f0, f1, f2, f3, f4] :=
      congrArg₂ List.cons (eq_frameStart f0 (not_not.mp hstart)).symm (wordBytesBE_wordOfBytesBE f1 f2 f3 f4)
    rw [encodeFrame, hhead, ← not_not.mp hcrc, ← eq_frameTail f5 (not_not.mp hend)]
    rfl

/-! ### The catalog (R103, R104) -/

/-- A fixed-argument command decodes to itself, at its own argument only. -/
theorem exists_entry_of_fixedArg {idx : CmdIndex} {arg : Word} {i j : Instr} {e : Entry} (hidx : idx = e.idx)
    (hi : entryOf i = some e) (h : fixedArg arg e.arg i = .ok j) :
    ∃ e, entryOf j = some e ∧ e.idx = idx ∧ e.arg = arg := by
  unfold fixedArg at h
  split_ifs at h with harg
  cases h
  exact ⟨e, hi, hidx.symm, harg.symm⟩

/-- The frame of a catalog entry decodes to its row. -/
theorem decodeCommand_entryOf {i : Instr} {e : Entry} (h : entryOf i = some e) :
    decodeCommand e.idx e.arg = .ok i := by
  cases i <;> cases h <;> rfl

/-- A command that decodes is a catalog entry's row, with the entry's index and argument. -/
theorem entryOf_of_decodeCommand {idx : CmdIndex} {arg : Word} {i : Instr} (h : decodeCommand idx arg = .ok i) :
    ∃ e, entryOf i = some e ∧ e.idx = idx ∧ e.arg = arg := by
  simp only [decodeCommand, ite_eq_iff] at h
  obtain ⟨h0, h⟩ | ⟨-, ⟨h8, h⟩ | ⟨-, ⟨h12, h⟩ | ⟨-, ⟨h16, h⟩ | ⟨-, ⟨h17, h⟩ | ⟨-, ⟨h18, h⟩ | ⟨-, ⟨h24, h⟩ |
    ⟨-, ⟨h25, h⟩ | ⟨-, ⟨h41, h⟩ | ⟨-, ⟨h55, h⟩ | ⟨-, ⟨h58, h⟩ | ⟨-, ⟨h59, h⟩ | ⟨-, h⟩⟩⟩⟩⟩⟩⟩⟩⟩⟩⟩⟩ := h
  · exact exists_entry_of_fixedArg (e := .cmd0) h0 rfl h
  · exact exists_entry_of_fixedArg (e := .cmd8) h8 rfl h
  · exact exists_entry_of_fixedArg (e := .cmd12) h12 rfl h
  · exact exists_entry_of_fixedArg (e := .cmd16) h16 rfl h
  · cases h; exact ⟨_, rfl, h17.symm, rfl⟩
  · cases h; exact ⟨_, rfl, h18.symm, rfl⟩
  · cases h; exact ⟨_, rfl, h24.symm, rfl⟩
  · cases h; exact ⟨_, rfl, h25.symm, rfl⟩
  · exact exists_entry_of_fixedArg (e := .acmd41) h41 rfl h
  · exact exists_entry_of_fixedArg (e := .cmd55) h55 rfl h
  · exact exists_entry_of_fixedArg (e := .cmd58) h58 rfl h
  · exact exists_entry_of_fixedArg (e := .cmd59) h59 rfl h
  · cases h

theorem decodeCommand_reserved {idx : CmdIndex} (h : idx ∉ [0, 8, 12, 16, 17, 18, 24, 25, 41, 55, 58, 59])
    (arg : Word) : decodeCommand idx arg = .error .reservedIndex := by
  simp only [List.mem_cons, List.not_mem_nil, or_false, not_or] at h
  simp only [decodeCommand, h, if_false]

theorem entryOf_ctx {i : Instr} {e : Entry} (h : entryOf i = some e) : i.ctx = .frame ∧ i.wf = true := by
  cases i <;> cases h <;> exact ⟨rfl, rfl⟩

/-- A frame decodes to the row whose encoding it is. -/
theorem encode_of_decodeFrame {bytes : List Byte} {i : Instr} (h : decodeFrame bytes = .ok i) :
    i.wf = true ∧ i.ctx = .frame ∧ encode i = bytes := by
  obtain ⟨idx, arg, rfl, hcommand⟩ := exists_encodeFrame_of_decodeFrame h
  obtain ⟨e, hi, rfl, rfl⟩ := entryOf_of_decodeCommand hcommand
  obtain ⟨hctx, hwf⟩ := entryOf_ctx hi
  exact ⟨hwf, hctx, (entryOf_frame hi).1.symm⟩

/-- A command's encoding decodes to the command. -/
theorem decodeIn_encode_of_entryOf {i : Instr} {e : Entry} (h : entryOf i = some e) :
    decodeIn .frame (encode i) = .ok i := by
  rw [← (entryOf_frame h).1, decodeIn_encodeFrame, decodeCommand_entryOf h]

/-! ### Request words (R102) -/

/-- A request word is judged by its op, and its fields are read back. -/
theorem decodeIn_requestWord (op : Byte) (sector count : Word) :
    decodeIn .requestPort ([op] ++ wordBytesBE sector ++ wordBytesBE count) =
      if op = opRead then .ok (.readReq sector count)
      else if op = opWrite then .ok (.writeReq sector count) else .error .hostOp := by
  change decodeRequest [_, _, _, _, _, _, _, _, _] = _
  rw [decodeRequest, wordOfBytesBE_extractLsb', wordOfBytesBE_extractLsb']

theorem encode_of_decodeRequest {bytes : List Byte} {i : Instr} (h : decodeRequest bytes = .ok i) :
    i.wf = true ∧ i.ctx = .requestPort ∧ encode i = bytes := by
  unfold decodeRequest at h
  split at h
  case h_2 => cases h
  case h_1 op s3 s2 s1 s0 n3 n2 n1 n0 =>
    have hfields (op' : Byte) : [op'] ++ wordBytesBE (wordOfBytesBE s3 s2 s1 s0) ++
        wordBytesBE (wordOfBytesBE n3 n2 n1 n0) = [op', s3, s2, s1, s0, n3, n2, n1, n0] := by
      rw [wordBytesBE_wordOfBytesBE, wordBytesBE_wordOfBytesBE]; rfl
    split_ifs at h with hread hwrite <;> cases h
    · exact ⟨rfl, rfl, hread ▸ hfields opRead⟩
    · exact ⟨rfl, rfl, hwrite ▸ hfields opWrite⟩

/-! ### One-byte formats (R94 to R101) -/

theorem r1LeadByte_fields : ∀ v : BitVec 6,
    (r1LeadByte v).extractLsb' 6 2 = 0b00#2 ∧ (r1LeadByte v).extractLsb' 0 6 = v := by decide

theorem r3LeadByte_fields : ∀ v : BitVec 5,
    ((r3LeadByte v).extractLsb' 6 2 = 0b00#2 ∧ (r3LeadByte v).extractLsb' 0 1 = 1#1) ∧
      (r3LeadByte v).extractLsb' 1 5 = v := by decide

theorem dataRespByte_fields : ∀ v : BitVec 4,
    (dataRespByte v).extractLsb' 0 4 = 0b0101#4 ∧ (dataRespByte v).extractLsb' 4 4 = v := by decide

theorem eq_r1LeadByte : ∀ b : Byte, b.extractLsb' 6 2 = 0b00#2 → r1LeadByte (b.extractLsb' 0 6) = b := by decide

theorem eq_r3LeadByte : ∀ b : Byte, b.extractLsb' 6 2 = 0b00#2 ∧ b.extractLsb' 0 1 = 1#1 →
    r3LeadByte (b.extractLsb' 1 5) = b := by decide

theorem eq_dataRespByte : ∀ b : Byte, b.extractLsb' 0 4 = 0b0101#4 → dataRespByte (b.extractLsb' 4 4) = b := by decide

/-- A context that reads one row, under one test, has read that row. -/
theorem of_ite_ok {p : Prop} [Decidable p] {i j : Instr} {r : Reject}
    (h : (if p then .ok j else .error r) = Except.ok i) : p ∧ j = i := by
  split_ifs at h with hp
  exact ⟨hp, Except.ok.inj h⟩

theorem encode_of_decodeByte {c : Ctx} {b : Byte} {i : Instr} (h : decodeByte c b = .ok i) :
    i.wf = true ∧ i.ctx = c ∧ encode i = [b] := by
  cases c
  case frame | requestPort | resetRelease | crc7Unit | crc16Unit => cases h
  case leadR1 | leadR7 =>
    obtain ⟨hb, rfl⟩ := of_ite_ok h
    exact ⟨rfl, rfl, congrArg (fun x => [x]) (eq_r1LeadByte b hb)⟩
  case leadR3 =>
    obtain ⟨hb, rfl⟩ := of_ite_ok h
    exact ⟨rfl, rfl, congrArg (fun x => [x]) (eq_r3LeadByte b hb)⟩
  case dataResp =>
    obtain ⟨hb, rfl⟩ := of_ite_ok h
    exact ⟨rfl, rfl, congrArg (fun x => [x]) (eq_dataRespByte b hb)⟩
  case tokenPoll | busyPoll | singleBlock | multiBlock | streamEnd | clocking =>
    obtain ⟨rfl, rfl⟩ := of_ite_ok h
    exact ⟨rfl, rfl, rfl⟩

/-! ### Table words -/

/-- A table word whose bytes are an instruction's encoding, in that instruction's context, decodes to it. -/
theorem decodeTableWord_of_encode {nbits w : Nat} {i : Instr} (hdecode : decodeIn i.ctx (encode i) = .ok i)
    (hctx : tableCtx nbits w = i.ctx) (hbytes : tableBytes nbits w = encode i) : decodeTableWord nbits w = some i := by
  rw [decodeTableWord_eq_some_iff, hctx, hbytes, hdecode]

/-- A table word whose bytes are rejected in its context decodes to nothing. -/
theorem decodeTableWord_of_error {nbits w : Nat} {bytes : List Byte} {r : Reject} (hbytes : tableBytes nbits w = bytes)
    (hdecode : decodeIn (tableCtx nbits w) bytes = .error r) : decodeTableWord nbits w = none := by
  rw [decodeTableWord, hbytes, hdecode]

end Sys2Proof

/-! ### Rows that are one byte (R94 to R101) -/

namespace Sys2Proof.Machine

theorem State.arrive_running {s : State} (h : s.running) (b : Byte) : (s.arrive b).running := h

/-- A received row's unit, with its byte at hand, that returns in at most 64 steps (log entry 7). -/
theorem perform_arrive {s t : State} (h : s.running) {b : Byte} {ls : List Line} {n : Nat}
    (hr : Reaches (s.arrive b).seq.length n ((s.arrive b).push ls) t) (hn : n ≤ 64) (hseq : t.seq = s.seq) :
    (s.arrive b).perform ls = .next t :=
  perform_runs (State.arrive_running h b) hr (by omega) (.inl hseq)

/-! ### ACMD41 (R105, R181) -/

/-- An R1 that CMD55's test takes is 0x00 or 0x01 (R180, R184). -/
theorem toNat_le_one_eq : ∀ b : Byte, decide (b.toNat ≤ 1) = (b == 0x00 || b == 0x01) := by decide

theorem accepted_cmd55 (a : Answer) :
    a.accepted .cmd55 = (a.trailer[0] && (a.lead == 0x00 || a.lead == 0x01)) :=
  congrArg (a.trailer[0] && ·) (toNat_le_one_eq a.lead)

theorem Kept.sameOutside {s t : State} (h : Kept s t) (hm : t.mem = s.mem) : s.SameOutside t :=
  ⟨h.cfg, h.phase, h.cap, h.blockLen, h.ready, h.fault, h.req, h.guard, h.pending, fun a => by rw [hm], h.inputs,
    h.arbTurn, h.opWord, h.port⟩

theorem Datapath.SameLoop.trans {d e f : Datapath} (h : d.SameLoop e) (h' : e.SameLoop f) : d.SameLoop f := by
  obtain ⟨h1, h2, h3, h4, h5, h6⟩ := h
  obtain ⟨h1', h2', h3', h4', h5', h6'⟩ := h'
  exact ⟨h1'.trans h1, h2'.trans h2, h3'.trans h3, h4'.trans h4, h5'.trans h5, h6'.trans h6⟩

/-- A procedure that has kept its caller's state, and then a command that finds no response: the halt as seen from the
start. -/
theorem State.AfterSilence.afterHalt {s u t : State} {i : Instr} {idx : CmdIndex} {ins pre rest : List Byte}
    {es : List Event} (h : u.AfterSilence t i idx ins pre rest) (hk : Kept s u) (he : s.Emits u es) :
    s.AfterHalt t { code := .respTimeout, cmd := some idx }
      (es ++ [.setcs .hold] ++ exchanges (encode i) ins ++ receives pre ++ [.setcs .auto]) := by
  obtain ⟨hphase, hfault, hemits, -, hcs, -, ⟨hguard, hpending, hcap, hready, -⟩, -⟩ := h
  refine ⟨hphase, hfault, ?_, hcs, hguard.trans hk.guard, hpending.trans hk.pending, hcap.trans hk.cap,
    hready.trans hk.ready⟩
  simpa using he.trans hemits

theorem runs_callAcmd41 {s : State} {d : Nat} {ls : List Line} (h : s.running) (hd : d ≤ s.seq.length) :
    Runs d 2 (s.push (.catalog (.call .acmd41) :: ls))
      (s.push (Entry.cmd55.frameLines ++ .catalog .afterPrefix :: ls)) :=
  (reaches_callAcmd41 h hd).runs (by simp; omega)

/-- ACMD41's CMD55, answered: CMD41's frame comes next only where it is accepted. -/
theorem answered_cmd55OfAcmd41 {s : State} {d : Nat} {ls : List Line} (h : s.running) (hd : d ≤ s.seq.length)
    {a : Answer} {r : List Byte} (hf : a.fits s.cfg .cmd55) (hrx : s.rx = a.bytes ++ r) :
    ∃ t, Runs d (-300) (s.push (.catalog (.call .acmd41) :: ls))
        (t.push (if a.accepted .cmd55 then Entry.acmd41.frameLines ++ ls else ls)) ∧
      Answered s t .cmd55 a r ∧ t.ocr = s.ocr := by
  obtain ⟨t, hrun, hans, hresp⟩ := answered_frame (i := .cmd55) (ls := .catalog .afterPrefix :: ls) rfl h hd hf hrx
  have htest : Runs d 1 (t.push (.catalog .afterPrefix :: ls))
      (t.push (if a.accepted .cmd55 then Entry.acmd41.frameLines ++ ls else ls)) := by
    refine runs_go (hans.kept.running h) (hans.kept.depth hd) ?_ rfl
    simp only [Line.act, CatalogLine.act, State.push_dp, hans.ok]
    split <;> simp
  exact ⟨t, (((runs_callAcmd41 h hd).trans hrun).trans htest).mono (by omega), hans,
    by simpa [responseOf] using hresp.ocr⟩

end Sys2Proof.Machine

/-! ### The obligations of the encoding -/

namespace Sys2Proof.Proofs

open Sys2Proof Sys2Proof.Machine

/-- Settles O1: a case for each format, a frame by its entry of the catalog, the others by their fields. -/
theorem decodeOfEncode : Obligations.DecodeOfEncode := by
  intro i hwf
  cases i
  case cmd0 | cmd8 | cmd12 | cmd16 | cmd17 | cmd18 | cmd24 | cmd25 | cmd55 | acmd41 | cmd58 | cmd59 =>
    exact decodeIn_encode_of_entryOf rfl
  case readReq | writeReq => exact decodeIn_requestWord ..
  case r1Lead v | r7Lead v =>
    obtain ⟨hzero, hv⟩ := r1LeadByte_fields v
    exact (if_pos hzero).trans (by rw [hv])
  case r3Lead v =>
    obtain ⟨hlead, hv⟩ := r3LeadByte_fields v
    exact (if_pos hlead).trans (by rw [hv])
  case dataRespAccepted v =>
    obtain ⟨haccepted, hv⟩ := dataRespByte_fields v
    exact (if_pos haccepted).trans (by rw [hv])
  case startTokenRead | startTokenSingleWrite | startTokenMultiWrite | stopTokenMultiWrite | notBusy | filler
    | bringup => rfl
  case crc7 m | crc16 m => exact if_pos (of_decide_eq_true hwf)

/-- Settles O2: a case for each kind of context, the bytes put together again from the fields read. -/
theorem encodeOfDecode : Obligations.EncodeOfDecode := by
  intro c bytes i h
  cases c
  case frame => exact encode_of_decodeFrame h
  case requestPort => exact encode_of_decodeRequest h
  case resetRelease =>
    obtain ⟨rfl, rfl⟩ := of_ite_ok h
    exact ⟨rfl, rfl, rfl⟩
  case crc7Unit | crc16Unit =>
    obtain ⟨hlen, rfl⟩ := of_ite_ok h
    exact ⟨decide_eq_true hlen, rfl, rfl⟩
  case leadR1 | leadR7 | leadR3 | tokenPoll | dataResp | busyPoll | singleBlock | multiBlock | streamEnd | clocking =>
    match bytes, h with
    | [_], h => exact encode_of_decodeByte h

/-- Settles O16: each row is its decoder with the lead byte at hand. -/
theorem leadRowsRun : Obligations.LeadRowsRun := by
  refine ⟨fun s v t rest h hlead hrx => ?_, fun s v r0 r1 r2 r3 t rest h hlead hrx => ?_,
    fun s v o0 o1 o2 o3 t rest h hlead hrx => ?_⟩
  · have hdecode := reaches_decodeR1 (s := s.arrive (r1LeadByte v)) (ls := []) (idx := s.cmdInEffect)
      (State.arrive_running h _) le_rfl hlead (congrArg (r1LeadByte v :: ·) hrx)
    rw [exec, execR1Lead, perform_arrive h hdecode (by simp) (by simp)]
    simp [State.push, State.wire, State.setDp, State.setCs, State.arrive, receives, endBitOk, fillerByte]
  · have hdecode := reaches_decodeR7 (s := s.arrive (r1LeadByte v)) (ls := []) (idx := s.cmdInEffect)
      (State.arrive_running h _) le_rfl hlead (congrArg (r1LeadByte v :: ·) hrx)
    rw [exec, execR7Lead, perform_arrive h hdecode (by simp) (by simp)]
    simp [State.push, State.wire, State.setDp, State.setCs, State.arrive, receives, endBitOk, low_nibble]
  · have hdecode := reaches_decodeR3 (s := s.arrive (r3LeadByte v)) (ls := []) (idx := s.cmdInEffect)
      (State.arrive_running h _) le_rfl hlead (congrArg (r3LeadByte v :: ·) hrx)
    rw [exec, execR3Lead, perform_arrive h hdecode (by simp) (by simp)]
    simp [State.push, State.wire, State.setDp, State.setCs, State.arrive, receives, endBitOk]
    rfl

/-- Settles O22: CMD55's answer decides whether CMD41's frame comes next; the four cases chain its run with the next
frame's. -/
theorem acmd41Runs : Obligations.Acmd41Runs := by
  refine ⟨fun s a b rest h ha hok hb hrx => ?_, fun s a rest h ha hok hrx => ?_,
    fun s ins pre rest h hlen hlead hrx => ?_, fun s a ins pre rest h ha hok hlen hlead hrx => ?_⟩
  · rw [← accepted_cmd55] at hok
    rw [List.append_assoc] at hrx
    obtain ⟨u, hrunA, hansA, hocrA⟩ := answered_cmd55OfAcmd41 (ls := []) h le_rfl ha hrx
    obtain ⟨hemitsA, hrxA, -, -, -, -, -, -, -, -, hloopA⟩ := hansA.after
    rw [if_pos hok] at hrunA
    obtain ⟨t, hrunB, hansB, hrespB⟩ := answered_frame (i := .acmd41) (ls := []) rfl (hansA.kept.running h)
      (hansA.kept.depth le_rfl) (hansA.kept.cfg ▸ hb) hrxA
    obtain ⟨hemitsB, hrxB, hcsB, -, -, -, -, -, -, -, hloopB⟩ := hansB.after
    have hkept := hansA.kept.trans hansB.kept
    refine ⟨t, perform_of_runs h ((hrunA.trans hrunB).mono (by omega)) (.inl hkept.seq), hemitsA.trans hemitsB, hrxB,
      hcsB, hkept.seq, hkept.sameOutside (hansB.mem.trans hansA.mem), hloopA.trans hloopB, hansB.ok, ?_⟩
    rw [hrespB.ocr, hocrA]
    simp [responseOf]
  · rw [← accepted_cmd55] at hok
    obtain ⟨t, hrun, hans, hocr⟩ := answered_cmd55OfAcmd41 (ls := []) h le_rfl ha hrx
    rw [if_neg (by simp [hok])] at hrun
    exact ⟨t, perform_of_runs h (hrun.mono (by omega)) (.inl hans.kept.seq), hans.after, hans.ok.trans hok, hocr⟩
  · obtain ⟨t, hrun, hsilent⟩ := silent_frame (i := .cmd55) (ls := [.catalog .afterPrefix]) rfl h le_rfl hlen hlead hrx
    have hphase : t.phase = .halted := hsilent.1
    exact ⟨t, perform_of_runs h (((runs_callAcmd41 h le_rfl).trans hrun).mono (by omega)) (.inr hphase), hsilent⟩
  · rw [← accepted_cmd55] at hok
    rw [List.append_assoc, List.append_assoc, ← List.append_assoc ins] at hrx
    obtain ⟨u, hrunA, hansA, hocrA⟩ := answered_cmd55OfAcmd41 (ls := []) h le_rfl ha hrx
    obtain ⟨hemitsA, hrxA, -⟩ := hansA.after
    rw [if_pos hok] at hrunA
    obtain ⟨t, hrunB, hsilent⟩ := silent_frame (i := .acmd41) (ls := []) rfl (hansA.kept.running h)
      (hansA.kept.depth le_rfl) hlen (hansA.kept.cfg ▸ hlead) hrxA
    have hhalt := hsilent.afterHalt hansA.kept hemitsA
    obtain ⟨hphase, -, -, hrxB, -, hocrB, -, -⟩ := hsilent
    exact ⟨t, perform_of_runs h ((hrunA.trans hrunB).mono (by omega)) (.inr hphase), hrxB, hocrB.trans hocrA, hhalt⟩

/-- Settles O3: the CRC7 of each head is computed, and the frame is that head with its last byte. -/
theorem fixedFrames : Obligations.FixedFrames := by
  refine ⟨?_, ?_, ?_, ?_, ?_, ?_, ?_, ?_, ?_, rfl, rfl, rfl, rfl, rfl, rfl, rfl, rfl⟩ <;>
  exact encodeFrame_of_head rfl (by decide +kernel) rfl

/-- Settles O4: the first byte's and the last byte's fields; the four between are the argument's by definition. -/
theorem frameLayout : Obligations.FrameLayout := fun idx _ =>
  ⟨_, _, _, _, _, _, rfl, frameStart_startBits idx, frameStart_index idx, frameStart_toNat idx, rfl, rfl, rfl, rfl,
    frameTail_crc _, frameTail_endBit _, frameTail_toNat _⟩

/-- Settles O5: a well-made frame is judged by its index, a request word by its op. -/
theorem reservedEncodingsRefused : Obligations.ReservedEncodingsRefused := by
  refine ⟨fun idx arg hidx => ?_, fun op sector count hread hwrite => ?_⟩
  · rw [decodeIn_encodeFrame, decodeCommand_reserved hidx]
  · exact (decodeIn_requestWord op sector count).trans ((if_neg hread).trans (if_neg hwrite))

/-- Settles O6: each word's bytes are its row's encoding in its row's context; the last has the end bit cleared. -/
theorem sampleWordsDecode : Obligations.SampleWordsDecode := by
  refine ⟨?_, ?_, ?_, ?_, ?_, ?_, ?_, decodeTableWord_of_error (r := .endBit) rfl rfl⟩ <;>
  exact decodeTableWord_of_encode (decodeOfEncode _ rfl) rfl (by decide +kernel)

/-- Settles O34: each row is its poll or primitive with the byte at hand. -/
theorem oneByteRowsRun : Obligations.OneByteRowsRun := by
  refine ⟨fun s h hmax => ?_, fun s v h hmax => ?_, fun s h hmax => ?_, fun s b rest h hrx => ?_,
    fun s b rest h hrx => ?_⟩
  · have hpoll := reaches_token (s := s.arrive startToken) (ls := []) (pre := []) (State.arrive_running h _) le_rfl
      nofun hmax rfl
    exact perform_arrive h hpoll (by decide) rfl
  · have hv : dataRespByte v ≠ 0xFF ∧ dataAccepted (dataRespByte v) = true := by revert v; decide
    have hpoll := reaches_accepted (s := s.arrive (dataRespByte v)) (idx := s.cmdInEffect) (ls := []) 0
      (State.arrive_running h _) le_rfl hmax hv.1 hv.2 rfl
    exact perform_arrive h hpoll (by decide) rfl
  · have hpoll := reaches_notBusy (s := s.arrive 0xFF) (idx := s.cmdInEffect) (ls := []) (pre := [])
      (State.arrive_running h _) le_rfl nofun hmax rfl
    exact perform_arrive h hpoll (by decide) rfl
  · exact perform_runs h (reaches_stopToken (ls := []) h le_rfl hrx) (by omega) (.inl rfl)
  · exact perform_runs h (reaches_receive (ls := []) h le_rfl hrx) (by omega) (.inl rfl)

end Sys2Proof.Proofs

/-!
PROOF. The checksums' statements (spec/40_checksum.md): both generators are one feedback register, for every width and
generator polynomial linear in its bytes and the remainder of a division over GF(2); the polynomial of CRC16 has 1 as a
root, so CRC16 keeps the parity of its message.
-/

namespace Sys2Proof

open Machine Polynomial

/-! ### The feedback register of both generators -/

/-- One bit of the loop of R120 and R125: the register shifts left and `g` is added where the feedback is 1. -/
def lfsrBit {w : Nat} (g c : BitVec w) (bit : Bool) : BitVec w :=
  if c.msb ^^ bit then c <<< 1 ^^^ g else c <<< 1

/-- One byte of the loop of R120 and R125. -/
def lfsrByte {w : Nat} (g c : BitVec w) (b : Byte) : BitVec w := (bitsMsbFirst b).foldl (lfsrBit g) c

/-- The loop of R120 and R125, from the initial value 0. -/
def lfsr {w : Nat} (g : BitVec w) (m : List Byte) : BitVec w := m.foldl (lfsrByte g) 0#w

theorem crc7_eq_lfsr (m : List Byte) : crc7 m = lfsr 0b0001001#7 m := rfl

theorem crc16_eq_lfsr (m : List Byte) : crc16 m = lfsr 0x1021#16 m := rfl

theorem lfsr_eq_foldl_bits {w : Nat} (g : BitVec w) (m : List Byte) :
    lfsr g m = (m.flatMap bitsMsbFirst).foldl (lfsrBit g) 0#w := List.foldl_flatMap.symm

theorem lfsrBit_eq_xor {w : Nat} (g c : BitVec w) (bit : Bool) :
    lfsrBit g c bit = c <<< 1 ^^^ (if c.msb ^^ bit then g else 0#w) := by
  unfold lfsrBit
  split_ifs
  · rfl
  · exact BitVec.xor_zero.symm

/-! ### Linearity -/

theorem xor_xor_xor_comm : ∀ p q x y : Bool, ((p ^^ q) ^^ (x ^^ y)) = ((p ^^ x) ^^ (q ^^ y)) := by decide

theorem lfsrBit_xor {w : Nat} (g c d : BitVec w) (x y : Bool) :
    lfsrBit g (c ^^^ d) (x ^^ y) = lfsrBit g c x ^^^ lfsrBit g d y := by
  have hfeedback : ((c ^^^ d).msb ^^ (x ^^ y)) = ((c.msb ^^ x) ^^ (d.msb ^^ y)) := by
    rw [BitVec.msb_xor, xor_xor_xor_comm]
  have hadded (p q : Bool) : (if p ^^ q then g else 0#w) = (if p then g else 0#w) ^^^ (if q then g else 0#w) := by
    cases p <;> cases q <;> simp
  rw [lfsrBit_eq_xor, lfsrBit_eq_xor, lfsrBit_eq_xor, hfeedback, hadded, BitVec.shiftLeft_xor_distrib]
  ac_rfl

theorem bitsMsbFirst_xor (a b : Byte) :
    bitsMsbFirst (a ^^^ b) = List.zipWith xor (bitsMsbFirst a) (bitsMsbFirst b) := by
  simp only [bitsMsbFirst, BitVec.getElem_xor, List.zipWith_cons_cons, List.zipWith_nil_left]

/-- A step that takes sums to sums takes the sum of two runs to the sum of their ends. -/
theorem foldl_zipWith {α β : Type} {f : α → β → α} {add : α → α → α} {sum : β → β → β}
    (hf : ∀ c d x y, f (add c d) (sum x y) = add (f c x) (f d y)) :
    ∀ (a b : List β) (c d : α), a.length = b.length →
      (List.zipWith sum a b).foldl f (add c d) = add (a.foldl f c) (b.foldl f d)
  | [], [], _, _, _ => rfl
  | x :: a, y :: b, c, d, h => by
    rw [List.zipWith_cons_cons, List.foldl_cons, hf]
    exact foldl_zipWith hf a b _ _ (Nat.succ.inj h)

theorem lfsrByte_xor {w : Nat} (g c d : BitVec w) (a b : Byte) :
    lfsrByte g (c ^^^ d) (a ^^^ b) = lfsrByte g c a ^^^ lfsrByte g d b := by
  rw [lfsrByte, bitsMsbFirst_xor]
  exact foldl_zipWith (lfsrBit_xor g) _ _ c d rfl

theorem lfsr_xor {w : Nat} (g : BitVec w) {a b : List Byte} (h : a.length = b.length) :
    lfsr g (List.zipWith (· ^^^ ·) a b) = lfsr g a ^^^ lfsr g b := by
  have hfold := foldl_zipWith (add := (· ^^^ ·)) (lfsrByte_xor g) a b 0#w 0#w h
  rwa [BitVec.xor_self] at hfold

/-! ### A register as a polynomial over GF(2) -/

/-- The polynomial of a register: bit `i` is the coefficient of `x^i`. -/
noncomputable def regPoly {w : Nat} (c : BitVec w) : (ZMod 2)[X] :=
  ∑ i ∈ Finset.range w, if c.getLsbD i then X ^ i else 0

theorem coeff_regPoly {w : Nat} (c : BitVec w) (n : Nat) :
    (regPoly c).coeff n = if c.getLsbD n then 1 else 0 := by
  have hterm (i : Nat) : (if c.getLsbD i then X ^ i else 0 : (ZMod 2)[X]).coeff n =
      if n = i then if c.getLsbD n then 1 else 0 else 0 := by
    split_ifs with hi hn hc <;> simp_all [coeff_X_pow]
  rw [regPoly, finsetSum_coeff, Finset.sum_congr rfl fun i _ => hterm i, Finset.sum_ite_eq]
  split_ifs with hn hc hc
  · rfl
  · rfl
  · exact absurd (Finset.mem_range.mpr (BitVec.lt_of_getLsbD hc)) hn
  · rfl

theorem degree_regPoly_lt {w : Nat} (c : BitVec w) : (regPoly c).degree < w := by
  refine (degree_lt_iff_coeff_zero _ _).mpr fun n hn => ?_
  rw [coeff_regPoly, BitVec.getLsbD_of_ge c n hn, if_neg Bool.false_ne_true]

theorem regPoly_zero (w : Nat) : regPoly 0#w = 0 := by
  ext n
  simp [coeff_regPoly]

theorem regPoly_xor {w : Nat} (c d : BitVec w) : regPoly (c ^^^ d) = regPoly c + regPoly d := by
  ext n
  rw [coeff_add, coeff_regPoly, coeff_regPoly, coeff_regPoly, BitVec.getLsbD_xor]
  cases c.getLsbD n <;> cases d.getLsbD n <;> decide

/-- A shift by one multiplies by `x`, but for the bit that is shifted out. -/
theorem regPoly_shiftLeft_one {w : Nat} (c : BitVec w) :
    regPoly (c <<< 1) + (if c.msb then X ^ w else 0) = regPoly c * X := by
  ext n
  have hmsb : (if c.msb then X ^ w else 0 : (ZMod 2)[X]).coeff n = if c.msb && n == w then 1 else 0 := by
    cases c.msb <;> simp [coeff_X_pow]
  rw [coeff_add, coeff_regPoly, hmsb, BitVec.msb_eq_getLsbD_last]
  cases n with
  | zero => cases w <;> simp
  | succ n =>
    rw [coeff_mul_X, coeff_regPoly, BitVec.getLsbD_shiftLeft]
    rcases lt_trichotomy (n + 1) w with hn | rfl | hn
    · simp [hn, hn.ne, -BitVec.getLsbD_eq_getElem]
    · simp
    · simp [hn.not_gt, hn.ne', BitVec.getLsbD_of_ge c n (by omega)]

/-! ### The register holds the remainder (R120, R125) -/

/-- The generator polynomial `x^w + g`. -/
noncomputable def genPoly {w : Nat} (g : BitVec w) : (ZMod 2)[X] := X ^ w + regPoly g

theorem monic_genPoly {w : Nat} (g : BitVec w) : (genPoly g).Monic := monic_X_pow_add (degree_regPoly_lt g)

theorem degree_genPoly {w : Nat} (g : BitVec w) : (genPoly g).degree = w := by
  rw [genPoly, degree_add_eq_left_of_degree_lt] <;> rw [degree_X_pow]
  exact degree_regPoly_lt g

/-- The next bit of a message, below the coefficients of the bits before it. -/
noncomputable def appendBit (p : (ZMod 2)[X]) (b : Bool) : (ZMod 2)[X] := p * X + if b then 1 else 0

/-- The message as a polynomial, bit 7 of its first byte the highest coefficient (R120). -/
noncomputable def messagePoly (m : List Byte) : (ZMod 2)[X] := (m.flatMap bitsMsbFirst).foldl appendBit 0

/-- The message bit enters at `x^w`; the feedback is the coefficient there, and adding the generator clears it. -/
theorem regPoly_lfsrBit {w : Nat} (g c : BitVec w) (b : Bool) :
    regPoly (lfsrBit g c b) = regPoly c * X + (if b then X ^ w else 0) + if c.msb ^^ b then genPoly g else 0 := by
  have htwice (p : (ZMod 2)[X]) : p + p = 0 := CharTwo.add_self_eq_zero p
  rw [lfsrBit_eq_xor, regPoly_xor, apply_ite regPoly, regPoly_zero, ← regPoly_shiftLeft_one, genPoly]
  cases c.msb <;> cases b <;> simp <;> grind

theorem genPoly_dvd_lfsrBit {w : Nat} {g c : BitVec w} {p : (ZMod 2)[X]} (b : Bool)
    (h : genPoly g ∣ p * X ^ w - regPoly c) :
    genPoly g ∣ appendBit p b * X ^ w - regPoly (lfsrBit g c b) := by
  have hsplit : appendBit p b * X ^ w - regPoly (lfsrBit g c b) =
      (p * X ^ w - regPoly c) * X - (if c.msb ^^ b then genPoly g else 0) := by
    rw [regPoly_lfsrBit, appendBit]
    cases b <;> simp <;> ring
  rw [hsplit]
  exact dvd_sub (h.mul_right X) (by split_ifs <;> simp)

theorem genPoly_dvd_foldl {w : Nat} (g : BitVec w) : ∀ (bits : List Bool) (c : BitVec w) (p : (ZMod 2)[X]),
    genPoly g ∣ p * X ^ w - regPoly c →
    genPoly g ∣ bits.foldl appendBit p * X ^ w - regPoly (bits.foldl (lfsrBit g) c)
  | [], _, _, h => h
  | b :: bits, _, _, h => genPoly_dvd_foldl g bits _ _ (genPoly_dvd_lfsrBit b h)

theorem regPoly_lfsr {w : Nat} (g : BitVec w) (m : List Byte) :
    regPoly (lfsr g m) = messagePoly m * X ^ w %ₘ genPoly g := by
  have hdvd : genPoly g ∣ messagePoly m * X ^ w - regPoly (lfsr g m) := by
    rw [lfsr_eq_foldl_bits]
    exact genPoly_dvd_foldl g _ 0#w 0 (by simp [regPoly_zero])
  obtain ⟨q, hq⟩ := hdvd
  refine (div_modByMonic_unique q _ (monic_genPoly g) ⟨?_, ?_⟩).2.symm
  · rw [← hq, add_sub_cancel]
  · rw [degree_genPoly]
    exact degree_regPoly_lt _

theorem genPoly_crc7 : genPoly 0b0001001#7 = X ^ 7 + X ^ 3 + 1 := by
  have hreg : regPoly 0b0001001#7 = 1 + X ^ 3 := by
    simp [regPoly, Finset.sum_range_succ]
  rw [genPoly, hreg]
  ring

theorem genPoly_crc16 : genPoly 0x1021#16 = X ^ 16 + X ^ 12 + X ^ 5 + 1 := by
  have hreg : regPoly 0x1021#16 = 1 + X ^ 5 + X ^ 12 := by
    simp [regPoly, Finset.sum_range_succ]
  rw [genPoly, hreg]
  ring

/-! ### The blocks of R125's corner case and example -/

/-- Zeros are their own sum, so by linearity their checksum is its own sum. -/
theorem lfsr_zeros {w : Nat} (g : BitVec w) (n : Nat) : lfsr g (List.replicate n 0x00) = 0#w := by
  have hsum := lfsr_xor g (a := List.replicate n 0x00) rfl
  rwa [List.zipWith_replicate', BitVec.xor_self, BitVec.xor_self] at hsum

/-- The accumulator after each further 32 bytes of a block of 0xFF (V2.1). -/
def onesAccumulators : List (BitVec 16) :=
  [0x84B4, 0x278E, 0x8A16, 0xEDA9, 0xEAFD, 0x9131, 0x7558, 0x1AC7, 0x30D1, 0x8689, 0x96A9, 0x955C, 0xFE13, 0x7046,
   0x7079, 0x7FA1]

/-- Where 32 bytes 0xFF lead from each accumulator of a list to the next, all of them lead to the last. -/
theorem foldl_ones_of_isChain : ∀ (c : BitVec 16) (cs : List (BitVec 16)),
    List.IsChain (fun c d => (List.replicate 32 0xFF).foldl crc16Byte c = d) (c :: cs) →
    (List.replicate (cs.length * 32) 0xFF).foldl crc16Byte c = cs.getLastD c
  | _, [], _ => rfl
  | c, d :: cs, h => by
    obtain ⟨hd, hcs⟩ := List.isChain_cons_cons.mp h
    rw [List.length_cons, Nat.succ_mul, Nat.add_comm, List.replicate_add, List.foldl_append, hd, List.getLastD_cons]
    exact foldl_ones_of_isChain d cs hcs

/-! ### Parity (R127) -/

/-- The parity of a message's bits. -/
def messageParity (m : List Byte) : Bool := (m.flatMap bitsMsbFirst).foldl xor false

theorem eval_one_foldl_appendBit : ∀ (bits : List Bool) (p : (ZMod 2)[X]) (q : Bool),
    p.eval 1 = (if q then 1 else 0) → (bits.foldl appendBit p).eval 1 = if bits.foldl xor q then 1 else 0
  | [], _, _, h => h
  | b :: bits, p, q, h => by
    refine eval_one_foldl_appendBit bits _ _ ?_
    rw [appendBit, eval_add, eval_mul, eval_X, mul_one, h, apply_ite (eval 1), eval_one, eval_zero]
    cases b <;> cases q <;> decide

theorem eval_one_messagePoly (m : List Byte) : (messagePoly m).eval 1 = if messageParity m then 1 else 0 :=
  eval_one_foldl_appendBit _ 0 false eval_zero

/-- The generator of CRC16 has the root 1, so its remainder has the value of the message there. -/
theorem eval_one_regPoly_crc16 (m : List Byte) : (regPoly (crc16 m)).eval 1 = (messagePoly m).eval 1 := by
  have hroot : (genPoly 0x1021#16).eval₂ (RingHom.id _) 1 = 0 := by
    simp only [genPoly_crc16, eval₂_add, eval₂_X_pow, one_pow, eval₂_one]
    decide
  rw [crc16_eq_lfsr, regPoly_lfsr, ← eval₂_id, eval₂_modByMonic_eq_self_of_root hroot, eval₂_id, eval_mul,
    eval_pow, eval_X, one_pow, mul_one]

theorem messageParity_eq_of_crc16_eq {m m' : List Byte} (h : crc16 m = crc16 m') :
    messageParity m = messageParity m' := by
  have heval : (messagePoly m).eval 1 = (messagePoly m').eval 1 := by
    rw [← eval_one_regPoly_crc16, h, eval_one_regPoly_crc16]
  rw [eval_one_messagePoly, eval_one_messagePoly] at heval
  revert heval
  cases messageParity m <;> cases messageParity m' <;> decide

/-! ### A flipped bit (R127) -/

theorem foldl_xor_eq (bits : List Bool) (q : Bool) : bits.foldl xor q = (q ^^ bits.foldl xor false) := by
  have hfold := List.foldl_assoc (op := xor) (l := bits) (a₁ := q) (a₂ := false)
  rwa [Bool.xor_false] at hfold

theorem messageParity_append (m m' : List Byte) : messageParity (m ++ m') = (messageParity m ^^ messageParity m') := by
  rw [messageParity, List.flatMap_append, List.foldl_append, foldl_xor_eq]
  rfl

theorem messageParity_xor_byte (b d : Byte) : messageParity [b ^^^ d] = (messageParity [b] ^^ messageParity [d]) := by
  simp only [messageParity, List.flatMap_singleton, bitsMsbFirst_xor]
  exact foldl_zipWith xor_xor_xor_comm _ _ false false rfl

theorem messageParity_one_bit : ∀ j < 8, messageParity [1#8 <<< j] = true := by decide

theorem messageParity_set_flip {m : List Byte} {i j : Nat} (hi : i < m.length) (hj : j < 8) :
    messageParity (m.set i (m[i] ^^^ (1#8 <<< j))) = !messageParity m := by
  have hm : m = m.take i ++ ([m[i]] ++ m.drop (i + 1)) := by simp
  have hset : m.set i (m[i] ^^^ (1#8 <<< j)) = m.take i ++ ([m[i] ^^^ (1#8 <<< j)] ++ m.drop (i + 1)) := by
    rw [List.set_eq_take_append_cons_drop, if_pos hi]
    rfl
  have hflip : messageParity [m[i] ^^^ (1#8 <<< j)] = !messageParity [m[i]] := by
    rw [messageParity_xor_byte, messageParity_one_bit j hj, Bool.xor_true]
  calc messageParity (m.set i (m[i] ^^^ (1#8 <<< j)))
      _ = !messageParity (m.take i ++ ([m[i]] ++ m.drop (i + 1))) := by
        simp only [hset, messageParity_append, hflip, Bool.not_xor, Bool.xor_not]
      _ = !messageParity m := by rw [← hm]

end Sys2Proof

namespace Sys2Proof.Machine

/-- A checksum unit runs in every phase in which the core does (R129). -/
theorem State.compute_running {s : State} (h : s.running) (f : Datapath → Datapath) :
    s.compute f = .next (s.setDp f) := by
  obtain ⟨hreset, hhalted⟩ := h
  unfold State.compute
  split
  · contradiction
  · contradiction
  all_goals rfl

end Sys2Proof.Machine

namespace Sys2Proof.Proofs

open Sys2Proof Sys2Proof.Machine

/-- Settles O7: the register of width 7 holds the remainder and is linear. -/
theorem crc7IsRemainder : Obligations.Crc7IsRemainder := by
  refine ⟨fun m => ?_, rfl, fun m => (crc7 m).isLt, fun _ _ h => lfsr_xor _ h, by decide +kernel⟩
  have hrem := regPoly_lfsr 0b0001001#7 m
  rwa [genPoly_crc7] at hrem

/-- Settles O8: the register of width 16 holds the remainder and is linear; the block of 0xFF by its accumulators. -/
theorem crc16IsRemainder : Obligations.Crc16IsRemainder := by
  refine ⟨fun m => ?_, lfsr_zeros _ 512, ?_, fun _ _ h => lfsr_xor _ h⟩
  · have hrem := regPoly_lfsr 0x1021#16 m
    rwa [genPoly_crc16] at hrem
  · exact foldl_ones_of_isChain 0 onesAccumulators (by decide +kernel)

/-- Settles O9: a flipped bit is an error of odd parity, and CRC16 determines the parity of its message. -/
theorem blockErrorsDetected : Obligations.BlockErrorsDetected := by
  refine ⟨fun m i j hi _ hj hcrc => ?_, fun _ _ _ hparity hcrc => hparity (messageParity_eq_of_crc16_eq hcrc)⟩
  have hparity := messageParity_eq_of_crc16_eq hcrc
  rw [messageParity_set_flip hi hj] at hparity
  exact Bool.not_ne_self _ hparity

/-- Settles O10: both rows are the units' computation, which any running state answers. -/
theorem checksumUnitsRun : Obligations.ChecksumUnitsRun :=
  ⟨fun _ _ h => State.compute_running h _, fun _ _ h => State.compute_running h _⟩

end Sys2Proof.Proofs

/-!
PROOF. The framer's and the decoders' statements (spec/41_framer_decoders.md): a frame, a lead-byte poll and each
decoder as units that return or halt, and bring-up's halt at a CMD59 without a response.
-/

namespace Sys2Proof.Machine

/-! ### The framer -/

/-- `SEND_COMMAND` (R145): `SETCS(HOLD)`, then the six exchanges. -/
theorem reaches_sendCommand {s : State} {d : Nat} {ls : List Line} (h : s.running) (hd : d ≤ s.seq.length)
    {idx : CmdIndex} {arg : Word} {c : BitVec 7} {ins r : List Byte} (hlen : ins.length = 6) (hrx : s.rx = ins ++ r) :
    Reaches d 7 (s.push (.framer (.hold idx arg c) :: ls))
      ((((s.setDp fun d => { d with frame := frameBytes idx arg c }).setCs .hold).wire
        (exchanges (frameBytes idx arg c).toList ins) r).push ls) := by
  have hhold := reaches_go (ls := ls) h hd (l := .framer (.hold idx arg c)) rfl
  have hsend := reaches_sendFrame (ls := ls)
    (s := (s.setDp fun d => { d with frame := frameBytes idx arg c }).setCs .hold) h hd hlen hrx
  exact hhold.trans hsend

/-! ### The lead-byte poll and the decoders -/

/-- What an exhausted poll leaves after its halt (R147, R152, R300), whatever it writes in the datapath. -/
theorem afterHalt_exhausted (s : State) (f : Datapath → Datapath) (r : FaultRecord) (pre rest : List Byte)
    (ls : List Line) :
    s.AfterHalt (((((s.setDp f).wire (receives pre) rest).setCs .auto).raiseFatal r).push ls) r
      (receives pre ++ [.setcs .auto]) := by
  refine ⟨rfl, rfl, ?_, rfl, rfl, rfl, rfl, rfl⟩
  simp [State.Emits]

/-- A decoder of any shape, as a unit, where no lead byte matches (R147, R152). -/
theorem perform_decodeNoLead {s : State} (h : s.running) {sh : Shape} {pre rest : List Byte} (hl : NoLead s.cfg sh pre)
    (hrx : s.rx = pre ++ rest) (idx : CmdIndex) :
    ∃ t, s.perform [.decoder (.start sh idx)] = .next t ∧ t.rx = rest ∧ t.ocr = s.ocr ∧
      s.AfterHalt t { code := .respTimeout, cmd := some idx } (receives pre ++ [.setcs .auto]) := by
  obtain ⟨ls, hr⟩ := reaches_decodeNoLead (ls := []) (idx := idx) h le_rfl hl hrx
  exact ⟨_, perform_runs h hr (by simp [hrx]; omega) (.inr rfl), rfl, rfl, afterHalt_exhausted ..⟩

/-- R1 takes in its extra status bytes in their order (R149). -/
theorem take4_r1 (n : Nat) (b0 b1 b2 b3 : Byte) (d : Datapath) (h : d.ext = []) :
    (Shape.r1 n).take4 b0 b1 b2 b3 d = { d with ext := [b0, b1, b2, b3] } := by
  simp only [Shape.take4, Shape.take, h, List.nil_append, List.cons_append]

/-- `DECODE_R1(idx, 4)` (R149). -/
theorem reaches_decodeR1_four {s : State} {d : Nat} {ls : List Line} (h : s.running) (hd : d ≤ s.seq.length)
    {idx : CmdIndex} {pre : List Byte} {lead b0 b1 b2 b3 t : Byte} {r : List Byte}
    (hl : LeadArrives s.cfg (.r1 4) pre lead) (hrx : s.rx = pre ++ lead :: b0 :: b1 :: b2 :: b3 :: t :: r) :
    Reaches d (pre.length + 9) (s.push (.decoder (.start (.r1 4) idx) :: ls))
      ((((s.setDp fun d => { d with
            poll := pre.length + 1, ext := [b0, b1, b2, b3], ocrIn := 0, lead := lead, trailer := t
            ok := endBitOk t }).wire (receives (pre ++ [lead, b0, b1, b2, b3, t])) r).setCs .auto).push ls) := by
  refine (reaches_decode4 h hd (sh := .r1 4) rfl hl hrx (s1 := s.setDp fun d => { d with
    poll := pre.length + 1, ext := [b0, b1, b2, b3], ocrIn := 0, lead := lead })
    (by simp only [State.setDp]; rw [take4_r1 _ _ _ _ _ _ rfl])).cast rfl ?_
  simp [State.setDp, State.wire, State.setCs]

/-- The bytes that the default mask and target of an R1 match (R94). -/
theorem leadMatches_default_r1 :
    ∀ b : Byte, leadMatches Config.defaults (.r1 0) b = true ↔ b.toNat < 0x40 := by decide

/-- The bytes that the default mask and target of an R3 match (R95). -/
theorem leadMatches_default_r3 :
    ∀ b : Byte, leadMatches Config.defaults .r3 b = true ↔ b.toNat < 0x40 ∧ b.toNat % 2 = 1 := by decide

/-! ### An attempt of a catalog entry (R184, R209) -/

/-- What answered commands leave, from `s` to `t`, in a procedure that goes on. -/
structure Scripted (s t : State) (cmds : List (Instr × Answer)) (rest : List Byte) : Prop where
  emits : s.Emits t (scriptEvents cmds)
  rx : t.rx = rest
  kept : Kept s t
  mem : t.mem = s.mem

theorem Scripted.trans {s t u : State} {cmds cmds' : List (Instr × Answer)} {rest rest' : List Byte}
    (h : Scripted s t cmds rest) (h' : Scripted t u cmds' rest') : Scripted s u (cmds ++ cmds') rest' :=
  ⟨by simpa [scriptEvents] using h.emits.trans h'.emits, h'.rx, h.kept.trans h'.kept, h'.mem.trans h.mem⟩

/-- What the caller writes in the datapath before the commands is not theirs. -/
theorem Scripted.of_setDp {s t : State} {f : Datapath → Datapath} {cmds : List (Instr × Answer)} {rest : List Byte}
    (h : Scripted (s.setDp f) t cmds rest) : Scripted s t cmds rest :=
  have hkept : Kept s (s.setDp f) := ⟨rfl, rfl, rfl, rfl, rfl, rfl, rfl, rfl, rfl, rfl, rfl, rfl, rfl, rfl⟩
  ⟨h.emits, h.rx, hkept.trans h.kept, h.mem⟩

theorem Answered.scripted {s t : State} {i : Instr} {a : Answer} {rest : List Byte} (h : Answered s t i a rest) :
    Scripted s t [(i, a)] rest := by
  obtain ⟨hemits, hrx, -⟩ := h.after
  exact ⟨by simpa [scriptEvents] using hemits, hrx, h.kept, h.mem⟩

theorem scriptBytes_append (cmds cmds' : List (Instr × Answer)) :
    scriptBytes (cmds ++ cmds') = scriptBytes cmds ++ scriptBytes cmds' := List.flatMap_append

theorem scriptFits_append {c : Config} {cmds cmds' : List (Instr × Answer)} :
    scriptFits c (cmds ++ cmds') ↔ scriptFits c cmds ∧ scriptFits c cmds' := List.forall_mem_append

/-- The forms of an attempt (R105, R181): the entry's own frame; ACMD41's CMD55, refused; or accepted, then CMD41. -/
theorem attemptResult_cases {i : Instr} {cmds : List (Instr × Answer)} {b : Bool} (h : attemptResult i cmds = some b) :
    (i ≠ .acmd41 ∧ ∃ a, cmds = [(i, a)] ∧ a.accepted i = b) ∨
    (i = .acmd41 ∧ ∃ a, cmds = [(.cmd55, a)] ∧ a.accepted .cmd55 = false ∧ b = false) ∨
    (i = .acmd41 ∧ ∃ a a', cmds = [(.cmd55, a), (.acmd41, a')] ∧ a.accepted .cmd55 = true ∧
      a'.accepted .acmd41 = b) := by
  unfold attemptResult at h
  split at h
  · next j a =>
    split_ifs at h with h41 h55 hj
    · obtain ⟨rfl, hacc⟩ := h55
      exact .inr (.inl ⟨h41, a, rfl, hacc, (Option.some.inj h).symm⟩)
    · subst hj
      exact .inl ⟨h41, a, rfl, Option.some.inj h⟩
  · next j a j' a' =>
    split_ifs at h with hall
    obtain ⟨h41, rfl, rfl, hacc⟩ := hall
    exact .inr (.inr ⟨h41, a, a', rfl, hacc, Option.some.inj h⟩)
  · cases h

/-- An entry other than ACMD41 is called as its own frame. -/
theorem entryOf_ne_acmd41 {i : Instr} {e : Entry} (hi : entryOf i = some e) (h : i ≠ .acmd41) : e ≠ .acmd41 := by
  rintro rfl
  cases i <;> simp_all [entryOf]

/-- One attempt of a catalog entry returns its result, and the attempt counter is its caller's. -/
theorem runs_attempt {s : State} {d : Nat} {ls : List Line} {i : Instr} {e : Entry} (hi : entryOf i = some e)
    (h : s.running) (hd : d ≤ s.seq.length) {cmds : List (Instr × Answer)} {b : Bool} {r : List Byte}
    (hresult : attemptResult i cmds = some b) (hfits : scriptFits s.cfg cmds) (hrx : s.rx = scriptBytes cmds ++ r) :
    ∃ t, Runs d (-300) (s.push (.catalog (.call e) :: ls)) (t.push ls) ∧ Scripted s t cmds r ∧ t.dp.ok = b ∧
      t.dp.attempt = s.dp.attempt := by
  obtain ⟨hne, a, rfl, rfl⟩ | ⟨rfl, a, rfl, hacc, rfl⟩ | ⟨rfl, a, a', rfl, hacc, rfl⟩ :=
    attemptResult_cases hresult
  · obtain ⟨t, hrun, hans, -⟩ := answered_call (ls := ls) hi (entryOf_ne_acmd41 hi hne) h hd
      (hfits (i, a) (by simp)) (by simpa [scriptBytes] using hrx)
    exact ⟨t, hrun, hans.scripted, hans.ok, hans.attempt⟩
  · cases hi
    obtain ⟨t, hrun, hans, -⟩ := answered_cmd55OfAcmd41 (ls := ls) h hd (hfits (.cmd55, a) (by simp))
      (by simpa [scriptBytes] using hrx)
    rw [if_neg (by simp [hacc])] at hrun
    exact ⟨t, hrun, hans.scripted, hans.ok.trans hacc, hans.attempt⟩
  · cases hi
    obtain ⟨u, hrun, hans, -⟩ := answered_cmd55OfAcmd41 (ls := ls) (r := a'.bytes ++ r) h hd
      (hfits (.cmd55, a) (by simp)) (by simpa [scriptBytes] using hrx)
    rw [if_pos hacc] at hrun
    obtain ⟨t, hrun', hans', -⟩ := answered_frame (i := .acmd41) (ls := ls) rfl (hans.kept.running h)
      (hans.kept.depth hd) (hans.kept.cfg ▸ hfits (.acmd41, a') (by simp)) hans.scripted.rx
    exact ⟨t, (hrun.trans hrun').mono (by omega), hans.scripted.trans hans'.scripted, hans'.ok,
      hans'.attempt.trans hans.attempt⟩

/-! ### `STEP` that succeeds (R208) -/

/-- After an accepted attempt a step returns. -/
theorem runs_stepTest_ok {s : State} {d : Nat} {ls : List Line} {e : Entry} {code : FaultCode} (h : s.running)
    (hd : d ≤ s.seq.length) (hok : s.dp.ok = true) :
    Runs d 1 (s.push (.bringup (.stepTest e code) :: ls)) (s.push ls) :=
  runs_go h hd (by simp [Line.act, BringupLine.act, hok]) rfl

/-- After a failed attempt but the last, a step makes the next (R209). -/
theorem runs_stepTest_retry {s : State} {d : Nat} {ls : List Line} {e : Entry} {code : FaultCode} (h : s.running)
    (hd : d ≤ s.seq.length) (hok : s.dp.ok = false) (hlt : s.dp.attempt < cmdAttempts) :
    Runs d 1 (s.push (.bringup (.stepTest e code) :: ls))
      ((s.setDp fun d => { d with attempt := d.attempt + 1 }).push
        (.catalog (.call e) :: .bringup (.stepTest e code) :: ls)) :=
  runs_go h hd (by simp [Line.act, BringupLine.act, hok, hlt]) rfl

/-- The tries of a step: each failed attempt is followed by the next, until one is accepted. -/
theorem runs_tries {d : Nat} {ls : List Line} {i : Instr} {e : Entry} (hi : entryOf i = some e) (code : FaultCode)
    {last : List (Instr × Answer)} (hlast : attemptResult i last = some true) {r : List Byte}
    (fails : List (List (Instr × Answer))) :
    ∀ (s : State), s.running → d ≤ s.seq.length → (∀ f ∈ fails, attemptResult i f = some false) →
      s.dp.attempt + fails.length ≤ cmdAttempts → scriptFits s.cfg (fails.flatten ++ last) →
      s.rx = scriptBytes (fails.flatten ++ last) ++ r →
      ∃ t, Runs d (-200) (s.push (.catalog (.call e) :: .bringup (.stepTest e code) :: ls)) (t.push ls) ∧
        Scripted s t (fails.flatten ++ last) r ∧ t.dp.ok = true := by
  induction fails with
  | nil =>
    intro s h hd _ _ hfits hrx
    obtain ⟨t, hrun, hscr, hok, -⟩ := runs_attempt (ls := .bringup (.stepTest e code) :: ls) hi h hd hlast hfits hrx
    have htest := runs_stepTest_ok (e := e) (code := code) (ls := ls) (hscr.kept.running h) (hscr.kept.depth hd) hok
    exact ⟨t, (hrun.trans htest).mono (by omega), hscr, hok⟩
  | cons f fails ih =>
    intro s h hd hfail hcount hfits hrx
    rw [List.flatten_cons, List.append_assoc] at hfits hrx ⊢
    rw [scriptBytes_append, List.append_assoc] at hrx
    obtain ⟨hfitsf, hfits⟩ := scriptFits_append.mp hfits
    rw [List.length_cons] at hcount
    obtain ⟨u, hrun, hscr, hok, hattempt⟩ := runs_attempt (ls := .bringup (.stepTest e code) :: ls) hi h hd
      (hfail f (by simp)) hfitsf hrx
    have htest := runs_stepTest_retry (e := e) (code := code) (ls := ls) (hscr.kept.running h) (hscr.kept.depth hd) hok
      (by omega)
    obtain ⟨t, hruns, hscrs, hoks⟩ := ih (u.setDp fun d => { d with attempt := d.attempt + 1 })
      (hscr.kept.running h) (hscr.kept.depth hd) (fun f hf => hfail f (by simp [hf])) (by simp; omega)
      (hscr.kept.cfg ▸ hfits) hscr.rx
    exact ⟨t, ((hrun.trans htest).trans hruns).mono (by omega), hscr.trans hscrs.of_setDp, hoks⟩

/-- `STEP(entry, code)` with a script on which it succeeds. -/
theorem runs_step {s : State} {d : Nat} {ls : List Line} {i : Instr} {e : Entry} (hi : entryOf i = some e)
    (code : FaultCode) (h : s.running) (hd : d ≤ s.seq.length) {cmds : List (Instr × Answer)} {r : List Byte}
    (hstep : StepScript i cmds) (hfits : scriptFits s.cfg cmds) (hrx : s.rx = scriptBytes cmds ++ r) :
    ∃ t, Runs d (-100) (s.push (.bringup (.step e code) :: ls)) (t.push ls) ∧ Scripted s t cmds r ∧
      t.dp.ok = true := by
  obtain ⟨fails, last, rfl, hlen, hfail, hlast⟩ := hstep
  have hfirst : Runs d 1 (s.push (.bringup (.step e code) :: ls)) ((s.setDp fun d => { d with attempt := 1 }).push
      (.catalog (.call e) :: .bringup (.stepTest e code) :: ls)) := runs_go h hd rfl rfl
  obtain ⟨t, hrun, hscr, hok⟩ := runs_tries (d := d) (ls := ls) hi code hlast fails
    (s.setDp fun d => { d with attempt := 1 }) h hd hfail (by simp; omega) hfits hrx
  exact ⟨t, (hfirst.trans hrun).mono (by omega), hscr.of_setDp, hok⟩

/-! ### The start of bring-up (R200) -/

/-- Bring-up as it is entered: reset is released and no other line stands (R340). -/
def State.bringupEntered (s : State) : State := { s with phase := .bringup, seq := [] }

theorem State.bringupEntered_running (s : State) : s.bringupEntered.running := ⟨nofun, nofun⟩

theorem exec_bringup_atStart {s : State} (h : s.atBringupStart = true) :
    exec .bringup s = s.bringupEntered.perform [.bringup .start] := by
  have hphase : s.phase ≠ .halted := by
    intro hp
    simp [State.atBringupStart, hp] at h
  exact (if_neg hphase).trans (if_pos h)

/-- Bring-up's steps 1 and 2, to the line that calls CMD59. -/
theorem runs_bringupToCmd59 {s : State} {d : Nat} {ls : List Line} (h : s.running) (hd : d ≤ s.seq.length)
    {s0 s8 : List (Instr × Answer)} {r : List Byte} (h0 : StepScript .cmd0 s0) (h8 : StepScript .cmd8 s8)
    (hfits : scriptFits s.cfg (s0 ++ s8)) (hrx : s.rx = scriptBytes (s0 ++ s8) ++ r) :
    ∃ t, Runs d (-100) (s.push (.bringup .start :: ls)) (t.push (bringupSteps.drop 2 ++ ls)) ∧
      Scripted s t (s0 ++ s8) r := by
  obtain ⟨hfits0, hfits8⟩ := scriptFits_append.mp hfits
  rw [scriptBytes_append, List.append_assoc] at hrx
  have hstart : Runs d 1 (s.push (.bringup .start :: ls)) (s.push (bringupSteps ++ ls)) :=
    runs_go h hd (by simp [Line.act, BringupLine.act]) rfl
  obtain ⟨u, hrun0, hscr0, -⟩ := runs_step (i := .cmd0) (ls := bringupSteps.drop 1 ++ ls) rfl .initCmd0 h hd h0
    hfits0 hrx
  obtain ⟨t, hrun8, hscr8, -⟩ := runs_step (i := .cmd8) (ls := bringupSteps.drop 2 ++ ls) rfl .initCmd8
    (hscr0.kept.running h) (hscr0.kept.depth hd) h8 (hscr0.kept.cfg ▸ hfits8) hscr0.rx
  exact ⟨t, ((hstart.trans hrun0).trans hrun8).mono (by omega), hscr0.trans hscr8⟩

end Sys2Proof.Machine

/-! ### The obligations of the framer and the decoders -/

namespace Sys2Proof.Proofs

open Sys2Proof Sys2Proof.Machine

/-- Settles O11: the frame register holds the six bytes that are sent. -/
theorem sendCommand : Obligations.SendCommand := by
  intro s idx arg c ins rest h hlen hrx
  refine ⟨frameBytes idx arg c, rfl, ?_⟩
  have hr := reaches_sendCommand (ls := []) (idx := idx) (arg := arg) (c := c) h le_rfl hlen hrx
  rw [List.reverse_append, List.append_assoc]
  exact perform_runs h hr (by omega) (.inl rfl)

/-- Settles O12: the poll's run where a byte matches and where none does; the default sets byte by byte. -/
theorem leadPoll : Obligations.LeadPoll := by
  refine ⟨fun s sh idx pre lead rest h hpoll hl hrx => ?_, fun s sh idx pre rest h hpoll hl hrx => ?_,
    leadMatches_default_r1, leadMatches_default_r1, leadMatches_default_r3⟩
  · obtain ⟨hpre, hlead, hlt⟩ := hl
    have hr := reaches_leadPoll (ls := []) (idx := idx) (r := rest) pre s h le_rfl hpre hlead (by omega)
      (by simpa using hrx)
    rw [show pre.length + 1 = s.dp.poll + pre.length + 1 by omega]
    exact perform_runs h hr (by simp [hrx]; omega) (.inl rfl)
  · obtain ⟨hpre, hlen⟩ := hl
    have hr := reaches_noLead (ls := []) (idx := idx) (r := rest) pre s h le_rfl hpre (by omega) hrx
    exact ⟨_, perform_runs h hr (by simp [hrx]; omega) (.inr rfl), rfl, afterHalt_exhausted ..⟩

/-- Settles O13: the decoder's run with no extra byte and with four; without a lead byte the decoders' halt. -/
theorem decodeR1 : Obligations.DecodeR1 := by
  intro n s idx hn h
  refine ⟨fun pre lead ext t rest hl hlen hrx => ?_, fun pre rest hl hrx => perform_decodeNoLead h hl hrx idx⟩
  simp only [List.append_assoc, List.singleton_append] at hrx ⊢
  rw [List.reverse_append]
  obtain rfl | rfl := hn
  · obtain rfl := List.length_eq_zero_iff.mp hlen
    exact perform_runs h (reaches_decodeR1 (ls := []) h le_rfl hl hrx) (by simp [hrx]; omega) (.inl rfl)
  · match ext, hlen with
    | [b0, b1, b2, b3], _ =>
      exact perform_runs h (reaches_decodeR1_four (ls := []) h le_rfl hl hrx) (by simp [hrx]; omega) (.inl rfl)

/-- Settles O14: the decoder's run; without a lead byte the decoders' halt. -/
theorem decodeR3 : Obligations.DecodeR3 := by
  intro s idx h
  refine ⟨fun pre lead o0 o1 o2 o3 t rest hl hrx => ?_, fun pre rest hl hrx => perform_decodeNoLead h hl hrx idx⟩
  rw [List.append_assoc] at hrx
  rw [List.reverse_append]
  exact perform_runs h (reaches_decodeR3 (ls := []) h le_rfl hl hrx) (by simp [hrx]; omega) (.inl rfl)

/-- Settles O15: the decoder's run; without a lead byte the decoders' halt. -/
theorem decodeR7 : Obligations.DecodeR7 := by
  intro s idx h
  refine ⟨fun pre lead r0 r1 r2 r3 t rest hl hrx => ?_, fun pre rest hl hrx => perform_decodeNoLead h hl hrx idx⟩
  rw [List.append_assoc] at hrx
  rw [List.reverse_append, ← low_nibble]
  exact perform_runs h (reaches_decodeR7 (ls := []) h le_rfl hl hrx) (by simp [hrx]; omega) (.inl rfl)

/-- Settles O26: steps 1 and 2 run by their scripts, then CMD59's frame finds no response. -/
theorem silentCmd59Halts : Obligations.SilentCmd59Halts := by
  intro s s0 s8 ins pre rest hstart h0 h8 hfits hlen hlead hrx
  have hu : s.bringupEntered.running := s.bringupEntered_running
  rw [List.append_assoc, List.append_assoc, ← List.append_assoc ins] at hrx
  obtain ⟨v, hrun, hscr⟩ := runs_bringupToCmd59 (ls := []) hu (Nat.zero_le _) h0 h8 hfits hrx
  have hv : v.running := hscr.kept.running hu
  obtain ⟨t, hrunsilent, hsilent⟩ := silent_frame (i := .cmd59) (ls := bringupSteps.drop 3) rfl hv (Nat.zero_le _)
    hlen (hscr.kept.cfg ▸ hlead) hscr.rx
  have hcall : Runs 0 1 (v.push (bringupSteps.drop 2)) (v.push (Entry.cmd59.frameLines ++ bringupSteps.drop 3)) :=
    (reaches_call (by simp) hv (Nat.zero_le _)).runs (by simp; omega)
  have hhalt := hsilent.afterHalt hscr.kept hscr.emits
  obtain ⟨hphase, -, -, hrxt, -⟩ := hsilent
  refine ⟨t, ?_, hrxt, hhalt⟩
  rw [exec_bringup_atStart hstart]
  exact perform_of_runs hu (((hrun.trans hcall).trans hrunsilent).mono (by omega)) (.inr hphase)

end Sys2Proof.Proofs

/-!
PROOF. The command catalog's statements (spec/42_command_catalog.md): each command but ACMD41 calls its own entry as a
unit, so that its answer decides its end as R172 to R183 say, and silence halts it (R147, R185).
-/

namespace Sys2Proof.Machine

/-! ### A command row as its catalog entry -/

/-- A command row performs its catalog entry as a unit. -/
theorem exec_of_entryOf {i : Instr} {e : Entry} (hi : entryOf i = some e) (s : State) :
    exec i s = s.perform [.catalog (.call e)] := by
  cases i <;> cases hi <;> rfl

/-- A command of one frame, answered: the unit returns from its entry. -/
theorem exec_answered {s : State} {i : Instr} {e : Entry} (hi : entryOf i = some e) (hne : i ≠ .acmd41)
    (h : s.running) {a : Answer} {r : List Byte} (hf : a.fits s.cfg i) (hrx : s.rx = a.bytes ++ r) :
    ∃ t, exec i s = .next t ∧ Answered s t i a r ∧ Responded s t i a := by
  obtain ⟨t, hrun, hans, hresp⟩ := answered_call (ls := []) hi (entryOf_ne_acmd41 hi hne) h le_rfl hf hrx
  rw [exec_of_entryOf hi]
  exact ⟨t, perform_of_runs h (hrun.mono (by omega)) (.inl hans.kept.seq), hans, hresp⟩

/-- A command answered with an R1 leaves `st.ocr` and the registers of an R7 as they were (R149). -/
theorem exec_answered_r1 {s : State} {i : Instr} {e : Entry} (hi : entryOf i = some e) (hsh : responseOf i = .r1 0)
    (h : s.running) {a : Answer} {r : List Byte} (hf : a.fits s.cfg i) (hrx : s.rx = a.bytes ++ r) :
    ∃ t, exec i s = .next t ∧ s.AfterCommand t i a r ∧ t.dp.ok = a.accepted i ∧ t.ocr = s.ocr ∧ t.dp.ext = [] ∧
      t.dp.va = s.dp.va ∧ t.dp.echo = s.dp.echo := by
  have hne : i ≠ .acmd41 := by rintro rfl; cases hsh
  obtain ⟨t, hexec, hans, hresp⟩ := exec_answered hi hne h hf hrx
  have hocr : t.ocr = s.ocr := hresp.ocr.trans (if_neg (by simp [hsh]))
  exact ⟨t, hexec, hans.after, hans.ok, hocr, hresp.ext, hresp.notR7 (by simp [hsh])⟩

/-- A command of one frame whose response does not come halts with its entry's index (R147, R185). -/
theorem silenceHalts_of_entryOf (i : Instr) {e : Entry} (hi : entryOf i = some e) (hne : i ≠ .acmd41) :
    SilenceHalts i e.idx := by
  intro s ins pre rest h hlen hlead hrx
  obtain ⟨t, hrun, hsilent⟩ := silent_frame (ls := []) hi h le_rfl hlen hlead hrx
  have hcall : Runs s.seq.length 1 (s.push [.catalog (.call e)]) (s.push (e.frameLines ++ [])) :=
    (reaches_call (entryOf_ne_acmd41 hi hne) h le_rfl).runs (by simp; omega)
  have hphase : t.phase = .halted := hsilent.1
  rw [exec_of_entryOf hi]
  exact ⟨t, perform_of_runs h ((hcall.trans hrun).mono (by omega)) (.inr hphase), hsilent⟩

/-! ### The acceptance tests and the OCR of an answer (R184, R150) -/

/-- CMD8's test reads the third and the fourth payload byte (R173). -/
theorem accepted_cmd8 {a : Answer} {r0 r1 r2 r3 : Byte} (hp : a.payload = [r0, r1, r2, r3]) :
    a.accepted .cmd8 = (a.trailer[0] && (r2.extractLsb' 0 4 == 0x1#4 && r3 == 0xAA)) := by
  simp only [Answer.accepted, hp]

theorem Answer.ocr_of_payload {a : Answer} {o0 o1 o2 o3 : Byte} (hp : a.payload = [o0, o1, o2, o3]) :
    a.ocr = o0 ++ o1 ++ o2 ++ o3 := by
  simp only [Answer.ocr, hp, wordOfBytesBE]

end Sys2Proof.Machine

/-! ### The obligations of the command catalog -/

namespace Sys2Proof.Proofs

open Sys2Proof Sys2Proof.Machine

/-- Settles O17: CMD0 is answered with an R1. -/
theorem cmd0Runs : Obligations.Cmd0Runs :=
  ⟨fun _ _ _ h hf hrx => exec_answered_r1 rfl rfl h hf hrx, silenceHalts_of_entryOf .cmd0 rfl nofun⟩

/-- Settles O18: CMD8 is answered with an R7, whose last two bytes its test reads. -/
theorem cmd8Runs : Obligations.Cmd8Runs := by
  refine ⟨fun s a r0 r1 r2 r3 rest h hf hp hrx => ?_, silenceHalts_of_entryOf .cmd8 rfl nofun⟩
  obtain ⟨t, hexec, hans, hresp⟩ := exec_answered (i := .cmd8) rfl nofun h hf hrx
  obtain ⟨hva, hecho⟩ := hresp.r7 r0 r1 r2 r3 rfl hp
  have hocr : t.ocr = s.ocr := hresp.ocr.trans (if_neg (by simp [responseOf]))
  exact ⟨t, hexec, hans.after, hans.ok.trans (accepted_cmd8 hp), hva, hecho, hocr, hresp.ext⟩

/-- Settles O19: CMD12 is answered with an R1, and its test takes any. -/
theorem cmd12Runs : Obligations.Cmd12Runs :=
  ⟨fun _ _ _ h hf hrx => exec_answered_r1 rfl rfl h hf hrx, silenceHalts_of_entryOf .cmd12 rfl nofun⟩

/-- Settles O20: all three are answered with an R1 and have CMD55's test. -/
theorem idleOrReadyCommandsRun : Obligations.IdleOrReadyCommandsRun := by
  refine ⟨fun i s a rest hi h hf hrx => ?_, silenceHalts_of_entryOf .cmd16 rfl nofun,
    silenceHalts_of_entryOf .cmd55 rfl nofun, silenceHalts_of_entryOf .cmd59 rfl nofun⟩
  rw [← accepted_cmd55 a]
  simp only [List.mem_cons, List.not_mem_nil, or_false] at hi
  obtain rfl | rfl | rfl := hi <;> exact exec_answered_r1 rfl rfl h hf hrx

/-- Settles O21: all four are answered with an R1 and have one test, whatever the address. -/
theorem dataCommandsRun : Obligations.DataCommandsRun := by
  refine ⟨fun x i s a rest hi h hf hrx => ?_, fun x => ⟨silenceHalts_of_entryOf (.cmd17 x) rfl nofun,
    silenceHalts_of_entryOf (.cmd18 x) rfl nofun, silenceHalts_of_entryOf (.cmd24 x) rfl nofun,
    silenceHalts_of_entryOf (.cmd25 x) rfl nofun⟩⟩
  simp only [List.mem_cons, List.not_mem_nil, or_false] at hi
  obtain rfl | rfl | rfl | rfl := hi <;> exact exec_answered_r1 rfl rfl h hf hrx

/-- Settles O23: CMD58 is answered with an R3, and its test is the end bit that writes the OCR. -/
theorem cmd58Runs : Obligations.Cmd58Runs := by
  refine ⟨fun s a o0 o1 o2 o3 rest h hf hp hrx => ?_, silenceHalts_of_entryOf .cmd58 rfl nofun⟩
  obtain ⟨t, hexec, hans, hresp⟩ := exec_answered (i := .cmd58) rfl nofun h hf hrx
  have hocr : t.ocr = if a.trailer[0] then some (o0 ++ o1 ++ o2 ++ o3) else s.ocr := by
    rw [hresp.ocr, Answer.ocr_of_payload hp]
    simp [responseOf]
  exact ⟨t, hexec, hans.after, hans.ok, hocr, hresp.ext, hresp.notR7 (by simp [responseOf])⟩

end Sys2Proof.Proofs

/-!
PROOF. Bring-up's statements (spec/43_bringup.md): `STEP` with the OCR its last attempt leaves, and its exhaustion; the
steps of bring-up in their order; and bring-up as a function of the parameters and the received bytes.
-/

namespace Sys2Proof.Machine

/-! ### An attempt with the mode and the OCR it leaves (R150, R152) -/

theorem responseOf_eq_r3_iff (i : Instr) : responseOf i = .r3 ↔ i = .acmd41 ∨ i = .cmd58 := by
  cases i <;> simp [responseOf]

/-- An accepted R3 has its end bit set (R181, R182). -/
theorem Answer.trailer_of_accepted {i : Instr} {a : Answer} (hsh : responseOf i = .r3) (h : a.accepted i = true) :
    a.trailer[0] = true := by
  obtain rfl | rfl := (responseOf_eq_r3_iff i).1 hsh
  · exact (Bool.and_eq_true_iff.1 h).1
  · exact h

theorem scriptEvents_append (cmds cmds' : List (Instr × Answer)) :
    scriptEvents (cmds ++ cmds') = scriptEvents cmds ++ scriptEvents cmds' := List.flatMap_append

theorem Scripted.refl {s : State} {rest : List Byte} (hrx : s.rx = rest) : Scripted s s [] rest :=
  ⟨State.Emits.refl s, hrx, Kept.refl s, rfl⟩

/-- What one or more attempts of the entry of `i` leave, `b` the result of the last. -/
structure Tried (s t : State) (i : Instr) (cmds : List (Instr × Answer)) (b : Bool) (rest : List Byte) : Prop where
  scripted : Scripted s t cmds rest
  ok : t.dp.ok = b
  csMode : t.csMode = .auto
  ocr : responseOf i ≠ .r3 → t.ocr = s.ocr
  ocr_r3 : responseOf i = .r3 → b = true → ∃ p, cmds.getLast? = some p ∧ t.ocr = some p.2.ocr

/-- Attempts that follow others, from which an entry with no R3 has its OCR unchanged. -/
theorem Tried.after {s u t : State} {i : Instr} {cmds cmds' : List (Instr × Answer)} {b : Bool} {rest rest' : List Byte}
    (h : Tried u t i cmds' b rest') (hscr : Scripted s u cmds rest) (hocr : responseOf i ≠ .r3 → u.ocr = s.ocr) :
    Tried s t i (cmds ++ cmds') b rest' := by
  refine ⟨hscr.trans h.scripted, h.ok, h.csMode, fun hsh => (h.ocr hsh).trans (hocr hsh), fun hsh hb => ?_⟩
  obtain ⟨p, hp, hocr'⟩ := h.ocr_r3 hsh hb
  exact ⟨p, by simp [List.getLast?_append, hp], hocr'⟩

theorem Answered.tried {s t : State} {i : Instr} {a : Answer} {rest : List Byte} (h : Answered s t i a rest)
    (hresp : Responded s t i a) : Tried s t i [(i, a)] (a.accepted i) rest := by
  obtain ⟨-, -, hcs, -⟩ := h.after
  refine ⟨h.scripted, h.ok, hcs, fun hsh => hresp.ocr.trans (if_neg fun hr3 => hsh hr3.1), fun hsh hacc =>
    ⟨_, rfl, hresp.ocr.trans (if_pos ⟨hsh, Answer.trailer_of_accepted hsh hacc⟩)⟩⟩

/-- One attempt of a catalog entry: `runs_attempt` with the mode and the OCR. -/
theorem runs_tried {s : State} {d : Nat} {ls : List Line} {i : Instr} {e : Entry} (hi : entryOf i = some e)
    (h : s.running) (hd : d ≤ s.seq.length) {cmds : List (Instr × Answer)} {b : Bool} {r : List Byte}
    (hresult : attemptResult i cmds = some b) (hfits : scriptFits s.cfg cmds) (hrx : s.rx = scriptBytes cmds ++ r) :
    ∃ t, Runs d (-300) (s.push (.catalog (.call e) :: ls)) (t.push ls) ∧ Tried s t i cmds b r ∧
      t.dp.attempt = s.dp.attempt := by
  obtain ⟨hne, a, rfl, rfl⟩ | ⟨rfl, a, rfl, hacc, rfl⟩ | ⟨rfl, a, a', rfl, hacc, rfl⟩ :=
    attemptResult_cases hresult
  · obtain ⟨t, hrun, hans, hresp⟩ := answered_call (ls := ls) hi (entryOf_ne_acmd41 hi hne) h hd
      (hfits (i, a) (by simp)) (by simpa [scriptBytes] using hrx)
    exact ⟨t, hrun, hans.tried hresp, hans.attempt⟩
  · cases hi
    obtain ⟨t, hrun, hans, hocr⟩ := answered_cmd55OfAcmd41 (ls := ls) h hd (hfits (.cmd55, a) (by simp))
      (by simpa [scriptBytes] using hrx)
    rw [if_neg (by simp [hacc])] at hrun
    obtain ⟨-, -, hcs, -⟩ := hans.after
    exact ⟨t, hrun, ⟨hans.scripted, hans.ok.trans hacc, hcs, fun _ => hocr, fun _ => nofun⟩, hans.attempt⟩
  · cases hi
    obtain ⟨u, hrun, hans, hocr⟩ := answered_cmd55OfAcmd41 (ls := ls) (r := a'.bytes ++ r) h hd
      (hfits (.cmd55, a) (by simp)) (by simpa [scriptBytes] using hrx)
    rw [if_pos hacc] at hrun
    obtain ⟨t, hrun', hans', hresp'⟩ := answered_frame (i := .acmd41) (ls := ls) rfl (hans.kept.running h)
      (hans.kept.depth hd) (hans.kept.cfg ▸ hfits (.acmd41, a') (by simp)) hans.scripted.rx
    exact ⟨t, (hrun.trans hrun').mono (by omega), (hans'.tried hresp').after hans.scripted fun _ => hocr,
      hans'.attempt.trans hans.attempt⟩

/-! ### `STEP` (R208, R209) -/

/-- Failed attempts that do not exhaust a step: it stands at the call of the next. -/
theorem runs_failedAttempts {d : Nat} {ls : List Line} {i : Instr} {e : Entry} (hi : entryOf i = some e)
    (code : FaultCode) {r : List Byte} (fails : List (List (Instr × Answer))) :
    ∀ (s : State), s.running → d ≤ s.seq.length → (∀ f ∈ fails, attemptResult i f = some false) →
      s.dp.attempt + fails.length ≤ cmdAttempts → scriptFits s.cfg fails.flatten →
      s.rx = scriptBytes fails.flatten ++ r →
      ∃ t, Runs d 0 (s.push (.catalog (.call e) :: .bringup (.stepTest e code) :: ls))
          (t.push (.catalog (.call e) :: .bringup (.stepTest e code) :: ls)) ∧
        Scripted s t fails.flatten r ∧ t.dp.attempt = s.dp.attempt + fails.length ∧
        (responseOf i ≠ .r3 → t.ocr = s.ocr) := by
  induction fails with
  | nil => exact fun s _ _ _ _ _ hrx => ⟨s, Runs.refl d _, Scripted.refl hrx, rfl, fun _ => rfl⟩
  | cons f fails ih =>
    intro s h hd hfail hcount hfits hrx
    rw [List.flatten_cons] at hfits hrx ⊢
    rw [scriptBytes_append, List.append_assoc] at hrx
    obtain ⟨hfitsf, hfits⟩ := scriptFits_append.mp hfits
    rw [List.length_cons] at hcount ⊢
    obtain ⟨u, hrun, htried, hattempt⟩ := runs_tried (ls := .bringup (.stepTest e code) :: ls) hi h hd
      (hfail f (by simp)) hfitsf hrx
    have hscr := htried.scripted
    have htest := runs_stepTest_retry (e := e) (code := code) (ls := ls) (hscr.kept.running h) (hscr.kept.depth hd)
      htried.ok (by omega)
    obtain ⟨t, hruns, hscrs, hattempts, hocr⟩ := ih (u.setDp fun d => { d with attempt := d.attempt + 1 })
      (hscr.kept.running h) (hscr.kept.depth hd) (fun f hf => hfail f (by simp [hf])) (by simp; omega)
      (hscr.kept.cfg ▸ hfits) hscr.rx
    exact ⟨t, ((hrun.trans htest).trans hruns).mono (by omega), hscr.trans hscrs.of_setDp,
      by simp only [State.setDp_dp] at hattempts; omega, fun hsh => (hocr hsh).trans (htried.ocr hsh)⟩

/-- A step to the test of an attempt that fewer than ten failed ones come before. -/
theorem runs_stepToTest {s : State} {d : Nat} {ls : List Line} {i : Instr} {e : Entry} (hi : entryOf i = some e)
    (code : FaultCode) (h : s.running) (hd : d ≤ s.seq.length) {fails : List (List (Instr × Answer))}
    {last : List (Instr × Answer)} {b : Bool} {r : List Byte} (hlen : fails.length < cmdAttempts)
    (hfail : ∀ f ∈ fails, attemptResult i f = some false) (hlast : attemptResult i last = some b)
    (hfits : scriptFits s.cfg (fails.flatten ++ last)) (hrx : s.rx = scriptBytes (fails.flatten ++ last) ++ r) :
    ∃ t, Runs d (-200) (s.push (.bringup (.step e code) :: ls)) (t.push (.bringup (.stepTest e code) :: ls)) ∧
      Tried s t i (fails.flatten ++ last) b r ∧ t.dp.attempt = fails.length + 1 := by
  obtain ⟨hfitsfails, hfitslast⟩ := scriptFits_append.mp hfits
  rw [scriptBytes_append, List.append_assoc] at hrx
  have hfirst : Runs d 1 (s.push (.bringup (.step e code) :: ls)) ((s.setDp fun d => { d with attempt := 1 }).push
      (.catalog (.call e) :: .bringup (.stepTest e code) :: ls)) := runs_go h hd rfl rfl
  obtain ⟨u, hrun, hscr, hattempt, hocr⟩ := runs_failedAttempts (ls := ls) hi code fails
    (s.setDp fun d => { d with attempt := 1 }) h hd hfail (by simp; omega) hfitsfails hrx
  obtain ⟨t, hrun', htried, hattempt'⟩ := runs_tried (ls := .bringup (.stepTest e code) :: ls) hi
    (hscr.kept.running h) (hscr.kept.depth hd) hlast (hscr.kept.cfg ▸ hfitslast) hscr.rx
  exact ⟨t, ((hfirst.trans hrun).trans hrun').mono (by omega), htried.after hscr.of_setDp hocr,
    by simp only [State.setDp_dp] at hattempt; omega⟩

/-- A step that succeeds: `runs_step` with the mode and the OCR. -/
theorem runs_stepTried {s : State} {d : Nat} {ls : List Line} {i : Instr} {e : Entry} (hi : entryOf i = some e)
    (code : FaultCode) (h : s.running) (hd : d ≤ s.seq.length) {cmds : List (Instr × Answer)} {r : List Byte}
    (hstep : StepScript i cmds) (hfits : scriptFits s.cfg cmds) (hrx : s.rx = scriptBytes cmds ++ r) :
    ∃ t, Runs d (-100) (s.push (.bringup (.step e code) :: ls)) (t.push ls) ∧ Tried s t i cmds true r := by
  obtain ⟨fails, last, rfl, hlen, hfail, hlast⟩ := hstep
  obtain ⟨t, hrun, htried, -⟩ := runs_stepToTest (ls := ls) hi code h hd hlen hfail hlast hfits hrx
  have hkept := htried.scripted.kept
  have htest := runs_stepTest_ok (e := e) (code := code) (ls := ls) (hkept.running h) (hkept.depth hd) htried.ok
  exact ⟨t, (hrun.trans htest).mono (by omega), htried⟩

/-- After the tenth failed attempt a step raises its own code (R209). -/
theorem runs_stepTest_exhausted {s : State} {d : Nat} {ls : List Line} {e : Entry} {code : FaultCode} (h : s.running)
    (hd : d ≤ s.seq.length) (hok : s.dp.ok = false) (hattempt : s.dp.attempt = cmdAttempts) :
    Runs d 2 (s.push (.bringup (.stepTest e code) :: ls))
      ((s.raiseFatal { code := code, attempt := some (attemptNo cmdAttempts) }).push ls) := by
  have htest : Runs d 1 (s.push (.bringup (.stepTest e code) :: ls))
      (s.push (.halt (.raise { code := code, attempt := some (attemptNo cmdAttempts) }) :: ls)) :=
    runs_go h hd (by simp [Line.act, BringupLine.act, hok, hattempt]) rfl
  exact htest.trans (runs_go h hd rfl rfl)

/-- A step that is exhausted: nine failed attempts, and the tenth. -/
theorem runs_stepExhausted {s : State} {d : Nat} {ls : List Line} {i : Instr} {e : Entry} (hi : entryOf i = some e)
    (code : FaultCode) (h : s.running) (hd : d ≤ s.seq.length) {cmds : List (Instr × Answer)} {r : List Byte}
    (hstep : StepExhausted i cmds) (hfits : scriptFits s.cfg cmds) (hrx : s.rx = scriptBytes cmds ++ r) :
    ∃ t, Runs d (-100) (s.push (.bringup (.step e code) :: ls))
        ((t.raiseFatal { code := code, attempt := some (attemptNo cmdAttempts) }).push ls) ∧
      Tried s t i cmds false r := by
  obtain ⟨fails, rfl, hlen, hfail⟩ := hstep
  obtain rfl | ⟨nine, tenth, rfl⟩ := fails.eq_nil_or_concat
  · cases hlen
  simp only [List.concat_eq_append, List.length_append, List.length_singleton, List.flatten_append,
    List.flatten_singleton] at hlen hfail hfits hrx ⊢
  obtain ⟨t, hrun, htried, hattempt⟩ := runs_stepToTest (ls := ls) hi code h hd (by omega)
    (fun f hf => hfail f (by simp [hf])) (hfail tenth (by simp)) hfits hrx
  have hkept := htried.scripted.kept
  have htest := runs_stepTest_exhausted (e := e) (code := code) (ls := ls) (hkept.running h) (hkept.depth hd) htried.ok
    (by omega)
  exact ⟨t, (hrun.trans htest).mono (by omega), htried⟩

/-! ### The steps of bring-up in their order (R200 to R207) -/

theorem Kept.withCap {s t : State} (h : Kept s t) (cap : Capacity) : Kept { s with cap := cap } { t with cap := cap } :=
  ⟨h.cfg, h.phase, rfl, h.blockLen, h.ready, h.fault, h.guard, h.pending, h.seq, h.inputs, h.arbTurn, h.opWord, h.port,
    h.req⟩

theorem Kept.emit (s : State) (e : Event) : Kept s (s.emit e) :=
  ⟨rfl, rfl, rfl, rfl, rfl, rfl, rfl, rfl, rfl, rfl, rfl, rfl, rfl, rfl⟩

/-- What bring-up's steps so far leave, from `s` to `t`: everything but the capacity class, the OCR and the registers as
it was. -/
structure BroughtUp (s t : State) (cap : Capacity) (es : List Event) (rest : List Byte) : Prop where
  kept : Kept s { t with cap := s.cap }
  mem : t.mem = s.mem
  emits : s.Emits t es
  rx : t.rx = rest
  csMode : t.csMode = .auto
  cap : t.cap = cap

theorem BroughtUp.running {s t : State} {cap : Capacity} {es : List Event} {rest : List Byte}
    (hb : BroughtUp s t cap es rest) (h : s.running) : t.running := hb.kept.running h

theorem BroughtUp.depth {s t : State} {cap : Capacity} {es : List Event} {rest : List Byte}
    (hb : BroughtUp s t cap es rest) {d : Nat} (hd : d ≤ s.seq.length) : d ≤ t.seq.length := hb.kept.depth hd

theorem BroughtUp.withCap {s t : State} {cap : Capacity} {es : List Event} {rest : List Byte}
    (hb : BroughtUp s t cap es rest) (cap' : Capacity) : BroughtUp s { t with cap := cap' } cap' es rest :=
  ⟨hb.kept, hb.mem, hb.emits, hb.rx, hb.csMode, rfl⟩

theorem BroughtUp.scripted {s t u : State} {cap : Capacity} {es : List Event} {rest rest' : List Byte}
    {cmds : List (Instr × Answer)} (hb : BroughtUp s t cap es rest) (h : Scripted t u cmds rest')
    (hcs : u.csMode = .auto) : BroughtUp s u cap (es ++ scriptEvents cmds) rest' := by
  obtain ⟨hemits, hrx, hk, hmem⟩ := h
  exact ⟨hb.kept.trans (hk.withCap s.cap), hmem.trans hb.mem, hb.emits.trans hemits, hrx, hcs, hk.cap.trans hb.cap⟩

section
variable {s t : State} {d : Nat} {ls : List Line} {cap : Capacity} {es : List Event} {r : List Byte}

/-- A further step of bring-up, which succeeds. -/
theorem BroughtUp.runs_step {cmds : List (Instr × Answer)} (hb : BroughtUp s t cap es (scriptBytes cmds ++ r))
    {i : Instr} {e : Entry} (hi : entryOf i = some e) (code : FaultCode) (h : s.running) (hd : d ≤ s.seq.length)
    (hstep : StepScript i cmds) (hfits : scriptFits s.cfg cmds) :
    ∃ u, Runs d (-100) (t.push (.bringup (.step e code) :: ls)) (u.push ls) ∧
      BroughtUp s u cap (es ++ scriptEvents cmds) r ∧ Tried t u i cmds true r := by
  have hcfg : t.cfg = s.cfg := hb.kept.cfg
  obtain ⟨u, hrun, htried⟩ := runs_stepTried (ls := ls) hi code (hb.running h) (hb.depth hd) hstep (hcfg ▸ hfits) hb.rx
  exact ⟨u, hrun, hb.scripted htried.scripted htried.csMode, htried⟩

/-- Step 5 (R205): CMD58 and the class of its OCR where the probe is on, nothing where it is off. -/
theorem BroughtUp.runs_probe {s58 : List (Instr × Answer)}
    (hb : BroughtUp s t .standard es (scriptBytes s58 ++ r)) (h : s.running) (hd : d ≤ s.seq.length)
    (hon : s.cfg.ocrProbe = true → StepScript .cmd58 s58 ∧
      ∃ p, s58.getLast? = some p ∧ cap = if p.2.ocr[30] then .high else .standard)
    (hoff : s.cfg.ocrProbe = false → s58 = [] ∧ cap = .standard) (hfits : scriptFits s.cfg s58) :
    ∃ u, Runs d 1 (t.push (.bringup .probe :: ls)) (u.push ls) ∧ BroughtUp s u cap (es ++ scriptEvents s58) r := by
  have hcfg : t.cfg = s.cfg := hb.kept.cfg
  cases hprobe : s.cfg.ocrProbe with
  | false =>
    obtain ⟨rfl, rfl⟩ := hoff hprobe
    have hskip : Runs d 1 (t.push (.bringup .probe :: ls)) (t.push ls) :=
      runs_go (hb.running h) (hb.depth hd) (by simp [Line.act, BringupLine.act, hcfg, hprobe]) rfl
    exact ⟨t, hskip, by simpa [scriptEvents, scriptBytes] using hb⟩
  | true =>
    obtain ⟨hstep, p, hlast, rfl⟩ := hon hprobe
    have hcall : Runs d 1 (t.push (.bringup .probe :: ls))
        (t.push (.bringup (.step .cmd58 .initCmd58) :: .bringup .capFromOcr :: ls)) :=
      runs_go (hb.running h) (hb.depth hd) (by simp [Line.act, BringupLine.act, hcfg, hprobe]) rfl
    obtain ⟨u, hrun, hbu, htried⟩ := hb.runs_step (i := .cmd58) (ls := .bringup .capFromOcr :: ls) rfl .initCmd58 h hd
      hstep hfits
    obtain ⟨p', hlast', hocr⟩ := htried.ocr_r3 rfl rfl
    obtain rfl : p = p' := Option.some.inj (hlast.symm.trans hlast')
    have hcap : Runs d 1 (u.push (.bringup .capFromOcr :: ls))
        (({ u with cap := capacityOf p.2.ocr } : State).push ls) :=
      runs_go (hbu.running h) (hbu.depth hd) (by simp [Line.act, BringupLine.act, hocr, State.push]) rfl
    exact ⟨_, ((hcall.trans hrun).trans hcap).mono (by omega), hbu.withCap _⟩

/-- Step 6 (R206): CMD16 for a STANDARD card, nothing for a HIGH one. -/
theorem BroughtUp.runs_blockLen {s16 : List (Instr × Answer)} (hb : BroughtUp s t cap es (scriptBytes s16 ++ r))
    (h : s.running) (hd : d ≤ s.seq.length) (hstandard : cap = .standard → StepScript .cmd16 s16)
    (hhigh : cap = .high → s16 = []) (hfits : scriptFits s.cfg s16) :
    ∃ u, Runs d 1 (t.push (.bringup .blockLen :: ls)) (u.push ls) ∧ BroughtUp s u cap (es ++ scriptEvents s16) r := by
  have hcap : t.cap = cap := hb.cap
  cases cap with
  | high =>
    obtain rfl := hhigh rfl
    have hskip : Runs d 1 (t.push (.bringup .blockLen :: ls)) (t.push ls) :=
      runs_go (hb.running h) (hb.depth hd) (by simp [Line.act, BringupLine.act, hcap]) rfl
    exact ⟨t, hskip, by simpa [scriptEvents, scriptBytes] using hb⟩
  | standard =>
    have hcall : Runs d 1 (t.push (.bringup .blockLen :: ls)) (t.push (.bringup (.step .cmd16 .initCmd16) :: ls)) :=
      runs_go (hb.running h) (hb.depth hd) (by simp [Line.act, BringupLine.act, hcap]) rfl
    obtain ⟨u, hrun, hbu, -⟩ := hb.runs_step (i := .cmd16) (ls := ls) rfl .initCmd16 h hd (hstandard rfl) hfits
    exact ⟨u, (hcall.trans hrun).mono (by omega), hbu⟩

/-- What step 3 adds where CMD59 fails (R203, R314). -/
def cmd59Diag (a : Answer) : List Event := if a.accepted .cmd59 then [] else [.diag .cmd59Unsupported]

/-- Step 3 (R203): CMD59 answered, and the diagnostic where it fails. -/
theorem runs_cmd59 (h : t.running) (hd : d ≤ t.seq.length) {a : Answer} (hfits : a.fits t.cfg .cmd59)
    (hrx : t.rx = a.bytes ++ r) :
    ∃ u, Runs d (-100) (t.push (.catalog (.call .cmd59) :: .bringup .diagTest :: ls)) (u.push ls) ∧ Kept t u ∧
      u.mem = t.mem ∧ t.Emits u (a.events .cmd59 ++ cmd59Diag a) ∧ u.rx = r ∧ u.csMode = .auto := by
  obtain ⟨u, hrun, hans, -⟩ := answered_call (i := .cmd59) (ls := .bringup .diagTest :: ls) rfl nofun h hd hfits hrx
  have hk := hans.kept
  obtain ⟨hemits, hrxu, hcs, -⟩ := hans.after
  cases hacc : a.accepted .cmd59 with
  | true =>
    have htest : Runs d 1 (u.push (.bringup .diagTest :: ls)) (u.push ls) :=
      runs_go (hk.running h) (hk.depth hd) (by simp [Line.act, BringupLine.act, hans.ok, hacc]) rfl
    exact ⟨u, (hrun.trans htest).mono (by omega), hk, hans.mem, by simpa [cmd59Diag, hacc] using hemits, hrxu, hcs⟩
  | false =>
    have htest : Runs d 1 (u.push (.bringup .diagTest :: ls)) ((u.emit (.diag .cmd59Unsupported)).push ls) :=
      runs_go (hk.running h) (hk.depth hd) (by simp [Line.act, BringupLine.act, hans.ok, hacc]) rfl
    have hdiag : u.Emits (u.emit (.diag .cmd59Unsupported)) [.diag .cmd59Unsupported] := rfl
    exact ⟨_, (hrun.trans htest).mono (by omega), hk.trans (Kept.emit u _), hans.mem,
      by simpa [cmd59Diag, hacc] using hemits.trans hdiag, hrxu, hcs⟩

/-- Steps 1 to 3 and the first three lines of `BRINGUP`: to the line of step 4. -/
theorem runs_bringupToAcmd41 (h : s.running) (hd : d ≤ s.seq.length) {s0 s8 : List (Instr × Answer)} {a59 : Answer}
    (h0 : StepScript .cmd0 s0) (h8 : StepScript .cmd8 s8) (hfits : scriptFits s.cfg (s0 ++ s8 ++ [(.cmd59, a59)]))
    (hrx : s.rx = scriptBytes (s0 ++ s8 ++ [(.cmd59, a59)]) ++ r) :
    ∃ t, Runs d (-100) (s.push (.bringup .start :: ls)) (t.push (bringupSteps.drop 4 ++ ls)) ∧
      BroughtUp s t s.cap (scriptEvents (s0 ++ s8 ++ [(.cmd59, a59)]) ++ cmd59Diag a59) r := by
  obtain ⟨hfits08, hfits59⟩ := scriptFits_append.mp hfits
  rw [scriptBytes_append, List.append_assoc] at hrx
  obtain ⟨u, hrun, hscr⟩ := runs_bringupToCmd59 (ls := ls) h hd h0 h8 hfits08 hrx
  obtain ⟨t, hrun59, hkept, hmem, hemits, hrxt, hcs⟩ := runs_cmd59 (r := r) (ls := bringupSteps.drop 4 ++ ls)
    (hscr.kept.running h) (hscr.kept.depth hd) (hscr.kept.cfg ▸ hfits59 (.cmd59, a59) (by simp))
    (by simpa [scriptBytes] using hscr.rx)
  have hk := hscr.kept.trans hkept
  refine ⟨t, (hrun.trans hrun59).mono (by omega), hk.withCap s.cap, hmem.trans hscr.mem, ?_, hrxt, hcs, hk.cap⟩
  simpa [scriptEvents] using hscr.emits.trans hemits

/-- Step 4, then the class STANDARD until the OCR is read (R204, R205). -/
theorem BroughtUp.runs_powerUp {s41 : List (Instr × Answer)} (hb : BroughtUp s t cap es (scriptBytes s41 ++ r))
    (h : s.running) (hd : d ≤ s.seq.length) (hstep : StepScript .acmd41 s41) (hfits : scriptFits s.cfg s41) :
    ∃ u, Runs d (-99) (t.push (.bringup (.step .acmd41 .initAcmd41) :: .bringup .capDefault :: ls)) (u.push ls) ∧
      BroughtUp s u .standard (es ++ scriptEvents s41) r := by
  obtain ⟨u, hrun, hbu, -⟩ := hb.runs_step (i := .acmd41) (ls := .bringup .capDefault :: ls) rfl .initAcmd41 h hd hstep
    hfits
  have hdefault : Runs d 1 (u.push (.bringup .capDefault :: ls)) (({ u with cap := .standard } : State).push ls) :=
    runs_go (hbu.running h) (hbu.depth hd) rfl rfl
  exact ⟨_, hrun.trans hdefault, hbu.withCap .standard⟩

end

/-! ### Bring-up and what it does not read (R210) -/

/-- What bring-up neither reads nor writes: the hosts' memory, what is outside the core, and the events so far. -/
structure Surroundings where
  mem : Memory
  inputs : List Input
  arbTurn : Nat
  port : RequestPort
  past : List Event

/-- The surroundings of `s`. -/
def State.surroundings (s : State) : Surroundings := ⟨s.mem, s.inputs, s.arbTurn, s.port, s.trace⟩

/-- `s` moved into other surroundings, its own events after theirs. -/
def State.within (o : Surroundings) (s : State) : State :=
  { s with mem := o.mem, inputs := o.inputs, arbTurn := o.arbTurn, port := o.port, trace := s.trace ++ o.past }

/-- What a line does, in other surroundings. -/
def Act.within (o : Surroundings) : Act → Act
  | .go s => .go (s.within o)
  | .exchange out next => .exchange out fun b => (next b).within o
  | .stop f => .stop f

/-- The outcome of a step or a run, in other surroundings. -/
def outcomeWithin (o : Surroundings) : Host.Outcome State Fault Refusal → Host.Outcome State Fault Refusal
  | .next s => .next (s.within o)
  | .fault f => .fault f
  | .refused r => .refused r

section
variable (o : Surroundings) (s : State)

@[simp] theorem State.within_ocr : (s.within o).ocr = s.ocr := rfl
@[simp] theorem State.within_rx : (s.within o).rx = s.rx := rfl

@[simp] theorem Act.within_recv (next : Byte → State) :
    (Act.recv next).within o = .recv fun b => (next b).within o := rfl

@[simp] theorem State.unitOver_within (d : Nat) : (s.within o).unitOver d = s.unitOver d := rfl

/-! The lines of the framer, the decoders, the catalog, bring-up and a halt do the same in any surroundings. -/

theorem FramerLine.act_within (l : FramerLine) : l.act (s.within o) = (l.act s).within o := by
  cases l with
  | issue => simp only [FramerLine.act, apply_ite (Act.within o)]; rfl
  | hold => rfl
  | send n =>
    refine congrArg (Act.exchange _) (funext fun _ => ?_)
    split <;> rfl

theorem DecoderLine.act_within (l : DecoderLine) : l.act (s.within o) = (l.act s).within o := by
  cases l with
  | poll =>
    simp only [DecoderLine.act, apply_ite (Act.within o), Act.within_recv, apply_ite (State.within o)]
    rfl
  | start | payload | trailer | auto | judge => rfl

theorem CatalogLine.act_within (l : CatalogLine) : l.act (s.within o) = (l.act s).within o := by
  cases l with
  | call e => cases e <;> rfl
  | afterPrefix => simp only [CatalogLine.act, apply_ite (Act.within o)]; rfl
  | accept => rfl

theorem BringupLine.act_within (l : BringupLine) : l.act (s.within o) = (l.act s).within o := by
  cases l with
  | stepTest | diagTest | probe | blockLen => simp only [BringupLine.act, apply_ite (Act.within o)]; rfl
  | capFromOcr => simp only [BringupLine.act, State.within_ocr]; split <;> rfl
  | start | step | capDefault | finish => rfl

theorem HaltLine.act_within (l : HaltLine) : l.act (s.within o) = (l.act s).within o := by
  cases l <;> rfl

/-- A line that may stand in bring-up does the same in any surroundings. -/
theorem Line.act_within {l : Line} (hl : l.shared = true ∨ ∃ b, l = .bringup b) :
    l.act (s.within o) = (l.act s).within o := by
  cases l with
  | framer l => exact l.act_within o s
  | decoder l => exact l.act_within o s
  | catalog l => exact l.act_within o s
  | bringup l => exact l.act_within o s
  | halt l => exact l.act_within o s
  | block | transfer | host => simp [Line.shared] at hl

theorem Act.perform_within (a : Act) : (a.within o).perform (s.within o) = outcomeWithin o (a.perform s) := by
  cases a with
  | go | stop => rfl
  | exchange out next =>
    simp only [Act.within, Act.perform, State.within_rx]
    split <;> rfl

end

/-- Above the end of bring-up stand shared lines and bring-up's own. -/
theorem Line.shared_or_bringup {l : Line} (h : l.ofBringup = true) : l.shared = true ∨ ∃ b, l = .bringup b := by
  cases l with
  | bringup b => exact .inr ⟨b, rfl⟩
  | framer | decoder | catalog | halt => exact .inl rfl
  | block | transfer | host => cases h

/-- The current line of bring-up is shared with the transfers or bring-up's own. -/
theorem State.Disciplined.bringup_current {s : State} (hd : s.Disciplined) (hp : s.phase = .bringup) :
    ∃ l rest, s.seq = l :: rest ∧ (l.shared = true ∨ ∃ b, l = .bringup b) ∧
      ((l = .bringup .start ∧ rest = []) ∨ (l = .bringup .finish ∧ rest = []) ∨ l.ofBringup = true) := by
  have hr : s.running := by rw [State.running, hp]; decide
  cases hs : s.seq with
  | nil =>
    rw [hd.ready_of_seq_nil hr hs] at hp
    cases hp
  | cons l rest =>
    obtain ⟨-, hl⟩ | ⟨hbusy, -⟩ := hd.current hr hs
    · refine ⟨l, rest, rfl, ?_, hl.imp_right (Or.imp_right And.left)⟩
      obtain ⟨rfl, -⟩ | ⟨rfl, -⟩ | ⟨hof, -⟩ := hl
      · exact .inr ⟨_, rfl⟩
      · exact .inr ⟨_, rfl⟩
      · exact Line.shared_or_bringup hof
    · rw [hbusy] at hp
      cases hp

/-- A step of bring-up stays in bring-up, or its unit is over: READY with no line left, or HALTED. -/
theorem State.Disciplined.bringup_tick {s t : State} (hd : s.Disciplined) (hp : s.phase = .bringup)
    (h : Machine.tick s = .next t) : t.phase = .bringup ∨ t.unitOver 0 = true := by
  obtain ⟨l, rest, hs, -, hl⟩ := hd.bringup_current hp
  refine tick_keeps (P := fun u => u.phase = .bringup ∨ u.unitOver 0 = true) h (.inl hp) (fun _ _ _ _ hu => hu)
    (fun _ => .inl rfl) (fun _ hnil => by rw [hs] at hnil; cases hnil) fun l' rest' u _ hs' hu => ?_
  obtain ⟨rfl, rfl⟩ : l = l' ∧ rest = rest' := List.cons.inj (hs.symm.trans hs')
  obtain ⟨rfl, -⟩ | ⟨rfl, rfl⟩ | hof := hl
  · cases hu
    exact .inl hp
  · cases hu
    exact .inr rfl
  · obtain hplain | ⟨r, rfl⟩ := Line.plain_of_ofBringup hof
    · exact .inl ((acted l _ u hplain hu).phase.trans hp)
    · cases hu
      exact .inr ((State.unitOver_iff ..).2 (.inr rfl))

/-- A step of bring-up is the same in any surroundings. -/
theorem State.Disciplined.tick_within {s : State} (hd : s.Disciplined) (hp : s.phase = .bringup) (o : Surroundings) :
    Machine.tick (s.within o) = outcomeWithin o (Machine.tick s) := by
  obtain ⟨l, rest, hs, hl, -⟩ := hd.bringup_current hp
  have htick : ∀ u : State, u.phase = .bringup → u.seq = l :: rest →
      Machine.tick u = (l.act { u with seq := rest }).perform u := fun u hpu hsu => by
    simp only [Machine.tick, hpu, hsu]
  rw [htick s hp hs, htick (s.within o) hp hs, ← Act.perform_within, ← Line.act_within o _ hl]
  rfl

/-- Bring-up as a unit is the same in any surroundings. -/
theorem State.Disciplined.runUnit_within (o : Surroundings) (fuel : Nat) {s : State} (hd : s.Disciplined)
    (hp : s.phase = .bringup ∨ s.unitOver 0 = true) :
    runUnit fuel 0 (s.within o) = outcomeWithin o (runUnit fuel 0 s) := by
  induction fuel generalizing s with
  | zero => rfl
  | succ fuel ih =>
    cases hover : s.unitOver 0 with
    | true => rw [runUnit_over hover, runUnit_over ((State.unitOver_within o s 0).trans hover)]; rfl
    | false =>
      have hbringup : s.phase = .bringup := hp.resolve_right (by simp [hover])
      simp only [runUnit, State.unitOver_within, hover, hd.tick_within hbringup o]
      cases ht : Machine.tick s with
      | next t => exact ih (hd.tick ht) (hd.bringup_tick hbringup ht)
      | fault | refused => rfl

/-- Bring-up out of reset is a function of the parameters and the received bytes, in the surroundings it has. -/
theorem exec_bringup_assertReset (s : State) (bytes : List Byte) :
    exec .bringup { s.assertReset with rx := bytes } =
      outcomeWithin s.surroundings (exec .bringup { State.resetWith s.cfg with rx := bytes }) := by
  rw [exec_bringup_atStart rfl, exec_bringup_atStart rfl]
  have hd : (({ State.resetWith s.cfg with rx := bytes } : State).bringupEntered.push [.bringup .start]).Disciplined :=
    (State.disciplined_bringup_iff rfl).2 ⟨rfl, .inl rfl, rfl, rfl⟩
  exact hd.runUnit_within s.surroundings _ (.inl rfl)

end Sys2Proof.Machine

/-! ### The obligations of bring-up -/

namespace Sys2Proof.Proofs

open Sys2Proof Sys2Proof.Machine

/-- Settles O24: each of the five steps is `STEP` of its entry, which returns after the accepted attempt or raises after
the tenth failed one. -/
theorem stepRetries : Obligations.StepRetries := by
  intro i e code s cmds rest hmem h hfits hrx
  have hi : entryOf i = some e := by
    simp only [List.mem_cons, Prod.mk.injEq, List.not_mem_nil, or_false] at hmem
    obtain ⟨rfl, rfl, -⟩ | ⟨rfl, rfl, -⟩ | ⟨rfl, rfl, -⟩ | ⟨rfl, rfl, -⟩ | ⟨rfl, rfl, -⟩ := hmem <;> rfl
  refine ⟨fun hstep => ?_, fun hstep => ?_⟩
  · obtain ⟨t, hrun, htried⟩ := runs_stepTried (ls := []) hi code h le_rfl hstep hfits hrx
    obtain ⟨hemits, hrxt, hkept, hmem⟩ := htried.scripted
    refine ⟨t, perform_of_runs h (hrun.mono (by omega)) (.inl hkept.seq), hemits, hrxt, htried.csMode, hkept.seq,
      hkept.sameOutside hmem, htried.ok, fun h3 => ?_, fun h41 h58 => htried.ocr ?_⟩
    · obtain ⟨p, hp, hocr⟩ := htried.ocr_r3 ((responseOf_eq_r3_iff i).2 h3) rfl
      rw [hocr, hp, Option.map_some]
    · rw [Ne, responseOf_eq_r3_iff, not_or]
      exact ⟨h41, h58⟩
  · obtain ⟨t, hrun, htried⟩ := runs_stepExhausted (ls := []) hi code h le_rfl hstep hfits hrx
    obtain ⟨hemits, hrxt, hkept, -⟩ := htried.scripted
    refine ⟨_, perform_of_runs h (hrun.mono (by omega)) (.inr rfl), hrxt, rfl, rfl, ?_, htried.csMode, hkept.guard,
      hkept.pending, hkept.cap, hkept.ready⟩
    exact hemits.trans (u := t.raiseFatal _) (fs := [.halt _]) rfl

/-- Settles O25: the steps run in their order, each from what the one before has left. -/
theorem bringupReachesReady : Obligations.BringupReachesReady := by
  intro s s0 s8 s41 s58 s16 a59 cap rest hstart h0 h8 h41 hon hoff hstandard hhigh hfits hrx
  have hs : s.bringupEntered.running := s.bringupEntered_running
  obtain ⟨hfits, hfits16⟩ := scriptFits_append.mp hfits
  obtain ⟨hfits, hfits58⟩ := scriptFits_append.mp hfits
  obtain ⟨hfits59, hfits41⟩ := scriptFits_append.mp hfits
  rw [scriptBytes_append, List.append_assoc, scriptBytes_append, List.append_assoc, scriptBytes_append,
    List.append_assoc] at hrx
  obtain ⟨t3, hrun3, hb3⟩ := runs_bringupToAcmd41 (ls := []) hs (Nat.zero_le _) h0 h8 hfits59 hrx
  obtain ⟨t4, hrun4, hb4⟩ := hb3.runs_powerUp (ls := bringupSteps.drop 6) hs (Nat.zero_le _) h41 hfits41
  obtain ⟨t5, hrun5, hb5⟩ := hb4.runs_probe (ls := bringupSteps.drop 7) hs (Nat.zero_le _) hon hoff hfits58
  obtain ⟨t6, hrun6, hb6⟩ := hb5.runs_blockLen (ls := bringupSteps.drop 8) hs (Nat.zero_le _) hstandard hhigh hfits16
  have hfinish : Runs 0 1 (t6.push (bringupSteps.drop 8)) { t6 with ready := true, phase := .ready } :=
    runs_go (ls := []) (hb6.running hs) (Nat.zero_le _) rfl rfl
  have hk := hb6.kept
  refine ⟨{ t6 with ready := true, phase := .ready }, ?_, rfl, rfl, hb6.cap, hk.blockLen, hb6.csMode, hk.seq, hb6.rx,
    ?_, hk.cfg, hk.fault, hk.guard, hk.pending, hk.req, fun x => congrArg (Memory.read · x) hb6.mem, hk.inputs, hk.opWord,
    hk.port⟩
  · rw [exec_bringup_atStart hstart]
    exact perform_of_runs hs (((((hrun3.trans hrun4).trans hrun5).trans hrun6).trans hfinish).mono (by omega))
      (.inl hk.seq)
  · have hemits := hb6.emits
    simp only [scriptEvents_append, cmd59Diag, List.append_assoc] at hemits ⊢
    exact hemits

/-- Settles O27: both runs are the run from power-up with the same parameters and bytes, moved into surroundings of
their own. -/
theorem bringupDependsOnAnswersOnly : Obligations.BringupDependsOnAnswersOnly := by
  intro u v t bytes hcfg h
  rw [exec_bringup_assertReset, hcfg] at h
  cases hrun : exec .bringup { State.resetWith v.cfg with rx := bytes } with
  | next w =>
    rw [hrun] at h
    cases h
    exact ⟨w.within v.surroundings, w.trace, by rw [exec_bringup_assertReset, hrun]; rfl, rfl, rfl, rfl, rfl, rfl, rfl,
      rfl, rfl⟩
  | fault | refused => rw [hrun] at h; cases h

end Sys2Proof.Proofs

/-!
PROOF. The block transfers' statements (spec/44_block_transfer.md): the polls and blocks of a data phase, each as a
unit; then the four transfers of a served request, to their return and to each of their halts.
-/

namespace Sys2Proof.Machine

/-! ### The polls (R222, R224, R232) -/

theorem dataAccepted_iff (b : Byte) : dataAccepted b = true ↔ b.extractLsb' 0 4 = 0b0101#4 := by
  simp [dataAccepted, low_nibble]

/-- The busy bytes of a wait without a bound: it goes on (R232, R350). -/
theorem reaches_busySkips {s : State} {d : Nat} {ls : List Line} (idx : CmdIndex) {pre r : List Byte} (h : s.running)
    (hd : d ≤ s.seq.length) (hpre : ∀ b ∈ pre, b ≠ 0xFF) (hmax : s.cfg.busyPollMax = none) (hrx : s.rx = pre ++ r) :
    Reaches d (pre.length + 1) (s.push (.block (.busyStart idx) :: ls))
      (((s.setDp fun d => { d with poll := pre.length }).wire (receives pre) r).push (.block (.busy idx) :: ls)) := by
  have hstart : Reaches d 1 (s.push (.block (.busyStart idx) :: ls))
      ((s.setDp fun d => { d with poll := 0 }).push (.block (.busy idx) :: ls)) := reaches_go h hd rfl
  have hskips := reaches_skips (d := d) (ls := ls) (l := .block (.busy idx)) (cfg := s.cfg) (skip := (· ≠ 0xFF))
    (max := pre.length) r (fun u b t h hd hb _ hcfg hrx => reaches_skip h hd
      (if_neg (by simp [busyExhausted, hcfg, hmax])) (if_neg (by simpa [isNotBusy] using hb)) hrx) pre
    (s.setDp fun d => { d with poll := 0 }) h hd rfl hpre (by simp) hrx
  exact (hstart.trans hskips).cast (by omega) (by simp)

/-- At an exchange for which nothing is received the core waits (R140, R144). -/
theorem tick_waits {s : State} {l : Line} {ls : List Line} {o : Byte} {k : Byte → State} (h : s.running)
    (ha : l.act (s.push ls) = .exchange o k) (hrx : s.rx = []) :
    tick (s.push (l :: ls)) = .next (s.push (l :: ls)) := by
  rw [tick_push h, ha]
  simp only [Act.perform, State.push_rx, hrx]

/-- A core that waits does so for the rest of its unit. -/
theorem runUnit_waits {s : State} (h : tick s = .next s) (fuel d : Nat) : runUnit fuel d s = .next s := by
  induction fuel with
  | zero => rfl
  | succ fuel ih =>
    unfold runUnit
    split
    · rfl
    · rw [h]; exact ih

/-- A procedure that comes to an exchange for which nothing is received. -/
theorem perform_waits {s t : State} (h : s.running) {ls : List Line} {n : Nat}
    (hr : Reaches s.seq.length n (s.push ls) t) (hn : n ≤ unitFuel s) (hwait : tick t = .next t) :
    s.perform ls = .next t := by
  have hperform : s.perform ls = runUnit (unitFuel s) s.seq.length (s.push ls) := by
    obtain ⟨hreset, hhalted⟩ := h
    unfold State.perform
    cases hp : s.phase
    case reset | halted => contradiction
    all_goals rfl
  rw [hperform, ← Nat.sub_add_cancel hn, hr, runUnit_waits hwait]

/-! ### A block sent (R221) -/

/-- What a sent block leaves, to `rest` still to receive: token, the bytes of the sector in `k`, two fillers. -/
def State.blockSent (tok : Byte) (ins rest : List Byte) (s : State) : State :=
  (s.setDp fun d => { d with data := (s.sectorData s.dp.k.toNat).getLast?.getD d.data, j := blockBytes }).wire
    (exchanges (blockOut tok (s.sectorData s.dp.k.toNat)) ins) rest

theorem reaches_blockSent {s : State} {d : Nat} {ls : List Line} (tok : Byte) (h : s.running) (hd : d ≤ s.seq.length)
    {ins rest : List Byte} (hlen : ins.length = blockBytes + 3)
    (hbuf : blockBytes * s.dp.k.toNat + blockBytes ≤ s.req.buf.len) (hrx : s.rx = ins ++ rest) :
    Reaches d (2 * blockBytes + 3) (s.push (.block (.writeToken tok) :: ls)) ((s.blockSent tok ins rest).push ls) := by
  obtain ⟨first, payload, f0, f1, rfl, hpayload⟩ := eq_of_length_three hlen
  exact reaches_writeBlock h hd hpayload hbuf (by simpa using hrx)

theorem did_blockSent (tok : Byte) (ins rest : List Byte) (s : State) :
    Did s (s.blockSent tok ins rest) (exchanges (blockOut tok (s.sectorData s.dp.k.toNat)) ins) rest :=
  did_setDp_wire s _ _ rfl rfl

theorem State.sameOutside_blockSent (tok : Byte) (ins rest : List Byte) (s : State) :
    s.SameOutside (s.blockSent tok ins rest) :=
  (did_blockSent tok ins rest s).kept.sameOutside rfl

theorem Datapath.sameResponse_blockSent (tok : Byte) (ins rest : List Byte) (s : State) :
    s.dp.SameResponse (s.blockSent tok ins rest).dp :=
  ⟨rfl, rfl, rfl, rfl, rfl, rfl, rfl, rfl, rfl⟩

/-- A sent block as a unit. -/
theorem perform_blockSent {s : State} (tok : Byte) (h : s.running) {ins rest : List Byte}
    (hlen : ins.length = blockBytes + 3) (hbuf : blockBytes * s.dp.k.toNat + blockBytes ≤ s.req.buf.len)
    (hrx : s.rx = ins ++ rest) : s.perform [.block (.writeToken tok)] = .next (s.blockSent tok ins rest) := by
  have hr := reaches_blockSent (ls := []) tok h le_rfl hlen hbuf hrx
  exact perform_runs h hr (by simp [hrx, hlen, blockBytes]; omega) (.inl rfl)

end Sys2Proof.Machine

/-! ### The obligations of the data phase -/

namespace Sys2Proof.Proofs

open Sys2Proof Sys2Proof.Machine

/-- Settles O29: the poll's run where the token comes and where it does not. -/
theorem tokenPoll : Obligations.TokenPoll := by
  refine ⟨fun s pre rest h hpre hlt hrx => ?_, fun s pre rest h hpre hlen hrx => ?_⟩
  · have hr := reaches_token (ls := []) (r := rest) h le_rfl hpre hlt (hrx.trans (List.append_cons ..).symm)
    exact perform_runs h hr (by simp [hrx]; omega) (.inl rfl)
  · have hr := reaches_noToken (ls := []) h le_rfl hpre hlen hrx
    exact perform_runs h hr (by simp [hrx]; omega) (.inl rfl)

/-- Settles O30: the payload is stored as it comes, before its check, and read back as the sector. -/
theorem readDataBlock : Obligations.ReadDataBlock := by
  intro s payload hi lo rest h hwf hlen hbuf hrx
  have hr := reaches_readBlock (ls := []) (r := rest) h le_rfl hlen hbuf (by simpa using hrx)
  have hback := Memory.slice_store hwf s.sectorBase payload
  rw [hlen] at hback
  refine ⟨_, perform_runs h hr (by simp [hrx, hlen, blockBytes]; omega) (.inl rfl), rfl, hback, fun x hx => ?_,
    Memory.wf_store hwf _ _, rfl, rfl, rfl, rfl, rfl, ⟨rfl, rfl, rfl, rfl, rfl, rfl, rfl, rfl, rfl⟩, rfl, rfl, rfl, rfl,
    rfl, rfl, rfl⟩
  exact Memory.read_store_outside _ _ (by rwa [hlen])

/-- Settles O31: both rows send the block of the sector in k, which the single-block row has set to 0. -/
theorem writeTokenRowsRun : Obligations.WriteTokenRowsRun := by
  refine ⟨fun s ins rest h hlen hbuf hrx => ?_, fun s ins rest h hlen hbuf hrx => ?_⟩
  · have hperform := perform_blockSent (s := s.setDp fun d => { d with k := 0 }) startToken h hlen
      (by simpa using hbuf) hrx
    have houtside := (s.setDp fun d => { d with k := 0 }).sameOutside_blockSent startToken ins rest
    have hresponse := Datapath.sameResponse_blockSent startToken ins rest (s.setDp fun d => { d with k := 0 })
    exact ⟨_, hperform, rfl, rfl, rfl, houtside, hresponse, rfl, rfl, rfl, rfl, rfl⟩
  · exact ⟨_, perform_blockSent multiStartToken h hlen hbuf hrx, rfl, rfl, rfl, State.sameOutside_blockSent ..,
      Datapath.sameResponse_blockSent .., rfl, rfl, rfl, rfl, rfl⟩

/-- Settles O32: after the skipped bytes the first other byte decides, and without one the bound does. -/
theorem dataResponsePoll : Obligations.DataResponsePoll := by
  refine fun s idx rest h => ⟨fun n b hn hb hnibble hrx => ?_, fun n b hn hb hnibble hrx => ?_, fun hrx => ?_⟩
  · have hr := reaches_accepted (ls := []) (idx := idx) (r := rest) n h le_rfl hn hb ((dataAccepted_iff b).2 hnibble)
      (by simpa using hrx)
    exact perform_runs h hr (by simp [hrx]; omega) (.inl rfl)
  · have hr := reaches_rejected (ls := []) (idx := idx) (r := rest) n h le_rfl hn hb
      (Bool.eq_false_iff.2 (mt (dataAccepted_iff b).1 hnibble)) (by simpa using hrx)
    exact ⟨_, perform_runs h hr (by simp [hrx]; omega) (.inr rfl), rfl, rfl, afterHalt_exhausted ..⟩
  · have hr := reaches_drespTimeout (ls := []) (idx := idx) h le_rfl hrx
    exact ⟨_, perform_runs h hr (by simp [hrx]; omega) (.inr rfl), rfl, rfl, afterHalt_exhausted ..⟩

/-- Settles O33: the wait's end and its bound; without a bound it comes to a read for which nothing is received. -/
theorem busyWait : Obligations.BusyWait := by
  refine fun s idx h => ⟨fun busy rest hends hrx => ?_, fun busy rest hbusy hmax hrx => ?_, fun hbusy hmax => ?_⟩
  · obtain ⟨hbusy, hlt⟩ := hends
    have hr := reaches_notBusy (ls := []) (idx := idx) (r := rest) h le_rfl hbusy hlt (by simpa using hrx)
    exact perform_runs h hr (by simp [hrx]; omega) (.inl rfl)
  · have hr := reaches_busyTimeout (ls := []) (idx := idx) h le_rfl hbusy hmax hrx
    exact ⟨_, perform_runs h hr (by simp [hrx]; omega) (.inr rfl), rfl, rfl, afterHalt_exhausted ..⟩
  · have hr := reaches_busySkips (ls := []) idx h le_rfl hbusy hmax (List.append_nil _).symm
    have hwait := tick_waits (ls := []) (l := .block (.busy idx))
      (s := (s.setDp fun d => { d with poll := s.rx.length }).wire (receives s.rx) []) h
      (if_neg (by simp [busyExhausted, hmax])) rfl
    exact perform_waits h hr (by simp only [unitFuel]; omega) hwait

end Sys2Proof.Proofs

namespace Sys2Proof.Machine

/-! ### The ends of a served request (R229, R263, R300) -/

theorem Did.thenAuto {s t : State} {es : List Event} {r : List Byte} (h : Did s t es r) :
    Did s (t.setCs .auto) (es ++ [.setcs .auto]) r := by
  have hauto := h.trans (did_setCs t .auto)
  rwa [h.rx] at hauto

/-- Every count but one is dispatched to the multi-block procedures (R263). -/
theorem dispatchLine_of_ne_one {count : Word} (h : count ≠ 1) (a : Word) :
    dispatchLine opRead count a = .transfer (.multiRead a count) ∧
      dispatchLine opWrite count a = .transfer (.multiWrite a count) :=
  ⟨(if_pos rfl).trans (if_neg h), (if_neg (by decide)).trans (if_neg h)⟩

section
variable (s : State) (op : Byte) (sector count : Word)

@[simp] theorem State.requested_rx : (s.requested op sector count).rx = s.rx := rfl

@[simp] theorem State.requested_emits (t : State) (es : List Event) :
    (s.requested op sector count).Emits t es ↔ s.Emits t es := Iff.rfl

@[simp] theorem State.requested_sectorData (k : Nat) :
    (s.requested op sector count).sectorData k = s.sectorData k := rfl

@[simp] theorem writeEvents_requested (tok : Byte) (k : Nat) (ws : List WrittenBlock) :
    writeEvents (s.requested op sector count) tok k ws = writeEvents s tok k ws :=
  writeEvents_congr (s := s) (t := s.requested op sector count) rfl rfl tok k ws

end

theorem State.Serving.requested_running {s : State} {op : Byte} {sector count : Word} (h : s.Serving op sector count) :
    (s.requested op sector count).running := h.1

theorem State.Serving.requested_len {s : State} {op : Byte} {sector count : Word} (h : s.Serving op sector count) :
    (s.requested op sector count).req.buf.len = blockBytes * count.toNat := (Serving.length h :)

/-- The buffer of a request of one sector has room for it (R261). -/
theorem State.Serving.room {s : State} {op : Byte} {sector : Word} (h : s.Serving op sector 1) :
    blockBytes ≤ (s.requested op sector 1).req.buf.len := h.requested_len.ge

/-- A served request whose transfer raises a fault (R300). -/
theorem serve_raises {s t : State} {op : Byte} {sector count : Word} {rec : FaultRecord} {es : List Event}
    {r : List Byte} {ls : List Line} (h : s.Serving op sector count)
    (hrun : Runs s.seq.length 62 ((s.requested op sector count).push
      [dispatchLine op count (cardAddr s.cfg s.cap sector)]) ((t.raiseFatal rec).push ls))
    (hdid : Did (s.requested op sector count) t es r) (hcs : t.csMode = .auto) :
    ∃ u, s.request op sector count = .next u ∧ u.rx = r ∧ u.ocr = s.ocr ∧ s.AfterHalt u rec es ∧ u.mem = t.mem := by
  have hk := hdid.kept
  have hemits : s.Emits ((t.raiseFatal rec).push ls) (es ++ [.halt rec]) :=
    hdid.emits.trans (u := t.raiseFatal rec) (fs := [.halt rec]) rfl
  exact ⟨_, serve_of_runs h hrun (.inr rfl), hdid.rx, hdid.ocr,
    ⟨rfl, rfl, hemits, hcs, hk.guard, hk.pending, hk.cap, hk.ready⟩, rfl⟩

/-- A transfer's command whose result the line `test` rejects by raising a fault (R225 to R228). -/
theorem runs_commandRejected {s : State} {d : Nat} {ls : List Line} {i : Instr} {e : Entry} {start test : Line}
    {rec : FaultRecord} (hi : entryOf i = some e) (hsh : responseOf i = .r1 0) (h : s.running) (hd : d ≤ s.seq.length)
    {a : Answer} {r : List Byte} (hfits : a.fits s.cfg i) (hacc : a.accepted i = false) (hrx : s.rx = a.bytes ++ r)
    (hstart : start.act (s.push ls) = .go (s.push (.catalog (.call e) :: test :: ls)))
    (htest : ∀ u : State, u.dp.ok = false → u.dp.attempt = s.dp.attempt → u.cfg = s.cfg →
      test.act (u.push ls) = .go (u.push (.halt (.raise rec) :: ls))) :
    ∃ t, Runs d (-200) (s.push (start :: ls)) ((t.raiseFatal rec).push ls) ∧ Did s t (a.events i) r ∧ t.mem = s.mem ∧
      t.csMode = .auto := by
  obtain ⟨t, hcall, hdid, hok, hmem, -, hattempt, hcs⟩ := did_command (ls := test :: ls) hi hsh h hd hfits hrx
  have hr := hdid.kept.running h
  have hq := hdid.kept.depth hd
  have hjudge := runs_go hr hq (htest t (hok.trans hacc) hattempt hdid.kept.cfg) rfl
  have hraise : Runs d 1 (t.push (.halt (.raise rec) :: ls)) ((t.raiseFatal rec).push ls) := runs_go hr hq rfl rfl
  exact ⟨t, ((runs_go h hd hstart rfl).trans (hcall.trans (hjudge.trans hraise))).mono (by omega), hdid, hmem, hcs⟩

/-- A single-block transfer at its first attempt (R225, R227). -/
def State.firstAttempt (s : State) : State := s.setDp fun d => { d with attempt := 1, k := 0 }

theorem did_firstAttempt (s : State) : Did s s.firstAttempt [] s.rx := did_setDp s rfl rfl

/-- A fatal exit that sets chip-select first (R229, R300). -/
theorem runs_abort {s : State} {d : Nat} {ls : List Line} (h : s.running) (hd : d ≤ s.seq.length) (rec : FaultRecord) :
    Runs d 2 (s.push (.halt (.abort rec) :: ls)) (((s.setCs .auto).raiseFatal rec).push ls) :=
  (reaches_abort h hd rec).runs (by simp; omega)

/-! ### The single-block read (R225, R230) -/

theorem TriesFail.append {c : Config} {a : Word} {tries tries' : List (Answer × ReadFailure)} :
    TriesFail c a (tries ++ tries') ↔ TriesFail c a tries ∧ TriesFail c a tries' := List.forall_mem_append

theorem tryBytes_append (tries tries' : List (Answer × ReadFailure)) :
    tryBytes (tries ++ tries') = tryBytes tries ++ tryBytes tries' := List.flatMap_append

theorem tryEvents_append (a : Word) (tries tries' : List (Answer × ReadFailure)) :
    tryEvents a (tries ++ tries') = tryEvents a tries ++ tryEvents a tries' := List.flatMap_append

/-- `SINGLE_READ(a)` to an attempt that failed ones come before. -/
theorem runs_sreadToTry {s : State} {d : Nat} {ls : List Line} {a : Word} (h : s.running) (hd : d ≤ s.seq.length)
    {tries : List (Answer × ReadFailure)} {r : List Byte} (hlen : tries.length < sreadAttempts)
    (htries : TriesFail s.cfg a tries) (hbuf : blockBytes ≤ s.req.buf.len) (hrx : s.rx = tryBytes tries ++ r) :
    ∃ t, Runs d 1 (s.push (.transfer (.singleRead a) :: ls)) (t.push (.transfer (.sreadTry a) :: ls)) ∧
      Did s t (tryEvents a tries) r ∧ InBuffer s t ∧ t.dp.k = 0 ∧ t.dp.attempt = tries.length + 1 := by
  have hstart : Runs d 1 (s.push (.transfer (.singleRead a) :: ls))
      (s.firstAttempt.push (.transfer (.sreadTry a) :: ls)) := runs_go h hd rfl rfl
  obtain ⟨t, hfails, hdid, hin, hk, hattempt, -⟩ := runs_sreadFails (ls := ls) tries s.firstAttempt h hd
    (show 1 + tries.length ≤ sreadAttempts by omega) htries rfl hbuf hrx
  exact ⟨t, hstart.trans hfails, (did_firstAttempt s).trans hdid, ⟨hin.wf, hin.outside⟩, hk,
    hattempt.trans (Nat.add_comm ..)⟩

/-- `SINGLE_READ(a)` where the fifth attempt fails too: the code of its failure. -/
theorem runs_sreadExhausted {s : State} {d : Nat} {ls : List Line} {a : Word} (h : s.running) (hd : d ≤ s.seq.length)
    {tries : List (Answer × ReadFailure)} {last : Answer × ReadFailure} {r : List Byte} (hlen : tries.length = 4)
    (htries : TriesFail s.cfg a (tries ++ [last])) (hbuf : blockBytes ≤ s.req.buf.len)
    (hrx : s.rx = tryBytes (tries ++ [last]) ++ r) :
    ∃ t, Runs d 0 (s.push (.transfer (.singleRead a) :: ls))
        ((t.raiseFatal { code := last.2.code, cmd := some 17, attempt := some (attemptNo 5) }).push ls) ∧
      Did s t (tryEvents a (tries ++ [last])) r ∧ InBuffer s t ∧ t.csMode = .auto := by
  obtain ⟨htries, hlast⟩ := TriesFail.append.1 htries
  rw [tryBytes_append, List.append_assoc] at hrx
  obtain ⟨u, hrun, hdid, hin, hk, hattempt⟩ := runs_sreadToTry (ls := ls) h hd (by rw [hlen]; decide) htries hbuf hrx
  have hkept := hdid.kept
  obtain ⟨hfit, hacc, hfail⟩ := hkept.cfg ▸ hlast last (by simp)
  obtain ⟨t, hrun', hdid', hin', -, hattempt', hcs⟩ := runs_sreadFail (ls := ls) (r := r) (hkept.running h)
    (hkept.depth hd) hfit hacc hfail hk (by rw [hkept.req]; exact hbuf) (by simpa [tryBytes] using hdid.rx)
  have hr := hdid'.kept.running (hkept.running h)
  have hq := hdid'.kept.depth (hkept.depth hd)
  have h5 : t.dp.attempt = 5 := by rw [hattempt', hattempt, hlen]
  have hnext : Runs d 1 (t.push (.transfer (.sreadNext a last.2.code) :: ls)) (t.push (.halt (.raise
      { code := last.2.code, cmd := some 17, attempt := some (attemptNo 5) }) :: ls)) := by
    refine runs_go hr hq ((if_neg ?_).trans ?_) rfl
    · rw [State.push_dp, h5]; decide
    · rw [faultAtAttempt, State.push_dp, h5]; rfl
  have hraise : Runs d 1 (t.push (.halt (.raise
      { code := last.2.code, cmd := some 17, attempt := some (attemptNo 5) }) :: ls)) _ := runs_go hr hq rfl rfl
  refine ⟨t, ((hrun.trans hrun').trans (hnext.trans hraise)).mono (by omega), ?_, hin.trans hin' hkept.req, hcs⟩
  rw [tryEvents_append]
  simpa [tryEvents] using hdid.trans hdid'

/-- `SINGLE_READ(a)` where CMD17 is rejected. -/
theorem runs_sreadRejected {s : State} {d : Nat} {ls : List Line} {a : Word} (h : s.running) (hd : d ≤ s.seq.length)
    {tries : List (Answer × ReadFailure)} {cmd : Answer} {r : List Byte} (hlen : tries.length < sreadAttempts)
    (htries : TriesFail s.cfg a tries) (hfits : cmd.fits s.cfg (.cmd17 a)) (hacc : cmd.accepted (.cmd17 a) = false)
    (hbuf : blockBytes ≤ s.req.buf.len) (hrx : s.rx = tryBytes tries ++ (cmd.bytes ++ r)) :
    ∃ t, Runs d 0 (s.push (.transfer (.singleRead a) :: ls))
        ((t.raiseFatal { code := .sreadCmd, cmd := some 17, attempt := some (attemptNo (tries.length + 1)) }).push ls) ∧
      Did s t (tryEvents a tries ++ cmd.events (.cmd17 a)) r ∧ InBuffer s t ∧ t.csMode = .auto := by
  obtain ⟨u, hrun, hdid, hin, -, hattempt⟩ := runs_sreadToTry (ls := ls) h hd hlen htries hbuf hrx
  have hkept := hdid.kept
  obtain ⟨t, hrun', hdid', hmem, hcs⟩ := runs_commandRejected (ls := ls) (i := .cmd17 a)
    (start := .transfer (.sreadTry a)) (test := .transfer (.sreadCmd a))
    (rec := { code := .sreadCmd, cmd := some 17, attempt := some (attemptNo (tries.length + 1)) }) rfl rfl
    (hkept.running h) (hkept.depth hd) (hkept.cfg ▸ hfits) hacc hdid.rx rfl (fun v hok hat _ => by
      rw [← hattempt, ← hat]
      exact if_neg (by simp [hok]))
  exact ⟨t, (hrun.trans hrun').mono (by omega), hdid.trans hdid', hin.trans (.of_eq hmem) hkept.req, hcs⟩

/-! ### The multi-block read (R226, R231) -/

/-- A register that counts sectors holds their number. -/
theorem eq_ofNat_of_toNat {k : Word} {n : Nat} (h : k.toNat = n) : k = BitVec.ofNat 32 n := by
  rw [← h, BitVec.ofNat_toNat, BitVec.setWidth_eq]

/-- `MULTI_READ(a, n)` to its loop, after sectors that pass their checks. -/
theorem runs_mreadToLoop {s : State} {d : Nat} {ls : List Line} {a n : Word} (h : s.running) (hd : d ≤ s.seq.length)
    {cmd : Answer} {pump : Byte} {blocks : List (DataBlock × Byte)} {r : List Byte}
    (hfits : cmd.fits s.cfg (.cmd18 a)) (hacc : cmd.accepted (.cmd18 a) = true) (hlen : blocks.length ≤ n.toNat)
    (hblocks : ∀ p ∈ blocks, p.1.fits s.cfg ∧ p.1.good) (hbuf : s.req.buf.len = blockBytes * n.toNat)
    (hrx : s.rx = cmd.bytes ++ pump :: (sectorBytes blocks ++ r)) :
    ∃ t, Runs d 0 (s.push (.transfer (.multiRead a n) :: ls)) (t.push (.transfer (.mreadLoop n) :: ls)) ∧
      Did s t (cmd.events (.cmd18 a) ++ [.setcs .hold] ++ receives ([pump] ++ sectorBytes blocks)) r ∧ InBuffer s t ∧
      t.dp.k.toNat = blocks.length ∧
      (s.mem.wf → ∀ (j : Nat) (h : j < blocks.length), t.sectorData j = blocks[j].1.payload) := by
  obtain ⟨u, hrun, hdid, hmem, hk⟩ := runs_mreadStart (ls := ls) (n := n) h hd hfits hacc hrx
  have hkept := hdid.kept
  have hk0 : u.dp.k.toNat = 0 := by rw [hk]; rfl
  obtain ⟨t, hrun', hdid', hin, hkt, -, hdata, -⟩ := runs_mreadBlocks (ls := ls) (n := n) blocks u (hkept.running h)
    (hkept.depth hd) (by omega) (hkept.cfg ▸ hblocks) (by rw [hkept.req, hbuf]) hdid.rx
  simp only [hk0, Nat.zero_add] at hkt hdata
  refine ⟨t, hrun.trans hrun', ?_, (InBuffer.of_eq hmem).trans hin hkept.req, hkt, fun hw => hdata (hmem ▸ hw)⟩
  simpa [receives] using hdid.trans hdid'

/-- A token poll in which no start token comes (R222). -/
theorem did_noToken {s : State} {d : Nat} {ls : List Line} (h : s.running) (hd : d ≤ s.seq.length) {pre r : List Byte}
    (hpre : NoToken s.cfg pre) (hrx : s.rx = pre ++ r) :
    ∃ t, Runs d 2 (s.push (.block .tokenStart :: ls)) (t.push ls) ∧ Did s t (receives pre) r ∧ t.dp.ok = false ∧
      t.dp.k = s.dp.k := by
  obtain ⟨hskip, hlen⟩ := hpre
  have hpoll := reaches_noToken (ls := ls) h hd hskip hlen hrx
  exact ⟨_, hpoll.runs (by simp [hrx]; omega), did_setDp_wire s _ _ rfl rfl, rfl, rfl⟩

/-- A sector of a multi-block read for which no start token comes. -/
theorem runs_mreadNoToken {s : State} {d : Nat} {ls : List Line} {n : Word} (h : s.running) (hd : d ≤ s.seq.length)
    {pre r : List Byte} (hk : s.dp.k.toNat < n.toNat) (hpre : NoToken s.cfg pre) (hrx : s.rx = pre ++ r) :
    ∃ t, Runs d 10 (s.push (.transfer (.mreadLoop n) :: ls))
        (((t.setCs .auto).raiseFatal { code := .mreadToken, cmd := some 18, unit := some s.dp.k }).push ls) ∧
      Did s t (receives pre) r := by
  have hloop : Runs d 1 (s.push (.transfer (.mreadLoop n) :: ls))
      (s.push (.block .tokenStart :: .transfer (.mreadToken n) :: ls)) := runs_go h hd ((if_pos hk).trans rfl) rfl
  obtain ⟨t, hpoll, hdid, hok, hkt⟩ := did_noToken (ls := .transfer (.mreadToken n) :: ls) h hd hpre hrx
  have hr := hdid.kept.running h
  have hq := hdid.kept.depth hd
  have htest : Runs d 1 (t.push (.transfer (.mreadToken n) :: ls))
      (t.push (.halt (.abort { code := .mreadToken, cmd := some 18, unit := some s.dp.k }) :: ls)) := by
    rw [← hkt]
    exact runs_go hr hq ((if_neg (by simp [hok])).trans rfl) rfl
  exact ⟨t, (hloop.trans (hpoll.trans (htest.trans (runs_abort hr hq _)))).mono (by omega), hdid⟩

/-- A sector of a multi-block read that fails its check. -/
theorem runs_mreadBadBlock {s : State} {d : Nat} {ls : List Line} {n : Word} (h : s.running) (hd : d ≤ s.seq.length)
    {b : DataBlock} {r : List Byte} (hk : s.dp.k.toNat < n.toNat) (hbuf : s.req.buf.len = blockBytes * n.toNat)
    (hfits : b.fits s.cfg) (hbad : ¬ b.good) (hrx : s.rx = b.bytes ++ r) :
    ∃ t, Runs d 10 (s.push (.transfer (.mreadLoop n) :: ls))
        (((t.setCs .auto).raiseFatal { code := .mreadCrc, cmd := some 18, unit := some s.dp.k }).push ls) ∧
      Did s t (receives b.bytes) r := by
  have hloop : Runs d 1 (s.push (.transfer (.mreadLoop n) :: ls))
      (s.push (.block .tokenStart :: .transfer (.mreadToken n) :: ls)) := runs_go h hd ((if_pos hk).trans rfl) rfl
  obtain ⟨t, hblock, hdid, hok, -, hkt, -⟩ := did_dataBlock (ls := ls) h hd hfits
    (by simp only [blockBytes] at *; omega) hrx (fun u hu hq hok => mreadToken_ok (n := n) hu hq hok)
  have hr := hdid.kept.running h
  have hq := hdid.kept.depth hd
  have htest : Runs d 1 (t.push (.transfer (.mreadCrc n) :: ls))
      (t.push (.halt (.abort { code := .mreadCrc, cmd := some 18, unit := some s.dp.k }) :: ls)) := by
    rw [← hkt]
    exact runs_go hr hq ((if_neg (mt hok.1 hbad)).trans rfl) rfl
  exact ⟨t, (hloop.trans (hblock.trans (htest.trans (runs_abort hr hq _)))).mono (by omega), hdid⟩

/-! ### The writes (R227, R228, R231) -/

/-- A sent block that the card rejects (R221, R224). -/
theorem runs_blockRejected {s : State} {d : Nat} {ls : List Line} {tok : Byte} {idx : CmdIndex} (h : s.running)
    (hd : d ≤ s.seq.length) {ins r : List Byte} {n : Nat} {b : Byte} (hlen : ins.length = blockBytes + 3)
    (hn : n < s.cfg.drespPollMax) (hb : b ≠ 0xFF) (hnibble : b.extractLsb' 0 4 ≠ 0b0101#4)
    (hbuf : blockBytes * s.dp.k.toNat + blockBytes ≤ s.req.buf.len)
    (hrx : s.rx = ins ++ (List.replicate n 0xFF ++ b :: r)) :
    ∃ t, Runs d 0 (s.push (.block (.writeToken tok) :: .block (.drespStart idx) :: ls))
        (((t.setCs .auto).raiseFatal
          { code := .writeRejected, cmd := some idx, unit := some s.dp.k, byte := some b }).push ls) ∧
      Did s t (exchanges (blockOut tok (s.sectorData s.dp.k.toNat)) ins ++ receives (List.replicate n 0xFF ++ [b])) r ∧
      t.mem = s.mem := by
  have hsent := (reaches_blockSent (ls := .block (.drespStart idx) :: ls) tok h hd hlen hbuf hrx).runs (c := -100)
    (by simp [State.blockSent, hrx, hlen, blockBytes]; omega)
  have hdid := did_blockSent tok ins (List.replicate n 0xFF ++ b :: r) s
  have hpoll := (reaches_rejected (ls := ls) (idx := idx) (b := b) n (hdid.kept.running h) (hdid.kept.depth hd) hn hb
    (Bool.eq_false_iff.2 (mt (dataAccepted_iff b).1 hnibble)) hdid.rx).runs (c := 4)
    (by simp [State.blockSent]; omega)
  exact ⟨_, (hsent.trans hpoll).mono (by omega), hdid.trans (did_setDp_wire _ _ _ rfl rfl), rfl⟩

/-- `SINGLE_WRITE(a)` to an attempt that rejected CMD24s come before. -/
theorem runs_swriteToTry {s : State} {d : Nat} {ls : List Line} {a : Word} (h : s.running) (hd : d ≤ s.seq.length)
    {fails : List Answer} {r : List Byte} (hlen : fails.length < s.cfg.swriteCmdAttempts)
    (hfails : ∀ f ∈ fails, f.fits s.cfg (.cmd24 a) ∧ f.accepted (.cmd24 a) = false)
    (hrx : s.rx = fails.flatMap Answer.bytes ++ r) :
    ∃ t, Runs d 1 (s.push (.transfer (.singleWrite a) :: ls)) (t.push (.transfer (.swriteTry a) :: ls)) ∧
      Did s t (fails.flatMap fun f => f.events (.cmd24 a)) r ∧ t.mem = s.mem ∧ t.dp.k = 0 ∧
      t.dp.attempt = fails.length + 1 := by
  have hstart : Runs d 1 (s.push (.transfer (.singleWrite a) :: ls))
      (s.firstAttempt.push (.transfer (.swriteTry a) :: ls)) := runs_go h hd rfl rfl
  obtain ⟨t, hrun, hdid, hmem, hk, hattempt, -⟩ := runs_swriteFails (ls := ls) fails s.firstAttempt h hd
    (show 1 + fails.length ≤ s.cfg.swriteCmdAttempts by omega) hfails hrx
  exact ⟨t, hstart.trans hrun, (did_firstAttempt s).trans hdid, hmem, hk,
    hattempt.trans (Nat.add_comm ..)⟩

/-- `SINGLE_WRITE(a)` where CMD24 is rejected at every attempt. -/
theorem runs_swriteExhausted {s : State} {d : Nat} {ls : List Line} {a : Word} (h : s.running) (hd : d ≤ s.seq.length)
    {fails : List Answer} {r : List Byte} (hpos : 1 ≤ s.cfg.swriteCmdAttempts)
    (hlen : fails.length = s.cfg.swriteCmdAttempts)
    (hfails : ∀ f ∈ fails, f.fits s.cfg (.cmd24 a) ∧ f.accepted (.cmd24 a) = false)
    (hrx : s.rx = fails.flatMap Answer.bytes ++ r) :
    ∃ t, Runs d 0 (s.push (.transfer (.singleWrite a) :: ls)) ((t.raiseFatal
        { code := .swriteCmd, cmd := some 24, attempt := some (attemptNo s.cfg.swriteCmdAttempts) }).push ls) ∧
      Did s t (fails.flatMap fun f => f.events (.cmd24 a)) r ∧ t.mem = s.mem ∧ t.csMode = .auto := by
  obtain rfl | ⟨fails, last, rfl⟩ := List.eq_nil_or_concat fails
  · simp only [List.length_nil] at hlen; omega
  rw [List.concat_eq_append] at *
  rw [List.length_append, List.length_singleton] at hlen
  obtain ⟨hfits, hacc⟩ := hfails last (by simp)
  obtain ⟨u, hrun, hdid, hmem, -, hattempt⟩ := runs_swriteToTry (ls := ls) (fails := fails) (r := last.bytes ++ r) h hd
    (by omega) (fun f hf => hfails f (by simp [hf])) (by simpa using hrx)
  have hkept := hdid.kept
  obtain ⟨t, hrun', hdid', hmem', hcs⟩ := runs_commandRejected (ls := ls) (i := .cmd24 a)
    (start := .transfer (.swriteTry a)) (test := .transfer (.swriteCmd a))
    (rec := { code := .swriteCmd, cmd := some 24, attempt := some (attemptNo s.cfg.swriteCmdAttempts) }) rfl rfl
    (hkept.running h) (hkept.depth hd) (hkept.cfg ▸ hfits) hacc hdid.rx rfl (fun v hok hat hcfg => by
      rw [← hlen, ← hattempt, ← hat]
      refine (if_neg (by simp [hok])).trans (if_neg ?_)
      simp only [State.push_dp, State.push_cfg, hcfg, hat, hkept.cfg]
      omega)
  refine ⟨t, (hrun.trans hrun').mono (by omega), ?_, hmem'.trans hmem, hcs⟩
  simpa using hdid.trans hdid'

theorem Did.sectorData {s t : State} {es : List Event} {r : List Byte} (h : Did s t es r) (hm : t.mem = s.mem)
    (k : Nat) : t.sectorData k = s.sectorData k := by
  simp only [State.sectorData, h.kept.req, hm]

/-- `SINGLE_WRITE(a)` where the first CMD24 is accepted and the card rejects the block. -/
theorem runs_swriteBlockRejected {s : State} {d : Nat} {ls : List Line} {a : Word} (h : s.running)
    (hd : d ≤ s.seq.length) {cmd : Answer} {ins r : List Byte} {n : Nat} {b : Byte} (hfits : cmd.fits s.cfg (.cmd24 a))
    (hacc : cmd.accepted (.cmd24 a) = true) (hlen : ins.length = blockBytes + 3) (hn : n < s.cfg.drespPollMax)
    (hb : b ≠ 0xFF) (hnibble : b.extractLsb' 0 4 ≠ 0b0101#4) (hbuf : blockBytes ≤ s.req.buf.len)
    (hrx : s.rx = cmd.bytes ++ (ins ++ (List.replicate n 0xFF ++ b :: r))) :
    ∃ t ls', Runs d 0 (s.push (.transfer (.singleWrite a) :: ls)) (((t.setCs .auto).raiseFatal
        { code := .writeRejected, cmd := some 24, unit := some 0, byte := some b }).push ls') ∧
      Did s t (cmd.events (.cmd24 a) ++ [.setcs .hold] ++ exchanges (blockOut startToken (s.sectorData 0)) ins ++
        receives (List.replicate n 0xFF ++ [b])) r ∧ t.mem = s.mem := by
  have hstart : Runs d 1 (s.push (.transfer (.singleWrite a) :: ls))
      (s.firstAttempt.push (.transfer (.swriteTry a) :: ls)) := runs_go h hd rfl rfl
  have htry := runs_go (s := s.firstAttempt) (ls := ls) (l := .transfer (.swriteTry a)) h hd rfl rfl
  obtain ⟨u, hcall, hdid, hok, hmem, hk, -⟩ := did_command (s := s.firstAttempt)
    (ls := .transfer (.swriteCmd a) :: ls) (i := .cmd24 a) rfl rfl h hd hfits hrx
  replace hdid := (did_firstAttempt s).trans hdid
  have hkept := hdid.kept
  have hr := hkept.running h
  have hq := hkept.depth hd
  have hjudge := runs_go (ls := ls) hr hq (l := .transfer (.swriteCmd a)) ((if_pos (hok.trans hacc)).trans rfl) rfl
  have hhold := runs_go (ls := .block (.writeToken startToken) :: .block (.drespStart 24) :: .block (.busyStart 24) ::
    .block .auto :: ls) hr hq (l := .block .hold) rfl rfl
  replace hk : (u.setCs .hold).dp.k = 0 := hk
  obtain ⟨t, hblock, hdid', hmem'⟩ := runs_blockRejected (s := u.setCs .hold) (tok := startToken) (idx := 24) (r := r)
    (ls := .block (.busyStart 24) :: .block .auto :: ls) hr hq hlen (hkept.cfg ▸ hn) hb hnibble
    (by rw [hk, State.setCs_req, hkept.req]; exact hbuf) hdid.rx
  rw [hk] at hblock hdid'
  refine ⟨t, _, ((hstart.trans htry).trans (hcall.trans ((hjudge.trans hhold).trans hblock))).mono (by omega), ?_,
    hmem'.trans hmem⟩
  have hdids := (hdid.trans (did_setCs u .hold)).trans hdid'
  have hsector : (u.setCs .hold).sectorData 0 = s.sectorData 0 := hdid.sectorData hmem 0
  rw [show (0 : Word).toNat = 0 from rfl, hsector] at hdids
  simpa using hdids

/-- `MULTI_WRITE(a, n)` to its loop, after sectors that the card takes. -/
theorem runs_mwriteToLoop {s : State} {d : Nat} {ls : List Line} {a n : Word} (h : s.running) (hd : d ≤ s.seq.length)
    {cmd : Answer} {pump : Byte} {blocks : List WrittenBlock} {r : List Byte}
    (hfits : cmd.fits s.cfg (.cmd25 a)) (hacc : cmd.accepted (.cmd25 a) = true) (hlen : blocks.length ≤ n.toNat)
    (hblocks : ∀ w ∈ blocks, w.fits s.cfg) (hbuf : s.req.buf.len = blockBytes * n.toNat)
    (hrx : s.rx = cmd.bytes ++ pump :: (blocks.flatMap WrittenBlock.bytes ++ r)) :
    ∃ t, Runs d 0 (s.push (.transfer (.multiWrite a n) :: ls)) (t.push (.transfer (.mwriteLoop n) :: ls)) ∧
      Did s t (cmd.events (.cmd25 a) ++ [.setcs .hold, .xchg fillerByte pump] ++
        writeEvents s multiStartToken 0 blocks) r ∧
      t.mem = s.mem ∧ t.dp.k.toNat = blocks.length := by
  obtain ⟨u, hrun, hdid, hmem, hk⟩ := runs_mwriteStart (ls := ls) (n := n) h hd hfits hacc hrx
  have hkept := hdid.kept
  have hk0 : u.dp.k.toNat = 0 := by rw [hk]; rfl
  obtain ⟨t, hrun', hdid', hmem', hkt⟩ := runs_mwriteBlocks (ls := ls) (n := n) blocks u (hkept.running h)
    (hkept.depth hd) (by omega) (hkept.cfg ▸ hblocks) (by rw [hkept.req, hbuf]) hdid.rx
  rw [hk0, Nat.zero_add] at hkt
  rw [hk0, writeEvents_congr hmem (congrArg ReqRegs.buf hkept.req)] at hdid'
  exact ⟨t, hrun.trans hrun', hdid.trans hdid', hmem'.trans hmem, hkt⟩

/-- A sector of a multi-block write that the card rejects. -/
theorem runs_mwriteBlockRejected {s : State} {d : Nat} {ls : List Line} {n : Word} (h : s.running)
    (hd : d ≤ s.seq.length) {ins r : List Byte} {m : Nat} {b : Byte} (hk : s.dp.k.toNat < n.toNat)
    (hlen : ins.length = blockBytes + 3) (hm : m < s.cfg.drespPollMax) (hb : b ≠ 0xFF)
    (hnibble : b.extractLsb' 0 4 ≠ 0b0101#4) (hbuf : s.req.buf.len = blockBytes * n.toNat)
    (hrx : s.rx = ins ++ (List.replicate m 0xFF ++ b :: r)) :
    ∃ t ls', Runs d 2 (s.push (.transfer (.mwriteLoop n) :: ls)) (((t.setCs .auto).raiseFatal
        { code := .writeRejected, cmd := some 25, unit := some s.dp.k, byte := some b }).push ls') ∧
      Did s t (exchanges (blockOut multiStartToken (s.sectorData s.dp.k.toNat)) ins ++
        receives (List.replicate m 0xFF ++ [b])) r := by
  have hloop := runs_go (ls := ls) h hd (l := .transfer (.mwriteLoop n)) ((if_pos hk).trans rfl) rfl
  have hdelay := runs_go (s := s) (ls := .block (.writeToken multiStartToken) :: .block (.drespStart 25) ::
    .block (.busyStart 25) :: .transfer (.mwriteNext n) :: ls) h hd (l := .block .delay) rfl rfl
  obtain ⟨t, hblock, hdid, -⟩ := runs_blockRejected (tok := multiStartToken) (idx := 25)
    (ls := .block (.busyStart 25) :: .transfer (.mwriteNext n) :: ls) h hd hlen hm hb hnibble
    (by simp only [blockBytes] at *; omega) hrx
  exact ⟨t, _, ((hloop.trans hdelay).trans hblock).mono (by omega), hdid⟩

end Sys2Proof.Machine

namespace Sys2Proof.Proofs

open Sys2Proof Sys2Proof.Machine

/-- Settles O35: the attempts' run returns, and what it stored last is the good block. -/
theorem singleReadSucceeds : Obligations.SingleReadSucceeds := by
  rintro s sector a tries cmd b rest hs hwf rfl hlen htries hcmd hacc hb hgood hrx
  obtain ⟨t, hrun, hdid, hin, hcs, m, hm, hmem⟩ := runs_singleRead (s := s.requested opRead sector 1) (ls := [])
    hs.requested_running le_rfl hlen htries hcmd hacc hb hgood hs.room (r := rest) (by simpa using hrx)
  have hreturns : s.request opRead sector 1 = .next t := serve_of_runs hs (hrun.mono (by omega)) (.inl hdid.kept.seq)
  refine ⟨t, hreturns, hdid.afterTransfer hcs, hdid.rx, hdid.emits, ?_, hin.wf hwf, hin.outside⟩
  have hback := Memory.slice_store (hm hwf) s.req.buf.base b.payload
  obtain ⟨-, -, hsize⟩ := hb
  rw [hsize] at hback
  rw [State.sectorData, hmem, hdid.kept.req]
  exact hback

/-- Settles O36: after the fifth failed attempt and after a rejected CMD17 the transfer raises its fault. -/
theorem singleReadHalts : Obligations.SingleReadHalts := by
  refine ⟨?_, ?_⟩
  · rintro s sector a tries last rest hs hwf rfl hlen htries hrx
    obtain ⟨t, hrun, hdid, hin, hcs⟩ := runs_sreadExhausted (s := s.requested opRead sector 1) (ls := [])
      hs.requested_running le_rfl hlen htries hs.room hrx
    obtain ⟨u, hhalts, hrxu, hocr, hhalt, hmem⟩ := serve_raises hs (hrun.mono (by omega)) hdid hcs
    exact ⟨u, hhalts, hrxu, hocr, hhalt, hmem ▸ hin.outside⟩
  · rintro s sector a tries cmd rest hs hwf rfl hlen htries hfits hacc hrx
    obtain ⟨t, hrun, hdid, hin, hcs⟩ := runs_sreadRejected (s := s.requested opRead sector 1) (ls := []) (r := rest)
      hs.requested_running le_rfl hlen htries hfits hacc hs.room (by simpa using hrx)
    obtain ⟨u, hhalts, hrxu, hocr, hhalt, hmem⟩ := serve_raises hs (hrun.mono (by omega)) hdid hcs
    exact ⟨u, hhalts, hrxu, hocr, hhalt, hmem ▸ hin.outside⟩

/-- Settles O37: the sectors' run to the loop's end, then CMD12; the sectors stay as they were stored. -/
theorem multiReadSucceeds : Obligations.MultiReadSucceeds := by
  rintro s sector count a cmd stop pump blocks busy rest hs hwf rfl hne hcount hcmd hacc hblocks hstop hbusy hrx
  have hr := hs.requested_running
  obtain ⟨u, hrun, hdid, hin, hk, hdata⟩ := runs_mreadToLoop (s := s.requested opRead sector count) (ls := [])
    (n := count) (pump := pump) (r := stop.bytes ++ (busyBytes busy ++ rest)) hr le_rfl hcmd hacc hcount.ge
    hblocks hs.requested_len (by simpa using hrx)
  have hkept := hdid.kept
  obtain ⟨t, hrun', hdid', hmem, hcs⟩ := runs_mreadEnd (ls := []) (hkept.running hr) (hkept.depth le_rfl)
    (hk.trans hcount.symm) (by rw [hkept.cfg]; exact hstop) (by rw [hkept.cfg]; exact hbusy) hdid.rx
  have hdids := hdid.trans hdid'
  rw [← (dispatchLine_of_ne_one hne _).1] at hrun
  have hreturns : s.request opRead sector count = .next t :=
    serve_of_runs hs ((hrun.trans hrun').mono (by omega)) (.inl hdids.kept.seq)
  refine ⟨t, hreturns, hdids.afterTransfer hcs, hdids.rx, ?_, fun k hlt => ?_, hmem ▸ hin.wf hwf, hmem ▸ hin.outside⟩
  · simpa using hdids.emits
  · rw [hdid'.sectorData hmem, hdata hwf]

/-- Settles O38: a rejected CMD18, and from the loop a sector without its token or with a bad CRC16, raise a fault. -/
theorem multiReadHalts : Obligations.MultiReadHalts := by
  rintro s sector count a cmd rest hs hwf rfl hne hcmd
  have hr := hs.requested_running
  have hline := (dispatchLine_of_ne_one hne (cardAddr s.cfg s.cap sector)).1
  refine ⟨fun hacc hrx => ?_, fun pump blocks hacc hlt hblocks => ⟨fun pre hpre hrx => ?_, fun b hb hbad hrx => ?_⟩⟩
  · obtain ⟨t, hrun, hdid, -, hcs⟩ := runs_commandRejected (s := s.requested opRead sector count) (ls := [])
      (i := .cmd18 _) (start := .transfer (.multiRead _ count)) (test := .transfer (.mreadCmd count))
      (rec := { code := .mreadCmd, cmd := some 18 }) rfl rfl hr le_rfl hcmd hacc hrx rfl
      (fun u hok _ _ => if_neg (by simp [hok]))
    rw [← hline] at hrun
    obtain ⟨u, hhalts, hrxu, -, hhalt, -⟩ := serve_raises hs (hrun.mono (by omega)) hdid hcs
    exact ⟨u, hhalts, hrxu, hhalt⟩
  · obtain ⟨t, hrun, hdid, -, hk, -⟩ := runs_mreadToLoop (s := s.requested opRead sector count) (ls := []) (n := count)
      (pump := pump) (r := pre ++ rest) hr le_rfl hcmd hacc hlt.le hblocks
      hs.requested_len (by simpa using hrx)
    have hkept := hdid.kept
    obtain ⟨v, hrun', hdid'⟩ := runs_mreadNoToken (ls := []) (hkept.running hr) (hkept.depth le_rfl) (hk ▸ hlt)
      (by rw [hkept.cfg]; exact hpre) hdid.rx
    rw [← hline] at hrun
    rw [eq_ofNat_of_toNat hk] at hrun'
    obtain ⟨u, hhalts, hrxu, -, hhalt, -⟩ := serve_raises hs ((hrun.trans hrun').mono (by omega))
      (hdid.trans hdid').thenAuto rfl
    refine ⟨u, hhalts, hrxu, ?_⟩
    simpa [receives] using hhalt
  · obtain ⟨t, hrun, hdid, -, hk, -⟩ := runs_mreadToLoop (s := s.requested opRead sector count) (ls := []) (n := count)
      (pump := pump) (r := b.bytes ++ rest) hr le_rfl hcmd hacc hlt.le hblocks
      hs.requested_len (by simpa using hrx)
    have hkept := hdid.kept
    obtain ⟨v, hrun', hdid'⟩ := runs_mreadBadBlock (ls := []) (hkept.running hr) (hkept.depth le_rfl) (hk ▸ hlt)
      (by rw [hkept.req]; exact hs.requested_len) (by rw [hkept.cfg]; exact hb) hbad hdid.rx
    rw [← hline] at hrun
    rw [eq_ofNat_of_toNat hk] at hrun'
    obtain ⟨u, hhalts, hrxu, -, hhalt, -⟩ := serve_raises hs ((hrun.trans hrun').mono (by omega))
      (hdid.trans hdid').thenAuto rfl
    refine ⟨u, hhalts, hrxu, ?_⟩
    simpa [receives] using hhalt

/-- Settles O39: the attempts' run returns after the accepted block and its busy wait. -/
theorem singleWriteSucceeds : Obligations.SingleWriteSucceeds := by
  rintro s sector a fails cmd w rest hs rfl hlen hfails hcmd hacc hw hrx
  obtain ⟨t, hrun, hdid, hmem, hcs⟩ := runs_singleWrite (s := s.requested opWrite sector 1) (ls := [])
    hs.requested_running le_rfl hlen hfails hcmd hacc hw hs.room (r := rest) (by simpa using hrx)
  have hreturns : s.request opWrite sector 1 = .next t := serve_of_runs hs (hrun.mono (by omega)) (.inl hdid.kept.seq)
  exact ⟨t, hreturns, hdid.afterTransfer hcs, hdid.rx, hdid.emits, fun x => congrArg (Memory.read · x) hmem⟩

/-- Settles O40: after the last rejected CMD24 and after a rejected block the transfer raises its fault. -/
theorem singleWriteHalts : Obligations.SingleWriteHalts := by
  refine ⟨?_, ?_⟩
  · rintro s sector a fails rest hs rfl hpos hlen hfails hrx
    obtain ⟨t, hrun, hdid, hmem, hcs⟩ := runs_swriteExhausted (s := s.requested opWrite sector 1) (ls := [])
      hs.requested_running le_rfl hpos hlen hfails hrx
    obtain ⟨u, hhalts, hrxu, -, hhalt, hmemu⟩ := serve_raises hs (hrun.mono (by omega)) hdid hcs
    exact ⟨u, hhalts, hrxu, hhalt, fun x => congrArg (Memory.read · x) (hmemu.trans hmem)⟩
  · rintro s sector a cmd ins n b rest hs rfl hcmd hacc hlen hn hb hnibble hrx
    obtain ⟨t, ls, hrun, hdid, hmem⟩ := runs_swriteBlockRejected (s := s.requested opWrite sector 1) (ls := [])
      (r := rest) hs.requested_running le_rfl hcmd hacc hlen hn hb hnibble hs.room (by simpa using hrx)
    obtain ⟨u, hhalts, hrxu, -, hhalt, hmemu⟩ := serve_raises hs (hrun.mono (by omega)) hdid.thenAuto rfl
    exact ⟨u, hhalts, hrxu, hhalt, fun x => congrArg (Memory.read · x) (hmemu.trans hmem)⟩

/-- Settles O41: the sectors' run to the loop's end, then the stop token and the busy wait. -/
theorem multiWriteSucceeds : Obligations.MultiWriteSucceeds := by
  rintro s sector count a cmd pump last blocks busy rest hs rfl hne hcount hcmd hacc hblocks hbusy hrx
  have hr := hs.requested_running
  obtain ⟨u, hrun, hdid, hmem, hk⟩ := runs_mwriteToLoop (s := s.requested opWrite sector count) (ls := [])
    (n := count) (pump := pump) (r := last :: (busyBytes busy ++ rest)) hr le_rfl hcmd hacc hcount.ge hblocks
    hs.requested_len (by simpa using hrx)
  have hkept := hdid.kept
  obtain ⟨t, hrun', hdid', hmem', hcs⟩ := runs_mwriteEnd (ls := []) (hkept.running hr) (hkept.depth le_rfl)
    (hk.trans hcount.symm) (by rw [hkept.cfg]; exact hbusy) hdid.rx
  have hdids := hdid.trans hdid'
  rw [← (dispatchLine_of_ne_one hne _).2] at hrun
  have hreturns : s.request opWrite sector count = .next t :=
    serve_of_runs hs ((hrun.trans hrun').mono (by omega)) (.inl hdids.kept.seq)
  refine ⟨t, hreturns, hdids.afterTransfer hcs, hdids.rx, ?_, fun x => congrArg (Memory.read · x) (hmem'.trans hmem)⟩
  simpa [fillerByte, multiStartToken, stopTokenByte] using hdids.emits

/-- Settles O42: a rejected CMD25, and from the loop a rejected sector, raise a fault. -/
theorem multiWriteHalts : Obligations.MultiWriteHalts := by
  rintro s sector count a cmd rest hs rfl hne hcmd
  have hr := hs.requested_running
  have hline := (dispatchLine_of_ne_one hne (cardAddr s.cfg s.cap sector)).2
  refine ⟨fun hacc hrx => ?_, fun pump blocks ins n b hacc hlt hblocks hlen hn hb hnibble hrx => ?_⟩
  · obtain ⟨t, hrun, hdid, -, hcs⟩ := runs_commandRejected (s := s.requested opWrite sector count) (ls := [])
      (i := .cmd25 _) (start := .transfer (.multiWrite _ count)) (test := .transfer (.mwriteCmd count))
      (rec := { code := .mwriteCmd, cmd := some 25 }) rfl rfl hr le_rfl hcmd hacc hrx rfl
      (fun u hok _ _ => if_neg (by simp [hok]))
    rw [← hline] at hrun
    obtain ⟨u, hhalts, hrxu, -, hhalt, -⟩ := serve_raises hs (hrun.mono (by omega)) hdid hcs
    exact ⟨u, hhalts, hrxu, hhalt⟩
  · obtain ⟨t, hrun, hdid, hmem, hk⟩ := runs_mwriteToLoop (s := s.requested opWrite sector count) (ls := [])
      (n := count) (pump := pump) (r := ins ++ (List.replicate n 0xFF ++ b :: rest)) hr le_rfl
      hcmd hacc hlt.le hblocks hs.requested_len (by simpa using hrx)
    have hkept := hdid.kept
    obtain ⟨v, ls, hrun', hdid'⟩ := runs_mwriteBlockRejected (ls := []) (hkept.running hr) (hkept.depth le_rfl)
      (hk ▸ hlt) hlen (by rw [hkept.cfg]; exact hn) hb hnibble (by rw [hkept.req]; exact hs.requested_len) hdid.rx
    rw [← hline] at hrun
    rw [eq_ofNat_of_toNat hk] at hrun'
    rw [hk, hdid.sectorData hmem] at hdid'
    obtain ⟨u, hhalts, hrxu, -, hhalt, -⟩ := serve_raises hs ((hrun.trans hrun').mono (by omega))
      (hdid.trans hdid').thenAuto rfl
    refine ⟨u, hhalts, hrxu, ?_⟩
    simpa [fillerByte, multiStartToken] using hhalt

end Sys2Proof.Proofs

/-!
PROOF. The façade's statements (spec/45_disk_facade.md): admission and submission, the arbiter's grant, dispatch and
release, what a request word does, and what the guard makes of the events of a step.
-/

namespace Sys2Proof.Machine

/-! ### Admission (R261, R262) -/

theorem State.admits_iff {s : State} {r : Request} : s.admits r = true ↔
    (r.op = opRead ∨ r.op = opWrite) ∧ r.buf.len = blockBytes * r.count.toNat ∧ addrExact s.cfg s.cap r.sector < 2 ^ 32 := by
  simp only [State.admits, Request.wf, Request.opOk, Request.lengthOk, Bool.and_eq_true, Bool.or_eq_true, beq_iff_eq,
    decide_eq_true_eq, and_assoc]

/-- A request word's buffer has the length it must have, so that only its address can have it refused. -/
theorem State.admits_wordRequest_iff {s : State} {op : Byte} {sector count : Word} (hop : op = opRead ∨ op = opWrite) :
    s.admits (s.wordRequest op sector count) = true ↔ addrExact s.cfg s.cap sector < 2 ^ 32 := by
  simp [State.admits_iff, State.wordRequest, hop]

/-- The card address of R262 without the exact integer in between. -/
theorem cardAddr_eq (c : Config) (cap : Capacity) (sector : Word) : cardAddr c cap sector =
    if cap = .standard ∧ c.scaleStandard = true then BitVec.ofNat 32 (sector.toNat * 512) else sector := by
  unfold cardAddr addrExact
  split
  · rfl
  · simp

/-! ### Submission (R264) -/

theorem step_of_submit {s : State} {h : Nat} {r : Request} {is : List Input} (hin : s.inputs = .submit h r :: is) :
    step s = .next (({ s with inputs := is } : State).submit h r) := by
  simp only [step, State.turn, hin]

theorem State.submit_not_enabled {s : State} {h : Nat} {r : Request}
    (hn : ¬ (h < s.pending.length ∧ s.pendingOf h = none ∧ s.admits r = true)) : s.submit h r = s := if_neg hn

/-! ### The arbiter (R265, R268) -/

/-- Every host with a request pending waits. -/
theorem mem_waitingFrom {ps : List (Option Request)} {i : Nat} (k : Nat) (h : ((ps[i]?).join).isSome = true) :
    k + i ∈ waitingFrom k ps := by
  induction ps generalizing k i with
  | nil => simp at h
  | cons p ps ih =>
    cases i with
    | zero =>
      obtain ⟨r, rfl⟩ : ∃ r, p = some r := Option.isSome_iff_exists.1 (by simpa using h)
      exact List.mem_cons_self
    | succ i =>
      have hrest : k + (i + 1) ∈ waitingFrom (k + 1) ps := by
        rw [show k + (i + 1) = k + 1 + i by omega]
        exact ih (k + 1) (by simpa using h)
      cases p with
      | none => exact hrest
      | some r => exact List.mem_cons_of_mem k hrest

theorem State.mem_waiting_iff {s : State} {h : Nat} : h ∈ s.waiting ↔ (s.pendingOf h).isSome = true := by
  refine ⟨fun hm => ?_, fun hp => ?_⟩
  · obtain ⟨i, hi, hp⟩ := waitingFrom_mem hm
    rw [hi, Nat.zero_add]
    exact hp
  · rw [← Nat.zero_add h]
    exact mem_waitingFrom 0 hp

theorem State.grantTo_of_pending {s : State} {h : Nat} {r : Request} (hp : s.pendingOf h = some r) :
    s.grantTo h = s.grant h r := by
  simp only [State.grantTo, hp]

/-- The arbiter grants nothing where it is not enabled (R265). -/
theorem State.arbitrate_not_enabled {s : State} (h : s.phase ≠ .ready ∨ s.guard ≠ none) : s.arbitrate = s :=
  if_neg (by tauto)

/-- The arbiter with no host waiting (R352). -/
theorem State.arbitrate_idle {s : State} (h : s.waiting = []) : s.arbitrate = s := by
  simp only [State.arbitrate, h, ite_self]

/-- Enabled, the arbiter turns to a host that waits. -/
theorem State.arbitrate_eq_grantTo {s : State} (hp : s.phase = .ready) (hg : s.guard = none) (hw : s.waiting ≠ []) :
    ∃ h n, h ∈ s.waiting ∧ s.arbitrate = ({ s with arbTurn := n } : State).grantTo h := by
  unfold State.arbitrate
  rw [if_pos ⟨hp, hg⟩]
  split
  · next hnil => exact absurd hnil hw
  · next h hone => exact ⟨h, s.arbTurn, by simp [hone], rfl⟩
  · next h h' rest hmany =>
    refine ⟨_, s.arbTurn + 1, ?_, rfl⟩
    rw [hmany, List.getD_eq_getElem _ _ (Nat.mod_lt _ (by simp))]
    exact List.getElem_mem _

theorem State.arbitrate_grants {s : State} (hp : s.phase = .ready) (hg : s.guard = none)
    (hw : ∃ h, (s.pendingOf h).isSome = true) :
    ∃ h n r, s.pendingOf h = some r ∧ s.arbitrate = ({ s with arbTurn := n } : State).grant h r := by
  obtain ⟨g, hwaits⟩ := hw
  obtain ⟨h, n, hmem, harb⟩ := State.arbitrate_eq_grantTo hp hg (List.ne_nil_of_mem (State.mem_waiting_iff.2 hwaits))
  obtain ⟨r, hr⟩ := Option.isSome_iff_exists.1 (State.mem_waiting_iff.1 hmem)
  exact ⟨h, n, r, hr, harb.trans (State.grantTo_of_pending hr)⟩

/-! ### One step of the sequencer -/

/-- With no line to perform the step of a running core is the arbiter's. -/
theorem tick_of_no_line {s : State} (hr : s.running) (hs : s.seq = []) : tick s = .next s.arbitrate := by
  obtain ⟨hreset, hhalted⟩ := hr
  unfold tick
  cases hp : s.phase
  case reset | halted => contradiction
  all_goals simp only [hs]

/-- With nothing scheduled and no word placed the step of a running core performs its current line. -/
theorem step_of_line {s : State} {l : Line} {rest : List Line} (hr : s.running) (hin : s.inputs = [])
    (hw : s.opWord = none) (hs : s.seq = l :: rest) : step s = (l.act { s with seq := rest }).perform s := by
  have hpush : s = ({ s with seq := rest } : State).push [l] := by simp only [State.push, List.singleton_append, ← hs]
  rw [step_of_no_inputs hin, coreTurn_of_no_word hw, hpush]
  exact tick_push (s := { s with seq := rest }) hr l []

/-! ### A request word (R102, log entry 22) -/

/-- The two request words, with their op (R102). -/
theorem exec_requestWord {i : Instr} {op : Byte} {sector count : Word}
    (hi : i = .readReq sector count ∧ op = 0x01 ∨ i = .writeReq sector count ∧ op = 0x02) :
    (op = opRead ∨ op = opWrite) ∧ ∀ s, exec i s = s.request op sector count := by
  obtain ⟨rfl, rfl⟩ | ⟨rfl, rfl⟩ := hi
  · exact ⟨.inl rfl, fun _ => rfl⟩
  · exact ⟨.inr rfl, fun _ => rfl⟩

section
variable {s : State} {op : Byte} {sector count : Word}

theorem State.request_of_granted (hg : s.isGranted op sector count)
    (ha : s.admits { op := op, sector := sector, count := count, buf := s.req.buf } = true) :
    s.request op sector count = s.perform [.host .serve] :=
  (if_pos hg).trans (if_pos ha)

theorem State.request_of_granted_unadmitted (hg : s.isGranted op sector count)
    (ha : ¬ s.admits { op := op, sector := sector, count := count, buf := s.req.buf } = true) :
    s.request op sector count = .refused .notAdmitted :=
  (if_pos hg).trans (if_neg ha)

theorem State.request_of_not_granted (hg : ¬ s.isGranted op sector count)
    (ha : s.admits (s.wordRequest op sector count) = true) :
    s.request op sector count = s.requestWord op sector count :=
  (if_neg hg).trans (if_pos ha)

theorem State.request_of_not_granted_unadmitted (hg : ¬ s.isGranted op sector count)
    (ha : ¬ s.admits (s.wordRequest op sector count) = true) : s.request op sector count = .refused .notAdmitted :=
  (if_neg hg).trans (if_neg ha)

/-- A host that has a request pending, or does not exist, submits nothing (R32, log entry 10). -/
theorem State.requestWord_blocked (h : s.pendingOf s.port.host ≠ none ∨ s.pending.length ≤ s.port.host) :
    s.requestWord op sector count = .next s := if_neg fun ⟨hl, hp⟩ => h.elim (· hp) hl.not_ge

/-- The state once the word's request is pending. -/
def State.wordSubmitted (op : Byte) (sector count : Word) (s : State) : State :=
  { s with pending := s.pending.set s.port.host (some (s.wordRequest op sector count)) }

theorem State.requestWord_submits (hl : s.port.host < s.pending.length) (hp : s.pendingOf s.port.host = none)
    (ha : s.admits (s.wordRequest op sector count) = true) : s.requestWord op sector count =
      if s.phase = .ready then (s.wordSubmitted op sector count).runGrant
      else .next (s.wordSubmitted op sector count) := by
  unfold State.requestWord
  rw [if_pos ⟨hl, hp⟩, State.submit_enabled hl hp ha]
  rfl

/-- Where the arbiter grants nothing the unit is over at once. -/
theorem State.runGrant_not_enabled (h : s.phase ≠ .ready ∨ s.guard ≠ none) : s.runGrant = .next s := by
  unfold State.runGrant
  rw [State.arbitrate_not_enabled h]
  exact runUnit_over ((State.unitOver_iff ..).2 (.inl le_rfl)) _

/-- The state in which a word's request is granted and its service starts (R260, R265), the word's host the only one that
waits. -/
def State.wordGranted (op : Byte) (sector count : Word) (s : State) : State :=
  { s with
    guard := some s.port.host, phase := .busy, trace := .grant s.port.host :: s.trace
    pending := s.pending.set s.port.host (some (s.wordRequest op sector count))
    req := { host := s.port.host, op := op, sector := sector, count := count,
             buf := (s.wordRequest op sector count).buf, addr := cardAddr s.cfg s.cap sector }
    seq := [.host .release] }

/-- The only host that waits is granted. -/
theorem State.arbitrate_wordSubmitted (hl : s.port.host < s.pending.length) (hnone : ∀ g, s.pendingOf g = none)
    (hp : s.phase = .ready) (hg : s.guard = none) (hs : s.seq = []) :
    (s.wordSubmitted op sector count).arbitrate = (s.wordGranted op sector count).push [.host .serve] := by
  have hwaiting : (s.wordSubmitted op sector count).waiting = [s.port.host] :=
    (waitingFrom_set hl hnone).trans (by rw [Nat.zero_add])
  have hpending : (s.wordSubmitted op sector count).pendingOf s.port.host = some (s.wordRequest op sector count) := by
    simp [State.pendingOf, State.wordSubmitted, hl]
  unfold State.arbitrate
  rw [if_pos ⟨hp, hg⟩, hwaiting]
  simp only [State.grantTo_of_pending hpending]
  simp [State.grant, State.emit, State.push, State.wordSubmitted, State.wordGranted, State.wordRequest, hs]

/-- The granted word is served above its release (R263). -/
theorem State.request_wordGranted (ha : s.admits (s.wordRequest op sector count) = true) :
    (s.wordGranted op sector count).request op sector count =
      runUnit (unitFuel s) 1 ((s.wordGranted op sector count).push [.host .serve]) :=
  State.request_of_granted ⟨rfl, rfl, rfl, rfl⟩ ha

/-- In READY with no other host waiting, what the granted word's service leaves is released, or the core has halted (R266,
R300). -/
theorem State.requestWord_runs {u : State} (hl : s.port.host < s.pending.length) (hnone : ∀ g, s.pendingOf g = none)
    (hp : s.phase = .ready) (hg : s.guard = none) (hs : s.seq = [])
    (ha : s.admits (s.wordRequest op sector count) = true)
    (h : (s.wordGranted op sector count).request op sector count = .next u) :
    (u.phase = .busy → u.seq = [.host .release] → s.requestWord op sector count = .next u.released) ∧
      (u.phase = .halted → s.requestWord op sector count = .next u) := by
  have hruns : s.requestWord op sector count =
      runUnit (unitFuel s + 1) 0 ((s.wordGranted op sector count).push [.host .serve]) := by
    rw [State.requestWord_submits hl (hnone _) ha, if_pos hp, State.runGrant,
      State.arbitrate_wordSubmitted hl hnone hp hg hs, show (s.wordSubmitted op sector count).seq = [] from hs]
    rfl
  rw [hruns]
  exact runUnit_to_release ((State.request_wordGranted ha).symm.trans h)

end

/-- In READY and in BUSY bring-up does not start (R343). -/
theorem execBringup_refused {s : State} (h : s.phase = .ready ∨ s.phase = .busy) :
    execBringup s = .refused .bringupOnlyFromReset := by
  obtain hp | hp := h <;> simp [execBringup, State.atBringupStart, hp]

/-! ### Whose events a step adds (R267) -/

/-- What the core adds to the trace from `s` to `t`: a grant only where the arbiter is enabled, alone, to a host that
waits; and transport events only in bring-up with the guard free, or in BUSY for the guard's holder, which keeps it. -/
def State.AddsGuarded (s t : State) : Prop :=
  ∃ es : List Event, t.trace = es ++ s.trace ∧
    (∀ h, Event.grant h ∈ es → s.phase = .ready ∧ s.guard = none ∧ (s.pendingOf h).isSome = true ∧
      t.guard = some h ∧ es = [.grant h]) ∧
    ∀ e ∈ es, e.isTransport = true →
      (s.phase = .bringup ∧ s.guard = none) ∨ (s.phase = .busy ∧ s.guard = some s.req.host ∧ t.guard = s.guard)

/-- A step may add any events that are neither a grant nor of the transport. -/
theorem State.AddsGuarded.of_quiet {s t : State} (es : List Event) (ht : t.trace = es ++ s.trace)
    (hgrant : ∀ h, Event.grant h ∉ es) (hquiet : ∀ e ∈ es, e.isTransport = false) : s.AddsGuarded t :=
  ⟨es, ht, fun h hm => absurd hm (hgrant h), fun e hm he => by simp [hquiet e hm] at he⟩

theorem State.AddsGuarded.of_same_trace {s t : State} (ht : t.trace = s.trace) : s.AddsGuarded t :=
  .of_quiet [] ht (fun _ => List.not_mem_nil) nofun

/-- A disciplined core performs its lines in bring-up with the guard free, and in BUSY for the guard's holder: there a line
that keeps the guard may add an event of its own. -/
theorem State.Disciplined.addsGuarded_of_line {s t : State} {l : Line} {rest : List Line} {e : Event}
    (hd : s.Disciplined) (hr : s.running) (hs : s.seq = l :: rest) (hguard : t.guard = s.guard)
    (ht : t.trace = e :: s.trace) (he : ∀ h, e ≠ .grant h) : s.AddsGuarded t := by
  refine ⟨[e], ht, fun h hm => absurd (List.mem_singleton.1 hm).symm (he h), fun _ _ _ => ?_⟩
  obtain ⟨hp, -⟩ | ⟨hp, -⟩ := hd.current hr hs
  · obtain ⟨-, -, hfree, -⟩ := (State.disciplined_bringup_iff hp).1 hd
    exact .inl ⟨hp, hfree⟩
  · obtain ⟨-, -, hheld, -⟩ := (State.disciplined_busy_iff hp).1 hd
    exact .inr ⟨hp, hheld, hguard⟩

theorem State.addsGuarded_arbitrate (s : State) : s.AddsGuarded s.arbitrate := by
  obtain h | ⟨hp, hg, g, r, n, hpending, h⟩ := arbitrate_cases s <;> rw [h]
  · exact .of_same_trace rfl
  · refine ⟨[.grant g], rfl, fun h hm => ?_, fun e hm he => ?_⟩
    · obtain rfl : h = g := by simpa using hm
      exact ⟨hp, hg, Option.isSome_of_eq_some hpending, rfl, rfl⟩
    · rw [List.mem_singleton.1 hm] at he
      cases he

/-- An internal action: a plain line keeps the guard, and the end of bring-up, the release and a raise add no transport
event. -/
theorem State.Disciplined.addsGuarded_of_go {s t : State} {l : Line} {rest : List Line} (hd : s.Disciplined)
    (hr : s.running) (hs : s.seq = l :: rest) (h : l.act { s with seq := rest } = .go t) : s.AddsGuarded t := by
  obtain hl | rfl | rfl | ⟨r, rfl⟩ := l.plain_cases
  · have ha := acted l { s with seq := rest } t hl (by rw [h]; rfl)
    obtain ht | ⟨m, ht⟩ | ⟨c, ht⟩ := ha.trace
    · exact .of_same_trace ht
    · exact hd.addsGuarded_of_line hr hs ha.guard ht nofun
    · exact hd.addsGuarded_of_line hr hs ha.guard ht nofun
  · cases h
    exact .of_same_trace rfl
  · cases h
    exact .of_quiet [.done s.req.host s.req.op, .release s.req.host] rfl (by simp) (by simp [Event.isTransport])
  · cases h
    exact .of_quiet [.halt r] rfl (by simp) (by simp [Event.isTransport])

/-- The end of bring-up, the release and a raise exchange no byte. -/
theorem Line.plain_of_exchange {l : Line} {s : State} {o : Byte} {k : Byte → State} (h : l.act s = .exchange o k) :
    l.plain = true := by
  obtain hl | rfl | rfl | ⟨r, rfl⟩ := l.plain_cases
  · exact hl
  all_goals cases h

theorem State.Disciplined.addsGuarded_tick {s t : State} (hd : s.Disciplined) (h : Machine.tick s = .next t) :
    s.AddsGuarded t := by
  obtain ⟨-, rfl⟩ | ⟨-, -, rfl⟩ | ⟨hr, l, rest, hs, ha | ⟨o, k, -, -, rfl⟩ | ⟨o, k, i, r, ha, -, rfl⟩⟩ := tick_cases h
  · exact .of_same_trace rfl
  · exact s.addsGuarded_arbitrate
  · exact hd.addsGuarded_of_go hr hs ha
  · exact .of_same_trace rfl
  · have hacted := acted l { s with seq := rest } (k i) (Line.plain_of_exchange ha) (by rw [ha]; exact ⟨i, rfl⟩)
    exact hd.addsGuarded_of_line hr hs hacted.guard
      (congrArg (Event.xchg o i :: ·) (Line.trace_of_exchange ha i)) nofun

end Sys2Proof.Machine

/-! ### The obligations of the façade -/

namespace Sys2Proof.Proofs

open Sys2Proof Sys2Proof.Machine

/-- Settles O48: the core's step by its kinds; a step from outside adds no event. -/
theorem guardExclusive : Obligations.GuardExclusive := by
  intro s t hd h
  obtain ⟨is, -, h⟩ | ⟨is, -, -, rfl⟩ | ⟨g, r, is, -, rfl⟩ | ⟨a, b, is, -, rfl⟩ | ⟨is, -, rfl⟩ := step_cases h
  · exact State.Disciplined.addsGuarded_tick (s := { s with inputs := is }) hd (hd.tick_of_coreTurn h)
  · exact State.AddsGuarded.of_same_trace rfl
  · rw [State.submit_frame]
    exact State.AddsGuarded.of_same_trace rfl
  · rw [State.hostWrite_frame]
    exact State.AddsGuarded.of_same_trace rfl
  · exact State.AddsGuarded.of_same_trace rfl

/-- Settles O44: with no line to perform the step is the arbiter's, which grants a host that waits where there is one. -/
theorem grantStep : Obligations.GrantStep := by
  intro s hp hg hs hin hw
  have hstep : step s = .next s.arbitrate := by
    rw [step_of_no_inputs hin, coreTurn_of_no_word hw, tick_of_no_line (by simp [State.running, hp]) hs]
  refine ⟨fun hwaits => ?_, fun hnone => ?_⟩
  · obtain ⟨h, n, r, hr, hgrant⟩ := State.arbitrate_grants hp hg hwaits
    refine ⟨h, n, r, hr, ?_⟩
    rw [hstep, hgrant]
    simp only [State.grant, State.emit, State.push, hs, List.append_nil]
  · rw [hstep, State.arbitrate_idle (waitingFrom_none 0 hnone)]

/-- Settles O60: the word's submission, which waits where the arbiter is not enabled, and which otherwise the arbiter
grants and its unit serves to the release. -/
theorem requestWordSubmits : Obligations.RequestWordSubmits := by
  rintro i op sector count s r h hi hng haddr rfl rfl
  obtain ⟨hop, hexec⟩ := exec_requestWord hi
  have ha : s.admits (s.wordRequest op sector count) = true := (State.admits_wordRequest_iff hop).2 haddr
  rw [hexec, State.request_of_not_granted hng ha]
  refine ⟨fun hl hp hbusy => ?_, State.requestWord_blocked, fun hl hnone hp hg hs granted u hgranted hu => ?_⟩
  · rw [State.requestWord_submits hl hp ha, State.runGrant_not_enabled (s := s.wordSubmitted op sector count) hbusy, ite_self]
    rfl
  · obtain rfl : granted = s.wordGranted op sector count := hgranted
    exact State.requestWord_runs hl hnone hp hg hs ha ((hexec _).symm.trans hu)

/-- Settles O43: the three conditions of a submission are those of R264 with R261's admission. -/
theorem submitStep : Obligations.SubmitStep := by
  intro s h r is hin
  have hadmits : ((r.op = 0x01 ∨ r.op = 0x02) ∧ r.buf.len = 512 * r.count.toNat ∧
      (if s.cap = .standard ∧ s.cfg.scaleStandard = true then r.sector.toNat * 512 else r.sector.toNat) < 2 ^ 32) ↔
      ({ s with inputs := is } : State).admits r = true := State.admits_iff.symm
  rw [step_of_submit hin, hadmits]
  refine ⟨fun ⟨hl, hp, ha⟩ => ?_, fun hn => ?_⟩
  · rw [State.submit_enabled (s := { s with inputs := is }) hl hp ha]
  · rw [State.submit_not_enabled (s := { s with inputs := is }) hn]

/-- Settles O45: `SERVE` is an internal action, and its address is that of R262 written out. -/
theorem serveDispatches : Obligations.ServeDispatches := by
  intro s rest hr hin hw hs
  refine ⟨_, _, cardAddr_eq .., rfl, ?_⟩
  rw [step_of_line hr hin hw hs]
  rfl

/-- Settles O46: the release is an internal action. -/
theorem releaseStep : Obligations.ReleaseStep := by
  intro s rest hr hin hw hs
  rw [step_of_line hr hin hw hs]
  rfl

/-- Settles O49: a granted word's request fails R261 by its address or its latched buffer, any other word's by its address,
and bring-up starts out of RESET and BRINGUP only. -/
theorem unservableRefused : Obligations.UnservableRefused := by
  refine ⟨fun i op sector count s hi hbad => ?_, fun s hp => execBringup_refused hp⟩
  obtain ⟨hop, hexec⟩ := exec_requestWord hi
  rw [hexec]
  by_cases hg : s.isGranted op sector count
  · refine State.request_of_granted_unadmitted hg fun ha => ?_
    obtain ⟨-, hlen, haddr⟩ := State.admits_iff.1 ha
    obtain hbig | ⟨-, hne⟩ := hbad
    · exact absurd haddr hbig.not_gt
    · exact hne hlen
  · refine State.request_of_not_granted_unadmitted hg fun ha => ?_
    obtain hbig | ⟨hgranted, -⟩ := hbad
    · exact absurd ((State.admits_wordRequest_iff hop).1 ha) hbig.not_gt
    · exact hg hgranted

end Sys2Proof.Proofs

/-!
PROOF. The exceptions' statements (spec/60_exceptions.md): what a raise writes, the range of the attempt field, and what
may still happen in HALTED.
-/

namespace Sys2Proof.Machine

/-! ### The attempt field (R28) -/

theorem attemptNo_val {n : Nat} (h1 : 1 ≤ n) (h255 : n ≤ 255) : (attemptNo n).val = n :=
  congrArg Subtype.val (dif_pos ⟨h1, h255⟩)

/-! ### HALTED (R303, R307, R271) -/

section
variable {s t : State} (hp : s.phase = .halted)
include hp

theorem tick_of_halted : tick s = .fault .halted := by
  simp only [tick, hp]

/-- In HALTED a placed word is not looked at. -/
theorem coreTurn_of_halted : s.coreTurn = .fault .halted := by
  simp only [State.coreTurn, hp, tick_of_halted hp]

theorem perform_of_halted (ls : List Line) : s.perform ls = .fault .halted := by
  simp only [State.perform, hp]

theorem compute_of_halted (f : Datapath → Datapath) : s.compute f = .fault .halted := by
  simp only [State.compute, hp]

theorem execBringup_of_halted : execBringup s = .fault .halted := if_pos hp

/-- In HALTED a step is a reset, or it changes nothing but the schedule, the pending requests and the hosts' memory: a
turn of the core passes, and a submission and a host's write are no steps of the core. -/
theorem step_of_halted (h : step s = .next t) : (∃ is, s.inputs = .assertReset :: is) ∨
    ∃ is ps m, t = { s with inputs := is, pending := ps, mem := m } := by
  obtain ⟨is, -, h⟩ | ⟨is, -, -, rfl⟩ | ⟨g, r, is, -, rfl⟩ | ⟨a, b, is, -, rfl⟩ | ⟨is, hin, -⟩ := step_cases h
  · rw [coreTurn_of_halted (s := { s with inputs := is }) hp] at h
    cases h
  · exact .inr ⟨is, s.pending, s.mem, rfl⟩
  · exact .inr ⟨is, _, s.mem, State.submit_frame ..⟩
  · exact .inr ⟨is, s.pending, _, State.hostWrite_frame ..⟩
  · exact .inl ⟨is, hin⟩

/-- Every instruction but a request word is the fault `halted`: a procedure's unit may have its byte or its registers
prepared first, which leaves the phase. -/
theorem exec_of_halted (i : Instr) : exec i s = .fault .halted ∨ ∃ (op : Byte) (sector count : Word),
    i = .readReq sector count ∧ op = 0x01 ∨ i = .writeReq sector count ∧ op = 0x02 := by
  cases i
  case readReq sector count => exact .inr ⟨0x01, sector, count, .inl ⟨rfl, rfl⟩⟩
  case writeReq sector count => exact .inr ⟨0x02, sector, count, .inr ⟨rfl, rfl⟩⟩
  case bringup => exact .inl (execBringup_of_halted hp)
  case crc7 | crc16 => exact .inl (compute_of_halted hp _)
  all_goals exact .inl (perform_of_halted (by exact hp) _)

/-- With no step enabled a request word that is not the granted request waits, where it is submitted at all. -/
theorem State.requestWord_of_halted (op : Byte) (sector count : Word) :
    ∃ u, s.requestWord op sector count = .next u ∧
      (u = s ∨ u = s.submit s.port.host (s.wordRequest op sector count)) := by
  unfold State.requestWord
  split
  · exact ⟨_, if_neg (by simp [hp]), .inr rfl⟩
  · exact ⟨s, rfl, .inl rfl⟩

/-- A request word with an effect in HALTED is a submission: the granted request is not served there. -/
theorem State.request_of_halted {op : Byte} {sector count : Word} (h : s.request op sector count = .next t) :
    ¬ s.isGranted op sector count ∧ (t = s ∨ t = s.submit s.port.host (s.wordRequest op sector count)) := by
  unfold State.request at h
  split at h
  · rw [perform_of_halted hp] at h
    split at h <;> cases h
  · next hng =>
    obtain ⟨u, hu, hcases⟩ := State.requestWord_of_halted hp op sector count
    rw [hu] at h
    split at h
    · cases h
      exact ⟨hng, hcases⟩
    · cases h

end

/-- A submission leaves every other host's entry. -/
theorem State.pendingOf_submit_ne {g h : Nat} (hne : g ≠ h) (s : State) (r : Request) :
    (s.submit h r).pendingOf g = s.pendingOf g := by
  unfold State.submit
  split
  · exact congrArg Option.join (List.getElem?_set_ne hne.symm)
  · rfl

end Sys2Proof.Machine

/-! ### The obligations of the exceptions -/

namespace Sys2Proof.Proofs

open Sys2Proof Sys2Proof.Machine

/-- Settles O52: a turn of the core passes or faults, what comes from outside writes nothing of the core's but by reset,
and of the instructions only a submission answers a next state. -/
theorem haltedIsSticky : Obligations.HaltedIsSticky := by
  refine fun s hp => ⟨fun hin => ?_, fun t h => ?_, fun i t h => ?_⟩
  · rw [step_of_no_inputs hin, coreTurn_of_halted hp]
  · obtain hreset | ⟨is, ps, m, rfl⟩ := step_of_halted hp h
    · exact .inl hreset
    · exact .inr ⟨hp, rfl, rfl, rfl, rfl, rfl, rfl, rfl, rfl, rfl, rfl⟩
  · obtain hfault | ⟨op, sector, count, hi⟩ := exec_of_halted hp i
    · cases hfault.symm.trans h
    · obtain ⟨-, hexec⟩ := exec_requestWord hi
      obtain ⟨hng, rfl | rfl⟩ := State.request_of_halted hp ((hexec s).symm.trans h)
      · exact ⟨⟨op, sector, count, hi, hng⟩, rfl, fun _ _ => rfl⟩
      · exact ⟨⟨op, sector, count, hi, hng⟩, State.submit_frame .., fun g hg => State.pendingOf_submit_ne hg ..⟩

/-- Settles O51: the raise is the current line, an internal action; the attempt field's range is its type's. -/
theorem raiseFatal : Obligations.RaiseFatal := by
  refine ⟨fun s r rest hr hin hw hs => ?_, fun n => ?_⟩
  · rw [step_of_line hr hin hw hs]
    rfl
  · obtain ⟨h1, h255⟩ := (attemptNo n).property
    exact ⟨h1, h255, attemptNo_val⟩

end Sys2Proof.Proofs
